-- ==== Sys2Proof/Word.lean ====
section
/-! DEFINITION. The machine's word types (spec/00_scope.md R9): 32-bit registers, 16-bit coordinates and dimensions,
8-bit window bytes and 14-bit bus offsets. -/

namespace Sys2Proof

/-- A host-visible register, a command word, a file offset or a row stride: 32 bits (R9, R100). -/
abbrev Word := BitVec 32

/-- A coordinate or a dimension: 16 bits (R9). -/
abbrev Half := BitVec 16

/-- A byte of the framebuffer window, or a colour channel: 8 bits (R9, R107). -/
abbrev Byte := BitVec 8

/-- A byte offset into the block's register space, 0x0000 to 0x3FFF (spec/20_memory.md R70). -/
abbrev Offset := BitVec 14

end Sys2Proof
end

