-- ==== Sys2Proof/Syntax.lean ====
section
/-! DEFINITION. The commands of the opcode map (spec/30_encoding.md R111), one constructor per row of
spec/opcode_table.json, with the immediate fields of the word as operands (R102 to R108). Operands taken from the
argument registers are read by the meanings (Machine/Operands.lean), not held here. -/

namespace Sys2Proof

/-- A pixel colour (spec/00_scope.md R15): BLACK = 0, WHITE = 1. -/
inductive Color where
  | black
  | white
  deriving DecidableEq, Repr

/-- The framebuffer rotation (spec/10_state.md R42): 0, 90, 180 or 270 degrees. -/
inductive Rotation where
  | rot0
  | rot90
  | rot180
  | rot270
  deriving DecidableEq, Repr

/-- The panel orientation (spec/10_state.md R57): Landscape = 0, Portrait = 1. -/
inductive Orientation where
  | landscape
  | portrait
  deriving DecidableEq, Repr

/-- The REGION field of DC_DISPLAY_PART (R106): 0 = the whole buffer, 1 = the region given in ARG0 to ARG3. -/
inductive PartRegion where
  | whole
  | region
  deriving DecidableEq, Repr

/-- The 21 commands (R111). The channels of IMG_PIXEL_RGB and the value of IMG_PIXEL_565 are unsigned numbers (R110);
WellFormed.lean says which of them the word's fields can hold (log entry 19, DESIGN CHOICE). -/
inductive Instr where
  | fbReset
  | fbClear (c : Color)
  | fbSetPixel (c : Color)
  | fbGetPixel
  | fbRotate (r : Rotation)
  | fbDrawLine (c : Color)
  | fbDrawRect (c : Color)
  | fbFillRect (c : Color)
  | imgBeginBmp
  | imgBeginGen
  | imgPixelRgb (r g b : Nat)
  | imgPixel565 (v : Nat)
  | imgAbort
  | dcInit (o : Orientation)
  | dcWaitIdle
  | dcWriteBase
  | dcSetFrameMemory
  | dcDisplayFrame
  | dcDisplayPart (p : PartRegion)
  | dcSleep
  | dcClear
  deriving DecidableEq, Repr

end Sys2Proof
end

