-- ==== Sys2Proof/WellFormed.lean ====
section
/-! DEFINITION. Which terms of Instr a command word can spell: the colour channels of format RGB are 8-bit fields
(spec/30_encoding.md R107) and the value of format V is a 16-bit field (R108). Every other operand's type holds exactly
what its field holds (R103 to R106). -/

namespace Sys2Proof

/-- Every immediate fits the field the command's format gives it (R101 to R108). -/
def Instr.wellFormed : Instr → Bool
  | .imgPixelRgb r g b => decide (r < 256) && decide (g < 256) && decide (b < 256)
  | .imgPixel565 v => decide (v < 65536)
  | .fbReset => true
  | .fbClear _ => true
  | .fbSetPixel _ => true
  | .fbGetPixel => true
  | .fbRotate _ => true
  | .fbDrawLine _ => true
  | .fbDrawRect _ => true
  | .fbFillRect _ => true
  | .imgBeginBmp => true
  | .imgBeginGen => true
  | .imgAbort => true
  | .dcInit _ => true
  | .dcWaitIdle => true
  | .dcWriteBase => true
  | .dcSetFrameMemory => true
  | .dcDisplayFrame => true
  | .dcDisplayPart _ => true
  | .dcSleep => true
  | .dcClear => true

end Sys2Proof
end

