-- ==== Sys2Proof/Decode.lean ====
section
/-! DEFINITION. The command word (spec/30_encoding.md): the opcode map of R111 as one row per command, the decoder that
finds the row a word matches (R111, R112), and the encoder written from the same formats (R101 to R108, R117).
A command is one 32-bit word of one bus write: there is no byte order and no length to find (R100; spec/20_memory.md R80). -/

namespace Sys2Proof

/-! ### Fields -/

/-- The field `w[lo+len-1 : lo]` as an unsigned number (spec/00_scope.md R10). -/
def bitField (w : Word) (lo len : Nat) : Nat := (w.extractLsb' lo len).toNat

/-- The colour a bit spells (R103): 0 = BLACK, 1 = WHITE. -/
def Color.ofBit (b : Bool) : Color := if b then .white else .black

/-- The bit that spells a colour (spec/00_scope.md R15): BLACK = 0, WHITE = 1. -/
def Color.toBit : Color → Bool
  | .black => false
  | .white => true

/-- The rotation a 2-bit field spells (R104). -/
def Rotation.ofField (hi lo : Bool) : Rotation :=
  match hi, lo with
  | false, false => .rot0
  | false, true => .rot90
  | true, false => .rot180
  | true, true => .rot270

/-- The number that spells a rotation (R104): the ROT field. -/
def Rotation.code : Rotation → Nat
  | .rot0 => 0
  | .rot90 => 1
  | .rot180 => 2
  | .rot270 => 3

/-- The orientation a bit spells (R105). -/
def Orientation.ofBit (b : Bool) : Orientation := if b then .portrait else .landscape

/-- The bit that spells an orientation (R105). -/
def Orientation.toBit : Orientation → Bool
  | .landscape => false
  | .portrait => true

/-- The region choice a bit spells (R106). -/
def PartRegion.ofBit (b : Bool) : PartRegion := if b then .region else .whole

/-- The bit that spells a region choice (R106). -/
def PartRegion.toBit : PartRegion → Bool
  | .whole => false
  | .region => true

/-! ### The opcode map -/

/-- One row of the opcode map (R111): `build` reads the format's fields of a word that matches. -/
structure OpRow where
  opc : Nat
  mnemonic : String
  mask : Word
  pat : Word
  build : Word → Instr

/-- A word is the row's command exactly when `(word & mask) == match` (R111). -/
def OpRow.hits (r : OpRow) (w : Word) : Bool := w &&& r.mask == r.pat

/-- The framebuffer and rasterizer rows of the opcode map (R111), opcodes 0x10 to 0x17. -/
def framebufferRows : List OpRow :=
  [ ⟨0x10, "FB_RESET", 0xFFFFFFFF, 0x10000000, fun _ => .fbReset⟩
  , ⟨0x11, "FB_CLEAR", 0xFFFFFFFE, 0x11000000, fun w => .fbClear (Color.ofBit (w.getLsbD 0))⟩
  , ⟨0x12, "FB_SET_PIXEL", 0xFFFFFFFE, 0x12000000, fun w => .fbSetPixel (Color.ofBit (w.getLsbD 0))⟩
  , ⟨0x13, "FB_GET_PIXEL", 0xFFFFFFFF, 0x13000000, fun _ => .fbGetPixel⟩
  , ⟨0x14, "FB_ROTATE", 0xFFFFFFFC, 0x14000000, fun w => .fbRotate (Rotation.ofField (w.getLsbD 1) (w.getLsbD 0))⟩
  , ⟨0x15, "FB_DRAW_LINE", 0xFFFFFFFE, 0x15000000, fun w => .fbDrawLine (Color.ofBit (w.getLsbD 0))⟩
  , ⟨0x16, "FB_DRAW_RECT", 0xFFFFFFFE, 0x16000000, fun w => .fbDrawRect (Color.ofBit (w.getLsbD 0))⟩
  , ⟨0x17, "FB_FILL_RECT", 0xFFFFFFFE, 0x17000000, fun w => .fbFillRect (Color.ofBit (w.getLsbD 0))⟩ ]

/-- The thresholder rows of the opcode map (R111), opcodes 0x20 to 0x24. -/
def thresholderRows : List OpRow :=
  [ ⟨0x20, "IMG_BEGIN_BMP", 0xFFFFFFFF, 0x20000000, fun _ => .imgBeginBmp⟩
  , ⟨0x21, "IMG_BEGIN_GEN", 0xFFFFFFFF, 0x21000000, fun _ => .imgBeginGen⟩
  , ⟨0x22, "IMG_PIXEL_RGB", 0xFF000000, 0x22000000,
      fun w => .imgPixelRgb (bitField w 16 8) (bitField w 8 8) (bitField w 0 8)⟩
  , ⟨0x23, "IMG_PIXEL_565", 0xFFFF0000, 0x23000000, fun w => .imgPixel565 (bitField w 0 16)⟩
  , ⟨0x24, "IMG_ABORT", 0xFFFFFFFF, 0x24000000, fun _ => .imgAbort⟩ ]

/-- The display-controller rows of the opcode map (R111), opcodes 0x30 to 0x37. -/
def displayRows : List OpRow :=
  [ ⟨0x30, "DC_INIT", 0xFFFFFFFE, 0x30000000, fun w => .dcInit (Orientation.ofBit (w.getLsbD 0))⟩
  , ⟨0x31, "DC_WAIT_IDLE", 0xFFFFFFFF, 0x31000000, fun _ => .dcWaitIdle⟩
  , ⟨0x32, "DC_WRITE_BASE", 0xFFFFFFFF, 0x32000000, fun _ => .dcWriteBase⟩
  , ⟨0x33, "DC_SET_FRAME_MEMORY", 0xFFFFFFFF, 0x33000000, fun _ => .dcSetFrameMemory⟩
  , ⟨0x34, "DC_DISPLAY_FRAME", 0xFFFFFFFF, 0x34000000, fun _ => .dcDisplayFrame⟩
  , ⟨0x35, "DC_DISPLAY_PART", 0xFFFFFFFE, 0x35000000, fun w => .dcDisplayPart (PartRegion.ofBit (w.getLsbD 0))⟩
  , ⟨0x36, "DC_SLEEP", 0xFFFFFFFF, 0x36000000, fun _ => .dcSleep⟩
  , ⟨0x37, "DC_CLEAR", 0xFFFFFFFF, 0x37000000, fun _ => .dcClear⟩ ]

/-- The whole opcode map (R111). -/
def opcodeMap : List OpRow := framebufferRows ++ thresholderRows ++ displayRows

/-! ### Decoding -/

/-- Why a word is illegal (R112). -/
inductive IllegalWord where
  /-- Its opcode is none of the 21 (R113). -/
  | unassignedOpcode (opc : Nat)
  /-- Its opcode is this command's, and a reserved bit of the command's format is 1 (R101, R112). -/
  | reservedBits (mnemonic : String)
  deriving DecidableEq, Repr

/-- The opcode of a word: bits 31:24 (R101). -/
def opcodeOf (w : Word) : Nat := bitField w 24 8

/-- Why a word that matches no row is illegal (R112). -/
def illegalWord (w : Word) : IllegalWord :=
  match opcodeMap.find? (fun r => r.opc == opcodeOf w) with
  | some r => .reservedBits r.mnemonic
  | none => .unassignedOpcode (opcodeOf w)

/-- The decoder, total on every word: the command of the row the word matches, or the reason it is illegal (R111, R112). -/
def decode (w : Word) : Except IllegalWord Instr :=
  match opcodeMap.find? (fun r => r.hits w) with
  | some r => .ok (r.build w)
  | none => .error (illegalWord w)

/-- The instruction the decoder reads from the low `nbits` bits of `w`, the host's numbering: bit 0 is the least
significant bit of the one command word, and the bits from `nbits` up are 0. -/
def decodeTableWord (nbits w : Nat) : Option Instr :=
  match decode (BitVec.ofNat 32 (w % 2 ^ nbits)) with
  | .ok i => some i
  | .error _ => none

/-! ### Encoding -/

/-- A bit as the number of a one-bit field at bit 0. -/
def bitWord (b : Bool) : Word := if b then 1 else 0

/-- The opcode of a command (R111). -/
def Instr.opcode : Instr → Nat
  | .fbReset => 0x10
  | .fbClear _ => 0x11
  | .fbSetPixel _ => 0x12
  | .fbGetPixel => 0x13
  | .fbRotate _ => 0x14
  | .fbDrawLine _ => 0x15
  | .fbDrawRect _ => 0x16
  | .fbFillRect _ => 0x17
  | .imgBeginBmp => 0x20
  | .imgBeginGen => 0x21
  | .imgPixelRgb _ _ _ => 0x22
  | .imgPixel565 _ => 0x23
  | .imgAbort => 0x24
  | .dcInit _ => 0x30
  | .dcWaitIdle => 0x31
  | .dcWriteBase => 0x32
  | .dcSetFrameMemory => 0x33
  | .dcDisplayFrame => 0x34
  | .dcDisplayPart _ => 0x35
  | .dcSleep => 0x36
  | .dcClear => 0x37

/-- The immediate fields of a command at their places in bits 23:0 (R102 to R108). -/
def Instr.fields : Instr → Word
  | .fbClear c => bitWord c.toBit
  | .fbSetPixel c => bitWord c.toBit
  | .fbRotate r => BitVec.ofNat 32 r.code
  | .fbDrawLine c => bitWord c.toBit
  | .fbDrawRect c => bitWord c.toBit
  | .fbFillRect c => bitWord c.toBit
  | .imgPixelRgb r g b => (BitVec.ofNat 32 r <<< 16) ||| (BitVec.ofNat 32 g <<< 8) ||| BitVec.ofNat 32 b
  | .imgPixel565 v => BitVec.ofNat 32 v
  | .dcInit o => bitWord o.toBit
  | .dcDisplayPart p => bitWord p.toBit
  | .fbReset => 0
  | .fbGetPixel => 0
  | .imgBeginBmp => 0
  | .imgBeginGen => 0
  | .imgAbort => 0
  | .dcWaitIdle => 0
  | .dcWriteBase => 0
  | .dcSetFrameMemory => 0
  | .dcDisplayFrame => 0
  | .dcSleep => 0
  | .dcClear => 0

/-- The command word: `(OPC << 24) | fields` (R117). -/
def encode (i : Instr) : Word := (BitVec.ofNat 32 i.opcode <<< 24) ||| i.fields

end Sys2Proof
end

