-- ==== Sys2Proof/Config.lean ====
section
/-! DEFINITION. What an implementation fixes (spec/00_scope.md R8) and the free values: the outcomes of the spec's
`choose` draws (R14, R15) and the OPEN parameter WAIT_TIMEOUT_TICKS. The free values are opaque constants with no body:
nothing can be proved about which value they are, so every claim holds for all of them. -/

namespace Sys2Proof.Config

/-- PANEL_W, the panel's width in pixels (R8). -/
def panelW : Nat := 200

/-- PANEL_H, the panel's height in pixels (R8). -/
def panelH : Nat := 200

/-- BACKING_BYTES, the size of the backing store in bytes (R8). -/
def backingBytes : Nat := 5000

/-- CAP_BITS, the capacity of the backing store in bits (R8). -/
def capBits : Nat := 40000

/-- GEN_ROW_CAP, the widest source image the generic path accepts (R8; the spec's default, log entry 14, DESIGN CHOICE). -/
def genRowCap : Nat := 320

/-- BMP_T, the channel-sum threshold of the bitmap path, legal in 0..764 (R8; the spec's default, log entry 14, DESIGN
CHOICE). -/
def bmpT : Nat := 0

/-- IMG_MAX_DIM, the largest source width or height (R8; the spec's default, log entry 14, DESIGN CHOICE). -/
def imgMaxDim : Nat := 65535

/-- NARG, the number of argument registers (R8). An abbrev, so that the register numbers `Fin narg` have literals. -/
abbrev narg : Nat := 8

/-- FB_WINDOW_BASE, the byte offset of the framebuffer window (R8). -/
def fbWindowBase : Nat := 0x1000

/-- FREE VALUE: the outcome of the n-th `choose` draw between two values (R14, R15; log entry 3, DESIGN CHOICE). The State's
counter `draws` says which draw comes next. -/
opaque choose : Nat → Bool

/-- FREE VALUE: what the snapshot view taken after so many draws gives for this UNKNOWN bit
(spec/40_framebuffer.md R151; log entry 16, DESIGN CHOICE). -/
opaque snapChoose : Nat → Nat → Bool

/-- FREE VALUE: one less than WAIT_TIMEOUT_TICKS, so that the parameter is any integer that is at least 1
(R8; log entry 5, DEDUCED). -/
opaque waitTimeoutExtra : Nat

/-- WAIT_TIMEOUT_TICKS, OPEN: the number of poll ticks that find the panel busy before DC_WAIT_IDLE reports a timeout
(R8, spec/43_display_controller.md R228). -/
def waitTimeoutTicks : Nat := waitTimeoutExtra + 1

end Sys2Proof.Config
end

