-- ==== Sys2Proof/Machine/State.lean ====
section
/-! DEFINITION. The machine's state: every piece of state the spec gives the block (spec/10_state.md R30), the model's own
inputs and counters, the reasons a step can stop, and the state after reset (spec/70_reset_and_hazards.md R301).
Operations over it are in Ops.lean and the family files. -/

namespace Sys2Proof.Machine

/-! ### Values -/

/-- Status codes, STATUS.ERR (spec/60_exceptions.md R273). Codes 11 to 15 are reserved and never written, so they have
no constructor. -/
inductive StatusCode where
  | ok
  | illegal
  | capacity
  | format
  | stream
  | streamActive
  | state
  | noWait
  | noBase
  | align
  | timeout
  deriving DecidableEq, Repr

/-- DC_STATE (spec/10_state.md R56): UNINIT, INIT, ACTIVE, SLEEP. -/
inductive DcState where
  | uninit
  | init
  | active
  | sleep
  deriving DecidableEq, Repr

/-- The kind of a refresh (spec/10_state.md R54, R60): FULL or PARTIAL. -/
inductive RefreshKind where
  | full
  | part
  deriving DecidableEq, Repr

/-- IMG_CFG.MODE (spec/10_state.md R45): 0 = the bitmap path, 1 = the generic RGB565 path. -/
inductive ImgPath where
  | bitmap
  | generic
  deriving DecidableEq, Repr

/-- A store of one-bit pixels, each BLACK, WHITE or UNKNOWN (spec/00_scope.md R15), held as bytes by address: byte `k`
holds bits `8k` to `8k+7`, MSB first (spec/10_state.md R44, spec/20_memory.md R78). `known` has a 1 for every bit whose
colour is determined and `data` its colour; a byte that is not listed reads 0 in both, so an unlisted byte's bits are
UNKNOWN, the spec's reset contents. `Memory.wf` (Ops.lean) is the canonical form. The backing store, PRAM, DISPLAYED and
a pending image are each one of these. -/
structure Memory where
  data : List Host.Cell
  known : List Host.Cell
  deriving DecidableEq, Repr

/-- Every bit UNKNOWN: the contents after reset (spec/70_reset_and_hazards.md R301). -/
def Memory.allUnknown : Memory := ⟨[], []⟩

/-- A pending refresh, the pair of PEND (spec/10_state.md R54). -/
structure Pending where
  image : Memory
  kind : RefreshKind
  deriving DecidableEq, Repr

/-! ### The host's operations and the order of turns -/

/-- A host bus access of `n` bytes at an offset (spec/00_scope.md R13): MemRead and MemWrite. Only the low `8*n` bits of
`v` are written (log entry 10, DEDUCED). -/
inductive BusAccess where
  | read (off : Offset) (n : Nat)
  | write (off : Offset) (n : Nat) (v : Word)
  deriving DecidableEq, Repr

/-- What the host does next: one access, or a POLL line (spec/30_encoding.md R114), which reads the register again at
each of the host's turns until `(t & mask) == value`. -/
inductive HostOp where
  | access (a : BusAccess)
  | poll (off : Offset) (mask value : Word)
  deriving DecidableEq, Repr

/-- Who moves at a step: one of the three agents (spec/00_scope.md R6), or the power supply (spec/70_reset_and_hazards.md
R300, R311). -/
inductive Turn where
  | host
  | engine
  | panel
  | powerCut
  | powerOn
  deriving DecidableEq, Repr

/-! ### Why a step can stop -/

/-- Nothing in the spec stops the machine: every error is a status code (spec/60_exceptions.md R271, R279), so no
constructor exists. -/
inductive Fault where
  deriving DecidableEq, Repr

/-- Reasons a step has no meaning. -/
inductive Refusal where
  /-- Raised by a refused arm of exec, for an instruction the model has given no meaning; safe. No arm raises it. -/
  | notModelled (mnemonic : String)
  /-- Raised by the host's turn while the block has no power (spec/70_reset_and_hazards.md R311): the spec gives an
  access then no effect (log entry 8, DESIGN CHOICE); safe. -/
  | unpowered
  deriving DecidableEq, Repr

/-! ### The state -/

/-- The state of the block, its panel and the inputs that drive them (spec/10_state.md R30; INVENTORY.md, State). -/
structure State where
  /-- STATUS.CMD_BUSY: a DC_WAIT_IDLE is in progress (R33). -/
  cmdBusy : Bool
  /-- STATUS.IMG_ACTIVE: an image stream is open (R34). -/
  imgActive : Bool
  /-- STATUS.OVR, sticky: a CMD write was dropped (R35). -/
  ovr : Bool
  /-- STATUS.BUSERR, sticky: a bus access was refused (R36). -/
  busErr : Bool
  /-- STATUS.STICKY_ERR, sticky: a command completed with an error (R37). -/
  stickyErr : Bool
  /-- STATUS.ERR: the code of the last completed command (R38). -/
  err : StatusCode
  /-- RESULT.VALID (R39). -/
  resultValid : Bool
  /-- RESULT.COLOR (R39). -/
  resultColor : Color
  /-- ARG0 to ARG7, NARG of them (R40; spec/00_scope.md R8). -/
  args : Vector Word Config.narg
  /-- FB_DIM.FB_W (R41). -/
  fbW : Half
  /-- FB_DIM.FB_H (R41). -/
  fbH : Half
  /-- ROT (R42). -/
  rot : Rotation
  /-- The backing store (R44). -/
  store : Memory
  /-- IMG_CFG.MODE (R45). -/
  imgMode : ImgPath
  /-- IMG_CFG.FLIP (R45). -/
  imgFlip : Bool
  /-- IMG_ORIGIN.X0 (R46). -/
  imgX0 : Half
  /-- IMG_ORIGIN.Y0 (R46). -/
  imgY0 : Half
  /-- IMG_SRC_DIM.SRC_W (R47). -/
  imgSrcW : Half
  /-- IMG_SRC_DIM.SRC_H (R47). -/
  imgSrcH : Half
  /-- IMG_DIM.IMG_W (R48). -/
  imgW : Half
  /-- IMG_DIM.IMG_H (R48). -/
  imgH : Half
  /-- IMG_POS.COL (R49). -/
  imgCol : Half
  /-- IMG_POS.ROW (R49). -/
  imgRow : Half
  /-- IMG_ROW_BYTES (R50). -/
  imgRowBytes : Word
  /-- IMG_PIX_OFF (R50). -/
  imgPixOff : Word
  /-- WAIT_CNT (R61). -/
  waitCnt : Word
  /-- DC_STATE (R56). -/
  dcState : DcState
  /-- ORIENT (R57). -/
  orient : Orientation
  /-- BASE (R58). -/
  base : Bool
  /-- WAITED (R59). -/
  waited : Bool
  /-- LAST_REFRESH (R60): `none` is NONE. -/
  lastRefresh : Option RefreshKind
  /-- PRAM (R52): cell (r, c) is bit `r * PANEL_W + c` (log entry 6, DESIGN CHOICE). -/
  pram : Memory
  /-- DISPLAYED (R53), laid out as PRAM. -/
  displayed : Memory
  /-- PEND (R54): `none` is NONE. -/
  pend : Option Pending
  /-- PANEL_BUSY (R55). -/
  panelBusy : Bool
  /-- The model's own: how many `choose` draws have been taken (log entry 3, DESIGN CHOICE). -/
  draws : Nat
  /-- The model's own: the value the host's last read returned (log entry 9, DESIGN CHOICE). -/
  busData : Word
  /-- The model's own, an input: what the host will do, oldest first (log entry 2, DESIGN CHOICE). -/
  program : List HostOp
  /-- The model's own, an input: who moves at the coming steps; the host where the list is empty (log entry 1, DESIGN
  CHOICE). -/
  turns : List Turn
  /-- The model's own: the block and its panel have power (log entry 8, DESIGN CHOICE). -/
  powered : Bool
  deriving DecidableEq, Repr

/-- The state a power-on reset gives (spec/70_reset_and_hazards.md R300, R301), when the coming `choose` draw is number
`n`: PANEL_BUSY is `choose b in {0, 1}` (spec/10_state.md R55), and every other value is the table's: FB_DIM is the panel's dimensions (spec/10_state.md R41). -/
def State.resetAt (n : Nat) : State where
  cmdBusy := false
  imgActive := false
  ovr := false
  busErr := false
  stickyErr := false
  err := .ok
  resultValid := false
  resultColor := .black
  args := Vector.replicate Config.narg 0
  fbW := BitVec.ofNat 16 Config.panelW
  fbH := BitVec.ofNat 16 Config.panelH
  rot := .rot0
  store := .allUnknown
  imgMode := .bitmap
  imgFlip := false
  imgX0 := 0
  imgY0 := 0
  imgSrcW := 0
  imgSrcH := 0
  imgW := 0
  imgH := 0
  imgCol := 0
  imgRow := 0
  imgRowBytes := 0
  imgPixOff := 0
  waitCnt := 0
  dcState := .uninit
  orient := .landscape
  base := false
  waited := false
  lastRefresh := none
  pram := .allUnknown
  displayed := .allUnknown
  pend := none
  panelBusy := Config.choose n
  draws := n + 1
  busData := 0
  program := []
  turns := []
  powered := true

/-- The machine right after reset (spec/70_reset_and_hazards.md R301), with no host operation placed. -/
def State.reset : State := State.resetAt 0

end Sys2Proof.Machine
end

