-- ==== Sys2Proof/Machine/Ops.lean ====
section
/-! DEFINITION. The named operations over memory and registers: pixel stores (spec/20_memory.md R78, R79), the
framebuffer's geometry, Plot and Peek (spec/40_framebuffer.md R130 to R134), the completion of a command and the checks
common to all commands (spec/60_exceptions.md R271, R274, R275), and the refused access (R277). The block has no traps:
`State.complete` is the one operation by which an error is reported, and there is no return from one (R279, R280). -/

namespace Sys2Proof.Machine

/-! ### Byte lists -/

/-- The byte at address `a` of a list; an unlisted address reads 0. -/
def cellGet : List Host.Cell → Nat → Byte
  | [], _ => 0
  | (k, v) :: m, a => if k = a then v else cellGet m a

/-- Put a byte at its place in a rising list. -/
def cellInsert : List Host.Cell → Nat → Byte → List Host.Cell
  | [], a, v => [(a, v)]
  | (k, w) :: m, a, v =>
    if a < k then (a, v) :: (k, w) :: m else if a = k then (a, v) :: m else (k, w) :: cellInsert m a v

/-- Store a byte; storing 0, which an unlisted address reads as, removes the entry. -/
def cellPut (m : List Host.Cell) (a : Nat) (v : Byte) : List Host.Cell :=
  if v = 0 then m.filter (fun c => c.1 != a) else cellInsert m a v

/-- The bytes `f k` to `f (k + n - 1)` at their addresses, zeros left out. -/
def cellsFrom (f : Nat → Byte) : Nat → Nat → List Host.Cell
  | 0, _ => []
  | n + 1, k => if f k = 0 then cellsFrom f n (k + 1) else (k, f k) :: cellsFrom f n (k + 1)

/-- Store `v` at every address below `n`. -/
def cellFill (m : List Host.Cell) (n : Nat) (v : Byte) : List Host.Cell :=
  (if v = 0 then [] else cellsFrom (fun _ => v) n 0) ++ m.filter (fun c => decide (n ≤ c.1))

/-- The canonical form of a byte list: addresses strictly rising and below BACKING_BYTES, no byte equal to what an
unlisted address reads as. -/
def cellsWf (m : List Host.Cell) : Bool :=
  decide (m.Pairwise (fun a b => a.1 < b.1)) && m.all (fun c => c.2 != 0 && decide (c.1 < Config.backingBytes))

/-! ### Bits of a byte -/

/-- The byte `v` with its bit `b` set to `x`. -/
def byteSetBit (v : Byte) (b : Nat) (x : Bool) : Byte :=
  if x then v ||| (1#8 <<< b) else v &&& ~~~(1#8 <<< b)

/-- The byte whose bits are `g 0` (bit 7) to `g 7` (bit 0): MSB first (spec/20_memory.md R78). -/
def packByte (g : Nat → Bool) : Byte :=
  BitVec.ofBoolListBE [g 0, g 1, g 2, g 3, g 4, g 5, g 6, g 7]

/-- Which byte holds bit `i` of a store (spec/10_state.md R44). -/
def byteOf (i : Nat) : Nat := i / 8

/-- Which bit of its byte is bit `i` of a store: MSB first (spec/20_memory.md R78). -/
def bitOf (i : Nat) : Nat := 7 - i % 8

/-! ### Pixel stores -/

/-- The canonical form of a store: both lists canonical, and no colour where the bit is UNKNOWN, so that equal contents
are equal data. -/
def Memory.wf (m : Memory) : Bool :=
  cellsWf m.data && cellsWf m.known && m.data.all (fun c => c.2 &&& ~~~ cellGet m.known c.1 == 0)

/-- BitRead(i) (spec/00_scope.md R13): the colour of bit `i`, `none` where it is UNKNOWN. -/
def Memory.bitRead (m : Memory) (i : Nat) : Option Color :=
  if (cellGet m.known (byteOf i)).getLsbD (bitOf i) then
    some (Color.ofBit ((cellGet m.data (byteOf i)).getLsbD (bitOf i)))
  else none

/-- BitWrite(i, c) (spec/00_scope.md R13): bit `i` becomes the known colour `c`. -/
def Memory.bitWrite (m : Memory) (i : Nat) (c : Color) : Memory where
  data := cellPut m.data (byteOf i) (byteSetBit (cellGet m.data (byteOf i)) (bitOf i) c.toBit)
  known := cellPut m.known (byteOf i) (byteSetBit (cellGet m.known (byteOf i)) (bitOf i) true)

/-- The eight bits of byte `k` become the known colours `v` (spec/20_memory.md R79). -/
def Memory.byteWrite (m : Memory) (k : Nat) (v : Byte) : Memory where
  data := cellPut m.data k v
  known := cellPut m.known k 0xFF

/-- The byte that holds eight pixels of one colour (spec/40_framebuffer.md R137). -/
def colorByte : Color → Byte
  | .black => 0x00
  | .white => 0xFF

/-- Every bit of the bytes below `n` becomes the colour `c` (spec/40_framebuffer.md R137). -/
def Memory.fillBytes (m : Memory) (n : Nat) (c : Color) : Memory where
  data := cellFill m.data n (colorByte c)
  known := cellFill m.known n 0xFF

/-- The bytes of one plane, from its bits. -/
def planeOf (g : Nat → Bool) : List Host.Cell :=
  cellsFrom (fun k => packByte (fun j => g (8 * k + j))) Config.backingBytes 0

/-- The store whose bit `i` is `f i`, for every `i` below CAP_BITS. -/
def Memory.build (f : Nat → Option Color) : Memory where
  data := planeOf (fun i => f i == some .white)
  known := planeOf (fun i => (f i).isSome)

/-- Every bit WHITE (spec/43_display_controller.md R229, R234). -/
def Memory.allWhite : Memory := Memory.allUnknown.fillBytes Config.backingBytes .white

/-- What a read of a bit returns: its colour, or for an UNKNOWN bit the `choose` draw number `n`
(spec/00_scope.md R15; log entry 3, DESIGN CHOICE). -/
def resolve (c : Option Color) (n : Nat) : Color :=
  match c with
  | some c => c
  | none => Color.ofBit (Config.choose n)

/-- The value of a read of byte `k`, taking draws `n` to `n + 7` for its bits 7 to 0 (spec/20_memory.md R78). -/
def Memory.byteRead (m : Memory) (k n : Nat) : Byte :=
  packByte (fun j => (resolve (m.bitRead (8 * k + j)) (n + j)).toBit)

/-! ### Geometry, Plot and Peek -/

/-- The framebuffer's physical dimensions and its rotation (spec/10_state.md R41, R42). -/
structure Geometry where
  w : Nat
  h : Nat
  rot : Rotation
  deriving DecidableEq, Repr

/-- The geometry a state gives. -/
def State.geom (s : State) : Geometry := ⟨s.fbW.toNat, s.fbH.toNat, s.rot⟩

/-- LW, the logical width (spec/40_framebuffer.md R132). -/
def Geometry.logicalW (g : Geometry) : Nat :=
  match g.rot with
  | .rot0 => g.w
  | .rot90 => g.h
  | .rot180 => g.w
  | .rot270 => g.h

/-- LH, the logical height (spec/40_framebuffer.md R132). -/
def Geometry.logicalH (g : Geometry) : Nat :=
  match g.rot with
  | .rot0 => g.h
  | .rot90 => g.w
  | .rot180 => g.h
  | .rot270 => g.w

/-- InBounds(x, y) (spec/40_framebuffer.md R132). -/
def Geometry.inBounds (g : Geometry) (x y : Int) : Bool :=
  decide (0 ≤ x) && decide (x < g.logicalW) && decide (0 ≤ y) && decide (y < g.logicalH)

/-- Phys(x, y), the physical pixel of a logical point (spec/40_framebuffer.md R132). -/
def Geometry.phys (g : Geometry) (x y : Int) : Int × Int :=
  match g.rot with
  | .rot0 => (x, y)
  | .rot90 => (g.w - 1 - y, x)
  | .rot180 => (g.w - 1 - x, g.h - 1 - y)
  | .rot270 => (y, g.h - 1 - x)

/-- Index(px, py), the backing-store bit of a physical pixel (spec/40_framebuffer.md R130). -/
def Geometry.index (g : Geometry) (p : Int × Int) : Nat := (p.2 * g.w + p.1).toNat

/-- The backing-store bit of a logical point, `none` where it is out of bounds (spec/40_framebuffer.md R133, R134). -/
def Geometry.bitAt (g : Geometry) (x y : Int) : Option Nat :=
  if g.inBounds x y then some (g.index (g.phys x y)) else none

/-- Plot(x, y, c) (spec/40_framebuffer.md R133): a point out of bounds is dropped without error (clip-silently). -/
def Memory.plot (m : Memory) (g : Geometry) (c : Color) (x y : Int) : Memory :=
  match g.bitAt x y with
  | some i => m.bitWrite i c
  | none => m

/-- Plot a list of points in one colour (spec/41_rasterizers.md R160). -/
def Memory.plotAll (m : Memory) (g : Geometry) (c : Color) (pts : List (Int × Int)) : Memory :=
  pts.foldl (fun m p => m.plot g c p.1 p.2) m

/-- Peek(x, y) (spec/40_framebuffer.md R134): `none` out of bounds, else the colour read, an UNKNOWN bit giving draw
number `n`. -/
def Memory.peek (m : Memory) (g : Geometry) (x y : Int) (n : Nat) : Option Color :=
  (g.bitAt x y).map (fun i => resolve (m.bitRead i) n)

/-- NB, the bytes the framebuffer occupies (spec/40_framebuffer.md R131). -/
def Geometry.bytes (g : Geometry) : Nat := (g.w * g.h + 7) / 8

/-! ### Completion and the common checks -/

/-- complete(code) (spec/60_exceptions.md R271): ERR takes the code, and any code but OK sets STICKY_ERR. An error raised
by a check is this same operation on the state the check saw (R272). -/
def State.complete (code : StatusCode) (s : State) : State :=
  { s with err := code, stickyErr := s.stickyErr || decide (code ≠ .ok) }

/-- A CMD write that arrives while CMD_BUSY = 1 is dropped: OVR and nothing else (spec/60_exceptions.md R275). -/
def State.dropCommand (s : State) : State := { s with ovr := true }

/-- The checks common to every legal command (spec/60_exceptions.md R274, 1 and 3), then the command's own `body`
(log entry 12, DEDUCED): `exempt` says that the command may be issued while an image stream is open. -/
def State.issue (exempt : Bool) (body : State → State) (s : State) : State :=
  if s.cmdBusy then s.dropCommand
  else if s.imgActive && !exempt then s.complete .streamActive
  else body s

/-- A CMD write of an illegal word (spec/60_exceptions.md R274, 1 and 2; spec/30_encoding.md R112). -/
def State.issueIllegal (s : State) : State :=
  if s.cmdBusy then s.dropCommand else s.complete .illegal

/-! ### Registers and refused accesses -/

/-- Read argument register ARGi (spec/00_scope.md R12). -/
def State.arg (s : State) (i : Fin Config.narg) : Word := s.args[i]

/-- A host write of argument register ARGi; it takes effect at once (spec/10_state.md R40). -/
def State.setArg (i : Fin Config.narg) (v : Word) (s : State) : State := { s with args := s.args.set i v }

/-- A refused write: BUSERR and nothing else (spec/20_memory.md R74, R75; spec/60_exceptions.md R277). -/
def State.refuseWrite (s : State) : State := { s with busErr := true }

/-- A refused read: BUSERR and nothing else, and the host is given 0 (spec/20_memory.md R74). -/
def State.refuseRead (s : State) : State := { s with busErr := true, busData := 0 }

end Sys2Proof.Machine
end

