-- ==== Sys2Proof/Machine/Operands.lean ====
section
/-! DEFINITION. Operand assembly from the argument registers (spec/30_encoding.md R109, R110), and the coordinate
operands the commands share (spec/41_rasterizers.md R160; spec/43_display_controller.md R230). -/

namespace Sys2Proof.Machine

/-- `s16`: `sext_16(a[15:0])`; bits 31:16 are ignored (R110). -/
def s16 (a : Word) : Int := (a.extractLsb' 0 16).toInt

/-- `u16`: `zext_16(a[15:0])`; bits 31:16 are ignored (R110). -/
def u16 (a : Word) : Nat := (a.extractLsb' 0 16).toNat

/-- `s32`: `sext_32(a)` (R110). -/
def s32 (a : Word) : Int := a.toInt

/-- `u32`: `zext_32(a)` (R110). -/
def u32 (a : Word) : Nat := a.toNat

/-- The high half `zext_16(a[31:16])`, ARG5's bit depth (R110). -/
def u16High (a : Word) : Nat := (a.extractLsb' 16 16).toNat

/-- The signature operand's first file byte, `a[7:0]` (R110). -/
def sigFirst (a : Word) : Byte := a.extractLsb' 0 8

/-- The signature operand's second file byte, `a[15:8]` (R110). -/
def sigSecond (a : Word) : Byte := a.extractLsb' 8 8

/-- A signed 16-bit coordinate taken from ARGi. -/
def State.coord (s : State) (i : Fin Config.narg) : Int := s16 (s.arg i)

/-- An unsigned 16-bit dimension or position taken from ARGi. -/
def State.dim (s : State) (i : Fin Config.narg) : Nat := u16 (s.arg i)

/-- Two opposite corners, or two endpoints: ARG0 to ARG3 as signed coordinates (spec/41_rasterizers.md R160). -/
structure Segment where
  x0 : Int
  y0 : Int
  x1 : Int
  y1 : Int
  deriving DecidableEq, Repr

/-- The segment a rasterizer command takes (spec/41_rasterizers.md R160). -/
def State.segment (s : State) : Segment := ⟨s.coord 0, s.coord 1, s.coord 2, s.coord 3⟩

/-- A panel region: position and size, unsigned 16-bit (spec/43_display_controller.md R224). -/
structure Region where
  x : Nat
  y : Nat
  w : Nat
  h : Nat
  deriving DecidableEq, Repr

/-- The region in ARG0 to ARG3 (spec/43_display_controller.md R230). -/
def State.argRegion (s : State) : Region := ⟨s.dim 0, s.dim 1, s.dim 2, s.dim 3⟩

/-- The region of DC_DISPLAY_PART: ARG0 to ARG3, or the whole framebuffer at (0, 0) (spec/43_display_controller.md R232). -/
def State.partRegion (p : PartRegion) (s : State) : Region :=
  match p with
  | .whole => ⟨0, 0, s.fbW.toNat, s.fbH.toNat⟩
  | .region => s.argRegion

/-- The bitmap header fields the host passes in ARG0 to ARG7 (spec/42_thresholder.md R187). -/
structure BmpHeader where
  x0 : Nat
  y0 : Nat
  w : Int
  h : Int
  sig0 : Byte
  sig1 : Byte
  planes : Nat
  bpp : Nat
  comp : Word
  off : Word
  deriving DecidableEq, Repr

/-- The header in the argument registers (spec/42_thresholder.md R187). -/
def State.bmpHeader (s : State) : BmpHeader where
  x0 := s.dim 0
  y0 := s.dim 1
  w := s32 (s.arg 2)
  h := s32 (s.arg 3)
  sig0 := sigFirst (s.arg 4)
  sig1 := sigSecond (s.arg 4)
  planes := u16 (s.arg 5)
  bpp := u16High (s.arg 5)
  comp := s.arg 6
  off := s.arg 7

/-- The frame of the generic path in ARG0 to ARG3 (spec/42_thresholder.md R188): origin, then width and height as
unsigned 32-bit numbers. -/
structure GenHeader where
  x0 : Nat
  y0 : Nat
  w : Nat
  h : Nat
  deriving DecidableEq, Repr

/-- The generic frame in the argument registers (spec/42_thresholder.md R188). -/
def State.genHeader (s : State) : GenHeader := ⟨s.dim 0, s.dim 1, u32 (s.arg 2), u32 (s.arg 3)⟩

end Sys2Proof.Machine
end

