-- ==== Sys2Proof/Machine/Display.lean ====
section
/-! DEFINITION. The display-controller sequencer (spec/43_display_controller.md): the checks of a frame operation, the
transfer and the refresh trigger, the eight commands, and the steps of the engine and of the panel. -/

namespace Sys2Proof.Machine

/-! ### Checks of a frame operation -/

/-- The checks every frame operation makes (R223, 1 and 2): STATE unless DC_STATE is INIT or ACTIVE, then NO_WAIT unless
WAITED is 1. -/
def State.frameError (s : State) : Option StatusCode :=
  match s.dcState with
  | .uninit => some .state
  | .sleep => some .state
  | .init => if s.waited then none else some .noWait
  | .active => if s.waited then none else some .noWait

/-- A frame operation: its checks, then its own body (R222, R223). -/
def State.frameOp (body : State → State) (s : State) : State :=
  match s.frameError with
  | some code => s.complete code
  | none => body s

/-- Aligned(x, w) (R224): both multiples of 8. -/
def Region.aligned (r : Region) : Bool := decide (r.x % 8 = 0) && decide (r.w % 8 = 0)

/-! ### Transfer and refresh -/

/-- The bit of PRAM that is cell (r, c) (spec/10_state.md R52; log entry 6, DESIGN CHOICE). -/
def panelCell (r c : Nat) : Nat := r * Config.panelW + c

/-- Whether Load copies a pixel into the cell (row, col) (R224): it is a cell of the panel, in the region, and its
source pixel is in the framebuffer. -/
def Region.covers (r : Region) (g : Geometry) (row col : Nat) : Bool :=
  decide (r.y ≤ row) && decide (row < r.y + r.h) && decide (row - r.y < g.h)
    && decide (r.x ≤ col) && decide (col < r.x + r.w) && decide (col - r.x < g.w)
    && decide (row < Config.panelH) && decide (col < Config.panelW)

/-- What cell `i` of PRAM holds after Load (R224): the framebuffer's physical pixel, UNKNOWN staying UNKNOWN, where the
region covers the cell; else what it held. -/
def loadedCell (r : Region) (g : Geometry) (store pram : Memory) (i : Nat) : Option Color :=
  let row := i / Config.panelW
  let col := i % Config.panelW
  if r.covers g row col then store.bitRead ((row - r.y) * g.w + (col - r.x)) else pram.bitRead i

/-- Load(x, y, w, h) (R224): the copy of a framebuffer region into panel memory, taken now (spec/20_memory.md R90). -/
def State.load (r : Region) (s : State) : State :=
  { s with pram := Memory.build (loadedCell r s.geom s.store s.pram) }

/-- Trigger(k) (R225): the start of a refresh, which will show PRAM as it stands. -/
def State.trigger (k : RefreshKind) (s : State) : State :=
  { s with pend := some ⟨s.pram, k⟩, panelBusy := true, waited := false, dcState := .active, lastRefresh := some k }

/-! ### The commands -/

/-- DC_INIT's body (R226): a pending refresh is cut off, the panel re-initialises, and the base image is lost. -/
def dcInitBody (o : Orientation) (s : State) : State :=
  State.complete .ok
    { s with
      displayed := if s.pend.isSome then .allUnknown else s.displayed
      pend := none
      pram := .allUnknown
      panelBusy := true
      dcState := .init
      orient := o
      base := false
      waited := false }

/-- DC_INIT (R226): allowed in every DC_STATE. -/
def execDcInit (o : Orientation) (s : State) : Host.Outcome State Fault Refusal :=
  .next (s.issue false (dcInitBody o))

/-- DC_WAIT_IDLE's issue (R227): done at once when the panel is idle, else left to the engine's poll ticks. -/
def dcWaitIdleBody (s : State) : State :=
  if s.panelBusy then { s with waitCnt := 0, cmdBusy := true }
  else State.complete .ok { s with waitCnt := 0, waited := true }

/-- DC_WAIT_IDLE (R227): no state precondition. -/
def execDcWaitIdle (s : State) : Host.Outcome State Fault Refusal :=
  .next (s.issue false dcWaitIdleBody)

/-- DC_WRITE_BASE's body (R229): an all-WHITE frame, a FULL refresh, and BASE is set. -/
def dcWriteBaseBody (s : State) : State :=
  State.complete .ok { State.trigger .full { s with pram := .allWhite } with base := true }

/-- DC_WRITE_BASE (R229). -/
def execDcWriteBase (s : State) : Host.Outcome State Fault Refusal :=
  .next (s.issue false (State.frameOp dcWriteBaseBody))

/-- DC_SET_FRAME_MEMORY's body (R230): a transfer without a refresh. -/
def dcSetFrameMemoryBody (s : State) : State :=
  if s.argRegion.aligned then (s.load s.argRegion).complete .ok else s.complete .align

/-- DC_SET_FRAME_MEMORY (R230). -/
def execDcSetFrameMemory (s : State) : Host.Outcome State Fault Refusal :=
  .next (s.issue false (State.frameOp dcSetFrameMemoryBody))

/-- DC_DISPLAY_FRAME's body (R231): a FULL refresh of whatever PRAM holds. -/
def dcDisplayFrameBody (s : State) : State :=
  (s.trigger .full).complete .ok

/-- DC_DISPLAY_FRAME (R231). -/
def execDcDisplayFrame (s : State) : Host.Outcome State Fault Refusal :=
  .next (s.issue false (State.frameOp dcDisplayFrameBody))

/-- DC_DISPLAY_PART's body (R232): NO_BASE, then ALIGN, then a transfer and a PARTIAL refresh. -/
def dcDisplayPartBody (p : PartRegion) (s : State) : State :=
  if !s.base then s.complete .noBase
  else if (s.partRegion p).aligned then ((s.load (s.partRegion p)).trigger .part).complete .ok
  else s.complete .align

/-- DC_DISPLAY_PART (R232). -/
def execDcDisplayPart (p : PartRegion) (s : State) : Host.Outcome State Fault Refusal :=
  .next (s.issue false (State.frameOp (dcDisplayPartBody p)))

/-- DC_SLEEP's body (R233): panel memory is lost, DISPLAYED and BASE are kept. -/
def dcSleepBody (s : State) : State :=
  State.complete .ok { s with dcState := .sleep, waited := false, pram := .allUnknown }

/-- DC_SLEEP (R233). -/
def execDcSleep (s : State) : Host.Outcome State Fault Refusal :=
  .next (s.issue false (State.frameOp dcSleepBody))

/-- DC_CLEAR's body (R234): an all-WHITE frame, a FULL refresh, and BASE is cleared. -/
def dcClearBody (s : State) : State :=
  State.complete .ok { State.trigger .full { s with pram := .allWhite } with base := false }

/-- DC_CLEAR (R234). -/
def execDcClear (s : State) : Host.Outcome State Fault Refusal :=
  .next (s.issue false (State.frameOp dcClearBody))

/-! ### The engine and the panel -/

/-- The poll tick of DC_WAIT_IDLE with WAIT_TIMEOUT_TICKS = `limit` (R228), an engine step enabled exactly when
CMD_BUSY = 1; where it is not enabled nothing happens (log entry 7, DESIGN CHOICE). -/
def State.pollTick (limit : Nat) (s : State) : State :=
  if !s.cmdBusy then s
  else if !s.panelBusy then State.complete .ok { s with cmdBusy := false, waited := true }
  else if s.waitCnt.toNat + 1 ≥ limit then State.complete .timeout { s with waitCnt := s.waitCnt + 1, cmdBusy := false }
  else { s with waitCnt := s.waitCnt + 1 }

/-- The panel's busy fall (R240), enabled exactly when PANEL_BUSY = 1: the pending image, if any, is now shown; where it
is not enabled nothing happens (log entry 7, DESIGN CHOICE). -/
def State.busyFall (s : State) : State :=
  if !s.panelBusy then s
  else
    match s.pend with
    | some p => { s with panelBusy := false, displayed := p.image, pend := none }
    | none => { s with panelBusy := false }

end Sys2Proof.Machine
end

