-- ==== Sys2Proof/Machine/Framebuffer.lean ====
section
/-! DEFINITION. The framebuffer commands (spec/40_framebuffer.md R136 to R140). Each meaning is the common checks of
spec/60_exceptions.md R274 around the command's own body. -/

namespace Sys2Proof.Machine

/-- FB_RESET's body (R136): new dimensions, unless their area exceeds the capacity; the backing store is not touched. -/
def fbResetBody (s : State) : State :=
  if s.dim 0 * s.dim 1 > Config.capBits then s.complete .capacity
  else State.complete .ok { s with fbW := BitVec.ofNat 16 (s.dim 0), fbH := BitVec.ofNat 16 (s.dim 1) }

/-- FB_RESET (R136). -/
def execFbReset (s : State) : Host.Outcome State Fault Refusal :=
  .next (s.issue false fbResetBody)

/-- FB_CLEAR's body (R137): every bit of the first NB bytes takes the colour, pad bits included. -/
def fbClearBody (c : Color) (s : State) : State :=
  State.complete .ok { s with store := s.store.fillBytes s.geom.bytes c }

/-- FB_CLEAR (R137). -/
def execFbClear (c : Color) (s : State) : Host.Outcome State Fault Refusal :=
  .next (s.issue false (fbClearBody c))

/-- FB_SET_PIXEL's body (R138): Plot at the point in ARG0, ARG1; out of bounds is not an error. -/
def fbSetPixelBody (c : Color) (s : State) : State :=
  State.complete .ok { s with store := s.store.plot s.geom c (s.coord 0) (s.coord 1) }

/-- FB_SET_PIXEL (R138). -/
def execFbSetPixel (c : Color) (s : State) : Host.Outcome State Fault Refusal :=
  .next (s.issue false (fbSetPixelBody c))

/-- FB_GET_PIXEL's body (R139): RESULT takes VALID and COLOR of Peek at the point in ARG0, ARG1, both 0 out of bounds.
The `choose` draw an UNKNOWN bit needs is draw number `draws`, which is then taken (log entry 3, DESIGN CHOICE). -/
def fbGetPixelBody (s : State) : State :=
  let p := s.store.peek s.geom (s.coord 0) (s.coord 1) s.draws
  State.complete .ok { s with resultValid := p.isSome, resultColor := p.getD .black, draws := s.draws + 1 }

/-- FB_GET_PIXEL (R139). -/
def execFbGetPixel (s : State) : Host.Outcome State Fault Refusal :=
  .next (s.issue false fbGetPixelBody)

/-- FB_ROTATE's body (R140): no bit of the backing store moves. -/
def fbRotateBody (r : Rotation) (s : State) : State :=
  State.complete .ok { s with rot := r }

/-- FB_ROTATE (R140). -/
def execFbRotate (r : Rotation) (s : State) : Host.Outcome State Fault Refusal :=
  .next (s.issue false (fbRotateBody r))

end Sys2Proof.Machine
end

