-- ==== Sys2Proof/Machine/Raster.lean ====
section
/-! DEFINITION. The line and rectangle rasterizers (spec/41_rasterizers.md R160 to R164): the points each command plots,
and the three meanings. -/

namespace Sys2Proof.Machine

/-! ### The line -/

/-- `dx = |x1 - x0|` (R161). -/
def Segment.dx (g : Segment) : Int := |g.x1 - g.x0|

/-- `dy = -|y1 - y0|` (R161). -/
def Segment.dy (g : Segment) : Int := -|g.y1 - g.y0|

/-- `sx = (x0 < x1) ? 1 : -1` (R161). -/
def Segment.sx (g : Segment) : Int := if g.x0 < g.x1 then 1 else -1

/-- `sy = (y0 < y1) ? 1 : -1` (R161). -/
def Segment.sy (g : Segment) : Int := if g.y0 < g.y1 then 1 else -1

/-- The loop variables of R161. -/
structure LinePos where
  x : Int
  y : Int
  err : Int
  deriving DecidableEq, Repr

/-- The values of the loop variables at the first point (R161). -/
def Segment.lineStart (g : Segment) : LinePos := ⟨g.x0, g.y0, g.dx + g.dy⟩

/-- One turn of the loop of R161 after the Plot: `e2` is computed once, before either update. -/
def Segment.lineNext (g : Segment) (p : LinePos) : LinePos :=
  let e2 := 2 * p.err
  let q : LinePos := if e2 ≥ g.dy then { p with err := p.err + g.dy, x := p.x + g.sx } else p
  if e2 ≤ g.dx then { q with err := q.err + g.dx, y := q.y + g.sy } else q

/-- The points the loop of R161 plots from `p` on, in order, in at most `n` turns. -/
def Segment.lineFrom (g : Segment) : Nat → LinePos → List (Int × Int)
  | 0, _ => []
  | n + 1, p => (p.x, p.y) :: if p.x = g.x1 ∧ p.y = g.y1 then [] else g.lineFrom n (g.lineNext p)

/-- How many points a line has (R162): `max(|x1-x0|, |y1-y0|) + 1`, which bounds the loop (log entry 11, DEDUCED). -/
def Segment.lineLength (g : Segment) : Nat := max (g.x1 - g.x0).natAbs (g.y1 - g.y0).natAbs + 1

/-- The points FB_DRAW_LINE plots, in order (R161). -/
def Segment.linePoints (g : Segment) : List (Int × Int) := g.lineFrom g.lineLength g.lineStart

/-! ### Rectangles -/

/-- The integers from `lo` to `hi` inclusive. -/
def intSpan (lo hi : Int) : List Int := (List.range (hi - lo + 1).toNat).map (fun (k : Nat) => lo + (k : Int))

/-- `xa = min(x0, x1)` (R163, R164). -/
def Segment.xa (g : Segment) : Int := min g.x0 g.x1

/-- `xb = max(x0, x1)` (R163, R164). -/
def Segment.xb (g : Segment) : Int := max g.x0 g.x1

/-- `ya = min(y0, y1)` (R163, R164). -/
def Segment.ya (g : Segment) : Int := min g.y0 g.y1

/-- `yb = max(y0, y1)` (R163, R164). -/
def Segment.yb (g : Segment) : Int := max g.y0 g.y1

/-- The points of the filled rectangle (R164) that are in bounds: Plot drops every other one (log entry 11, DEDUCED). -/
def Segment.fillPoints (r : Segment) (g : Geometry) : List (Int × Int) :=
  (intSpan (max r.ya 0) (min r.yb (g.logicalH - 1))).flatMap
    (fun y => (intSpan (max r.xa 0) (min r.xb (g.logicalW - 1))).map (fun x => (x, y)))

/-- Whether a point of the rectangle is on its outline (R163). -/
def Segment.onOutline (r : Segment) (x y : Int) : Bool :=
  decide (x = r.xa) || decide (x = r.xb) || decide (y = r.ya) || decide (y = r.yb)

/-- The points of the rectangle's outline (R163) that are in bounds. -/
def Segment.outlinePoints (r : Segment) (g : Geometry) : List (Int × Int) :=
  (r.fillPoints g).filter (fun p => r.onOutline p.1 p.2)

/-! ### The commands -/

/-- FB_DRAW_LINE's body (R161). -/
def fbDrawLineBody (c : Color) (s : State) : State :=
  State.complete .ok { s with store := s.store.plotAll s.geom c s.segment.linePoints }

/-- FB_DRAW_LINE (R161). -/
def execFbDrawLine (c : Color) (s : State) : Host.Outcome State Fault Refusal :=
  .next (s.issue false (fbDrawLineBody c))

/-- FB_DRAW_RECT's body (R163). -/
def fbDrawRectBody (c : Color) (s : State) : State :=
  State.complete .ok { s with store := s.store.plotAll s.geom c (s.segment.outlinePoints s.geom) }

/-- FB_DRAW_RECT (R163). -/
def execFbDrawRect (c : Color) (s : State) : Host.Outcome State Fault Refusal :=
  .next (s.issue false (fbDrawRectBody c))

/-- FB_FILL_RECT's body (R164). -/
def fbFillRectBody (c : Color) (s : State) : State :=
  State.complete .ok { s with store := s.store.plotAll s.geom c (s.segment.fillPoints s.geom) }

/-- FB_FILL_RECT (R164). -/
def execFbFillRect (c : Color) (s : State) : Host.Outcome State Fault Refusal :=
  .next (s.issue false (fbFillRectBody c))

end Sys2Proof.Machine
end

