-- ==== Sys2Proof/Machine/Thresholder.lean ====
section
/-! DEFINITION. The image thresholder (spec/42_thresholder.md): the two threshold rules, the row stride, the clip, and
the five commands of the stream. -/

namespace Sys2Proof.Machine

/-! ### Threshold, stride and clip -/

/-- ThrBMP with threshold `t` (R183): WHITE when the channel sum exceeds it. -/
def thrBmpAt (t r g b : Nat) : Color := if r + g + b > t then .white else .black

/-- ThrBMP (R183), at the parameter BMP_T. -/
def thrBmp (r g b : Nat) : Color := thrBmpAt Config.bmpT r g b

/-- ThrGEN (R184): 0 is BLACK, anything else WHITE. -/
def thrGen (v : Nat) : Color := if v = 0 then .black else .white

/-- RowBytes(w) (R185): three bytes a pixel, padded to a multiple of 4. -/
def rowBytes (w : Nat) : Nat := (w * 3 + 3) / 4 * 4

/-- One dimension of Clip (R182): how much of `src` fits from `origin` below `limit`. -/
def clipDim (origin src limit : Nat) : Nat := if origin ≥ limit then 0 else min src (limit - origin)

/-! ### Opening a stream -/

/-- What IMG_BEGIN_BMP and IMG_BEGIN_GEN hand to the common end of R187 and R188. -/
structure ImgFrame where
  mode : ImgPath
  flip : Bool
  x0 : Nat
  y0 : Nat
  srcW : Nat
  srcH : Nat
  stride : Nat
  off : Word
  deriving DecidableEq, Repr

/-- IMG_W of the clipped window (R182), LW as of now. -/
def ImgFrame.windowW (f : ImgFrame) (g : Geometry) : Nat := clipDim f.x0 f.srcW g.logicalW

/-- IMG_H of the clipped window (R182), LH as of now. -/
def ImgFrame.windowH (f : ImgFrame) (g : Geometry) : Nat := clipDim f.y0 f.srcH g.logicalH

/-- The descriptor registers take the frame, the cursor returns to (0, 0), and the stream opens unless the clipped window
is empty (R187, R188). -/
def State.openStream (f : ImgFrame) (s : State) : State :=
  { s with
    imgMode := f.mode
    imgFlip := f.flip
    imgX0 := BitVec.ofNat 16 f.x0
    imgY0 := BitVec.ofNat 16 f.y0
    imgSrcW := BitVec.ofNat 16 f.srcW
    imgSrcH := BitVec.ofNat 16 f.srcH
    imgW := BitVec.ofNat 16 (f.windowW s.geom)
    imgH := BitVec.ofNat 16 (f.windowH s.geom)
    imgRowBytes := BitVec.ofNat 32 f.stride
    imgPixOff := f.off
    imgCol := 0
    imgRow := 0
    imgActive := decide (f.windowW s.geom > 0) && decide (f.windowH s.geom > 0) }

/-- The header checks of IMG_BEGIN_BMP (R187), in its order; each of them gives FORMAT. -/
def BmpHeader.rejected (h : BmpHeader) : Bool :=
  h.sig0 != 0x42 || h.sig1 != 0x4D || h.planes != 1 || h.bpp != 24 || h.comp != 0 || decide (h.w ≤ 0) || h.h == 0
    || decide (h.w > Config.imgMaxDim) || decide (h.h.natAbs > Config.imgMaxDim)

/-- The frame of a bitmap (R187): a positive height is a bottom-up source. -/
def BmpHeader.frame (h : BmpHeader) : ImgFrame where
  mode := .bitmap
  flip := decide (h.h > 0)
  x0 := h.x0
  y0 := h.y0
  srcW := h.w.toNat
  srcH := h.h.natAbs
  stride := rowBytes h.w.toNat
  off := h.off

/-- The checks of IMG_BEGIN_GEN (R188); each of them gives FORMAT. -/
def GenHeader.rejected (h : GenHeader) : Bool :=
  h.w == 0 || h.h == 0 || decide (h.w > Config.genRowCap) || decide (h.h > Config.imgMaxDim)

/-- The frame of the generic path (R188): always top-down, no stride and no file offset. -/
def GenHeader.frame (h : GenHeader) : ImgFrame where
  mode := .generic
  flip := false
  x0 := h.x0
  y0 := h.y0
  srcW := h.w
  srcH := h.h
  stride := 0
  off := 0

/-! ### Pushing a pixel -/

/-- The logical point the next pushed pixel is written at (R181). -/
def State.pushPoint (s : State) : Int × Int :=
  ((s.imgX0.toNat : Int) + s.imgCol.toNat, (s.imgY0.toNat : Int) + s.imgRow.toNat)

/-- The cursor's advance, which closes the stream after the last pixel of the window (R192; 16-bit fields, log entry 15,
DEDUCED). -/
def State.advanceCursor (s : State) : State :=
  if s.imgCol.toNat + 1 = s.imgW.toNat then
    { s with
      imgCol := 0
      imgRow := s.imgRow + 1
      imgActive := s.imgActive && !decide (s.imgRow.toNat + 1 = s.imgH.toNat) }
  else { s with imgCol := s.imgCol + 1 }

/-- Push(c) (R192): Plot at the window position, then advance. -/
def State.push (c : Color) (s : State) : State :=
  State.advanceCursor { s with store := s.store.plot s.geom c s.pushPoint.1 s.pushPoint.2 }

/-- A pixel command's check and push (R189, R190): STREAM unless a stream of this path is open. -/
def State.pushPixel (path : ImgPath) (c : Color) (s : State) : State :=
  if s.imgActive && decide (s.imgMode = path) then (s.push c).complete .ok else s.complete .stream

/-! ### The commands -/

/-- IMG_BEGIN_BMP's body (R187). -/
def imgBeginBmpBody (s : State) : State :=
  if s.bmpHeader.rejected then s.complete .format else (s.openStream s.bmpHeader.frame).complete .ok

/-- IMG_BEGIN_BMP (R187). -/
def execImgBeginBmp (s : State) : Host.Outcome State Fault Refusal :=
  .next (s.issue false imgBeginBmpBody)

/-- IMG_BEGIN_GEN's body (R188). -/
def imgBeginGenBody (s : State) : State :=
  if s.genHeader.rejected then s.complete .format else (s.openStream s.genHeader.frame).complete .ok

/-- IMG_BEGIN_GEN (R188). -/
def execImgBeginGen (s : State) : Host.Outcome State Fault Refusal :=
  .next (s.issue false imgBeginGenBody)

/-- IMG_PIXEL_RGB (R189) of a block whose BMP_T is `t` (R183, R196): exempt from STREAM_ACTIVE. -/
def imgPixelRgbAt (t r g b : Nat) (s : State) : Host.Outcome State Fault Refusal :=
  .next (s.issue true (State.pushPixel .bitmap (thrBmpAt t r g b)))

/-- IMG_PIXEL_RGB (R189), at the block's BMP_T (spec/00_scope.md R8). -/
def execImgPixelRgb (r g b : Nat) (s : State) : Host.Outcome State Fault Refusal :=
  imgPixelRgbAt Config.bmpT r g b s

/-- IMG_PIXEL_565 (R190): exempt from STREAM_ACTIVE. -/
def execImgPixel565 (v : Nat) (s : State) : Host.Outcome State Fault Refusal :=
  .next (s.issue true (State.pushPixel .generic (thrGen v)))

/-- IMG_ABORT's body (R191): the stream closes; every other register and every pixel keeps its value. -/
def imgAbortBody (s : State) : State :=
  State.complete .ok { s with imgActive := false }

/-- IMG_ABORT (R191): exempt from STREAM_ACTIVE. -/
def execImgAbort (s : State) : Host.Outcome State Fault Refusal :=
  .next (s.issue true imgAbortBody)

end Sys2Proof.Machine
end

