-- ==== Sys2Proof/Machine/Dispatch.lean ====
section
/-! DEFINITION. One arm per command: the meaning of each row of the opcode map (spec/30_encoding.md R111). -/

namespace Sys2Proof.Machine

def exec (i : Instr) (s : State) : Host.Outcome State Fault Refusal :=
  match i with
  | .fbReset => Sys2Proof.Machine.execFbReset s
  | .fbClear c => Sys2Proof.Machine.execFbClear c s
  | .fbSetPixel c => Sys2Proof.Machine.execFbSetPixel c s
  | .fbGetPixel => Sys2Proof.Machine.execFbGetPixel s
  | .fbRotate r => Sys2Proof.Machine.execFbRotate r s
  | .fbDrawLine c => Sys2Proof.Machine.execFbDrawLine c s
  | .fbDrawRect c => Sys2Proof.Machine.execFbDrawRect c s
  | .fbFillRect c => Sys2Proof.Machine.execFbFillRect c s
  | .imgBeginBmp => Sys2Proof.Machine.execImgBeginBmp s
  | .imgBeginGen => Sys2Proof.Machine.execImgBeginGen s
  | .imgPixelRgb r g b => Sys2Proof.Machine.execImgPixelRgb r g b s
  | .imgPixel565 v => Sys2Proof.Machine.execImgPixel565 v s
  | .imgAbort => Sys2Proof.Machine.execImgAbort s
  | .dcInit o => Sys2Proof.Machine.execDcInit o s
  | .dcWaitIdle => Sys2Proof.Machine.execDcWaitIdle s
  | .dcWriteBase => Sys2Proof.Machine.execDcWriteBase s
  | .dcSetFrameMemory => Sys2Proof.Machine.execDcSetFrameMemory s
  | .dcDisplayFrame => Sys2Proof.Machine.execDcDisplayFrame s
  | .dcDisplayPart p => Sys2Proof.Machine.execDcDisplayPart p s
  | .dcSleep => Sys2Proof.Machine.execDcSleep s
  | .dcClear => Sys2Proof.Machine.execDcClear s

end Sys2Proof.Machine
end

