-- ==== Sys2Proof/Machine/Flags.lean ====
section
/-! DEFINITION. The registers the host reads that are assembled from fields: STATUS (spec/10_state.md R32), RESULT (R39),
FB_DIM (R41) and the IMG_* descriptor registers (R45 to R51). Reserved bits read 0 (log entry 18,
DEDUCED). -/

namespace Sys2Proof.Machine

/-- The number of a status code (spec/60_exceptions.md R273). -/
def StatusCode.code : StatusCode → Nat
  | .ok => 0
  | .illegal => 1
  | .capacity => 2
  | .format => 3
  | .stream => 4
  | .streamActive => 5
  | .state => 6
  | .noWait => 7
  | .noBase => 8
  | .align => 9
  | .timeout => 10

/-- The number of a display-controller state (R56). -/
def DcState.code : DcState → Nat
  | .uninit => 0
  | .init => 1
  | .active => 2
  | .sleep => 3

/-- The number of LAST_REFRESH (R60): NONE, FULL, PARTIAL; 3 is never produced. -/
def lastRefreshCode : Option RefreshKind → Nat
  | none => 0
  | some .full => 1
  | some .part => 2

/-- The MODE bit (R45). -/
def ImgPath.toBit : ImgPath → Bool
  | .bitmap => false
  | .generic => true

/-- STATUS, field by field from bit 31 down (R32). -/
def statusWord (s : State) : Word :=
  0#10 ++ BitVec.ofNat 2 s.rot.code ++ BitVec.ofNat 2 (lastRefreshCode s.lastRefresh) ++ BitVec.ofBool s.panelBusy
    ++ BitVec.ofBool s.waited ++ BitVec.ofBool s.base ++ BitVec.ofBool s.orient.toBit ++ BitVec.ofNat 2 s.dcState.code
    ++ BitVec.ofNat 4 s.err.code ++ 0#3 ++ BitVec.ofBool s.stickyErr ++ BitVec.ofBool s.busErr ++ BitVec.ofBool s.ovr
    ++ BitVec.ofBool s.imgActive ++ BitVec.ofBool s.cmdBusy

/-- RESULT: bit 1 VALID, bit 0 COLOR (R39). -/
def resultWord (s : State) : Word :=
  0#30 ++ BitVec.ofBool s.resultValid ++ BitVec.ofBool s.resultColor.toBit

/-- FB_DIM: FB_H above FB_W (R41). -/
def fbDimWord (s : State) : Word := s.fbH ++ s.fbW

/-- IMG_CFG: bit 1 FLIP, bit 0 MODE (R45). -/
def imgCfgWord (s : State) : Word :=
  0#30 ++ BitVec.ofBool s.imgFlip ++ BitVec.ofBool s.imgMode.toBit

/-- IMG_ORIGIN: Y0 above X0 (R46). -/
def imgOriginWord (s : State) : Word := s.imgY0 ++ s.imgX0

/-- IMG_SRC_DIM: SRC_H above SRC_W (R47). -/
def imgSrcDimWord (s : State) : Word := s.imgSrcH ++ s.imgSrcW

/-- IMG_DIM: IMG_H above IMG_W (R48). -/
def imgDimWord (s : State) : Word := s.imgH ++ s.imgW

/-- IMG_POS: ROW above COL (R49). -/
def imgPosWord (s : State) : Word := s.imgRow ++ s.imgCol

/-- The source row that holds window row ROW (spec/42_thresholder.md R186): counted from the bottom when FLIP is set. -/
def sourceRow (s : State) : Int :=
  if s.imgFlip then (s.imgSrcH.toNat : Int) - 1 - s.imgRow.toNat else s.imgRow.toNat

/-- IMG_ROW_OFF (R51; spec/42_thresholder.md R186): the file offset of the stored row that holds window row ROW while a
bitmap-path stream is open, modulo 2^32; else 0. -/
def rowOffset (s : State) : Word :=
  if s.imgActive && decide (s.imgMode = .bitmap) then
    BitVec.ofInt 32 (s.imgPixOff.toNat + sourceRow s * s.imgRowBytes.toNat)
  else 0

end Sys2Proof.Machine
end

