-- ==== Sys2Proof/Machine/Bus.lean ====
section
/-! DEFINITION. The bus interface (spec/20_memory.md): the address map, register reads and writes, the framebuffer window,
refused accesses, and the CMD write that decodes and issues a command (spec/60_exceptions.md R274). -/

namespace Sys2Proof.Machine

/-! ### The address map -/

/-- The registers of the address map (R71). -/
inductive Reg where
  | cmd
  | status
  | result
  | fbDim
  | arg (i : Fin Config.narg)
  | imgCfg
  | imgOrigin
  | imgSrcDim
  | imgDim
  | imgPos
  | imgRowBytes
  | imgPixOff
  | imgRowOff
  | waitCnt
  deriving DecidableEq, Repr

/-- Every register, in the order of the address map (R71). -/
def allRegs : List Reg :=
  [.cmd, .status, .result, .fbDim] ++ (List.finRange Config.narg).map .arg ++
    [.imgCfg, .imgOrigin, .imgSrcDim, .imgDim, .imgPos, .imgRowBytes, .imgPixOff, .imgRowOff, .waitCnt]

/-- The byte offset of a register (R71). -/
def Reg.offset : Reg → Nat
  | .cmd => 0x000
  | .status => 0x004
  | .result => 0x008
  | .fbDim => 0x00C
  | .arg i => 0x010 + 4 * i.val
  | .imgCfg => 0x030
  | .imgOrigin => 0x034
  | .imgSrcDim => 0x038
  | .imgDim => 0x03C
  | .imgPos => 0x040
  | .imgRowBytes => 0x044
  | .imgPixOff => 0x048
  | .imgRowOff => 0x04C
  | .waitCnt => 0x050

/-- The register at a byte offset, `none` where no register starts there (R71, R72). -/
def regAt (off : Offset) : Option Reg := allRegs.find? (fun r => r.offset == off.toNat)

/-- The window byte at a byte offset, `none` outside the framebuffer window (R71, R73). -/
def windowByteAt (off : Offset) : Option Nat :=
  if Config.fbWindowBase ≤ off.toNat ∧ off.toNat < Config.fbWindowBase + Config.backingBytes then
    some (off.toNat - Config.fbWindowBase)
  else none

/-! ### Reads -/

/-- The value of a register (R72); CMD reads 0 (R76). -/
def readReg (r : Reg) (s : State) : Word :=
  match r with
  | .cmd => 0
  | .status => statusWord s
  | .result => resultWord s
  | .fbDim => fbDimWord s
  | .arg i => s.arg i
  | .imgCfg => imgCfgWord s
  | .imgOrigin => imgOriginWord s
  | .imgSrcDim => imgSrcDimWord s
  | .imgDim => imgDimWord s
  | .imgPos => imgPosWord s
  | .imgRowBytes => s.imgRowBytes
  | .imgPixOff => s.imgPixOff
  | .imgRowOff => rowOffset s
  | .waitCnt => s.waitCnt

/-- A register read (R72): the host is given its value, and the block's state does not change (R77). -/
def State.readRegister (r : Reg) (s : State) : State := { s with busData := readReg r s }

/-- A window read (R78): the host is given the byte, each UNKNOWN bit as one draw; eight draws are taken (log entry 3,
DESIGN CHOICE). -/
def State.readWindow (k : Nat) (s : State) : State :=
  { s with busData := BitVec.setWidth 32 (s.store.byteRead k s.draws), draws := s.draws + 8 }

/-- MemRead(off, n) (R72 to R74): a 4-byte read of a register, a 1-byte read of the window; any other is refused. -/
def State.busRead (off : Offset) (n : Nat) (s : State) : State :=
  if n = 4 then
    match regAt off with
    | some r => s.readRegister r
    | none => s.refuseRead
  else if n = 1 then
    match windowByteAt off with
    | some k => s.readWindow k
    | none => s.refuseRead
  else s.refuseRead

/-! ### Writes -/

/-- A window write (R79), allowed at any time. -/
def State.writeWindow (k : Nat) (v : Byte) (s : State) : State := { s with store := s.store.byteWrite k v }

/-- A CMD write (spec/60_exceptions.md R274): a legal word issues its command, whose meaning makes the checks common to
every command; any other word is ILLEGAL. -/
def issueWord (c : Word) (s : State) : Host.Outcome State Fault Refusal :=
  match decode c with
  | .ok i => exec i s
  | .error _ => .next s.issueIllegal

/-- A 32-bit write of a register (R72): CMD issues a command, ARG0 to ARG7 take the value, and any other register is
read-only, so that the write is refused (R75). -/
def State.writeRegister (r : Reg) (v : Word) (s : State) : Host.Outcome State Fault Refusal :=
  match r with
  | .cmd => issueWord v s
  | .arg i => .next (s.setArg i v)
  | .status => .next s.refuseWrite
  | .result => .next s.refuseWrite
  | .fbDim => .next s.refuseWrite
  | .imgCfg => .next s.refuseWrite
  | .imgOrigin => .next s.refuseWrite
  | .imgSrcDim => .next s.refuseWrite
  | .imgDim => .next s.refuseWrite
  | .imgPos => .next s.refuseWrite
  | .imgRowBytes => .next s.refuseWrite
  | .imgPixOff => .next s.refuseWrite
  | .imgRowOff => .next s.refuseWrite
  | .waitCnt => .next s.refuseWrite

/-- MemWrite(off, n, v) (R72 to R75): a 4-byte write of a register, a 1-byte write of the window; any other is refused. -/
def State.busWrite (off : Offset) (n : Nat) (v : Word) (s : State) : Host.Outcome State Fault Refusal :=
  if n = 4 then
    match regAt off with
    | some r => s.writeRegister r v
    | none => .next s.refuseWrite
  else if n = 1 then
    match windowByteAt off with
    | some k => .next (s.writeWindow k (BitVec.setWidth 8 v))
    | none => .next s.refuseWrite
  else .next s.refuseWrite

/-- One host bus access (spec/00_scope.md R13). -/
def State.access (a : BusAccess) (s : State) : Host.Outcome State Fault Refusal :=
  match a with
  | .read off n => .next (s.busRead off n)
  | .write off n v => s.busWrite off n v

end Sys2Proof.Machine
end

