-- ==== Sys2Proof/Machine/Agents.lean ====
section
/-! DEFINITION. Who moves (spec/00_scope.md R6): the host's turn, the engine's and the panel's, and the power supply
(spec/70_reset_and_hazards.md R300, R311). -/

namespace Sys2Proof.Machine

/-- The host's turn: it issues its next operation. A POLL line reads its register and stays next until the value read
matches (spec/30_encoding.md R114; log entry 13, DESIGN CHOICE). With nothing left to do the host does nothing (log
entry 7, DESIGN CHOICE); without power an access has no meaning (log entry 8, DESIGN CHOICE). -/
def State.hostTurn (s : State) : Host.Outcome State Fault Refusal :=
  match s.program with
  | [] => .next s
  | .access a :: rest =>
    if s.powered then State.access a { s with program := rest } else .refused .unpowered
  | .poll off mask value :: rest =>
    if s.powered then
      let t := s.busRead off 4
      .next (if t.busData &&& mask == value then { t with program := rest } else t)
    else .refused .unpowered

/-- The engine's turn: a poll tick (spec/43_display_controller.md R228). -/
def State.engineTurn (s : State) : State :=
  if s.powered then s.pollTick Config.waitTimeoutTicks else s

/-- The panel's turn: its busy fall (spec/43_display_controller.md R240). -/
def State.panelTurn (s : State) : State :=
  if s.powered then s.busyFall else s

/-- Power is removed: the glass keeps its image only after a completed DC_SLEEP (spec/43_display_controller.md R233,
spec/60_exceptions.md R287); after any other cut DISPLAYED is UNKNOWN (spec/70_reset_and_hazards.md R311; log entry 8,
DESIGN CHOICE). -/
def State.cutPower (s : State) : State :=
  if s.powered then
    { s with
      powered := false
      displayed := if decide (s.dcState = .sleep) && !s.panelBusy then s.displayed else .allUnknown }
  else s

/-- Power-on reset of the block together with its panel (spec/70_reset_and_hazards.md R300, R301; the only reset, log
entry 17, DEDUCED); the host and the order of turns are outside the block and stay. -/
def State.powerOnReset (s : State) : State :=
  { State.resetAt s.draws with busData := s.busData, program := s.program, turns := s.turns }

/-- What happens when it is the turn of `t`. -/
def State.takeTurn (t : Turn) (s : State) : Host.Outcome State Fault Refusal :=
  match t with
  | .host => s.hostTurn
  | .engine => .next s.engineTurn
  | .panel => .next s.panelTurn
  | .powerCut => .next s.cutPower
  | .powerOn => .next s.powerOnReset

/-- Whose turn it is: the next of `turns`, and the host's where none is listed (log entry 1, DESIGN CHOICE). -/
def State.nextTurn (s : State) : Turn := s.turns.headD .host

/-- The state with its next turn taken off the list. -/
def State.popTurn (s : State) : State := { s with turns := s.turns.tail }

/-- One step of the machine: the next turn is taken. -/
def State.oneTurn (s : State) : Host.Outcome State Fault Refusal := s.popTurn.takeTurn s.nextTurn

/-- The state in which the coming turn is the host's and it writes `c` to CMD. -/
def State.withCommand (c : Word) (s : State) : State :=
  { s with powered := true, turns := .host :: s.turns, program := .access (.write 0 4 c) :: s.program }

end Sys2Proof.Machine
end

