-- ==== Sys2Proof/Machine/Step.lean ====
section
/-! DEFINITION. One step of the machine, and the placing of a command where the next step takes it. -/

namespace Sys2Proof.Machine

/-- One step: the agent whose turn it is moves (spec/00_scope.md R6). -/
def step (s : State) : Host.Outcome State Fault Refusal := s.oneTurn

/-- The state whose next step is the host's CMD write of the word in the low `nbits` bits of `w`. The block fetches
nothing (spec/20_memory.md R88): a command arrives by a CMD write (log entry 2, DESIGN CHOICE). -/
def State.withFetchWord (s : State) (nbits w : Nat) : State :=
  s.withCommand (BitVec.ofNat 32 (w % 2 ^ nbits))

end Sys2Proof.Machine
end

