-- ==== Sys2Proof/Machine/Snapshot.lean ====
section
/-! DEFINITION. The snapshot view (spec/40_framebuffer.md R150 to R153): an observation of the framebuffer, the pixel data
the source's snapshot encoder would emit. It is no command and changes no state (spec/00_scope.md R4). -/

namespace Sys2Proof.Machine

/-- SROW, the snapshot's row stride in bytes (R150). -/
def snapStride (w : Nat) : Nat := (w * 3 + 3) / 4 * 4

/-- The byte each channel of an expanded pixel holds (R151). -/
def snapExpand (c : Color) : Byte :=
  match c with
  | .black => 0x00
  | .white => 0xFF

/-- The colour the view gives the physical pixel (px, py): an UNKNOWN pixel takes a free value of its own (R151; log
entry 16, DESIGN CHOICE). -/
def State.snapPixel (s : State) (px py : Nat) : Color :=
  let i := s.geom.index (px, py)
  match s.store.bitRead i with
  | some c => c
  | none => Color.ofBit (Config.snapChoose s.draws i)

/-- Byte `k` of SnapData (R152): stored row `k div SROW`, counted from the picture's bottom, and its padding bytes 0x00. -/
def State.snapByte (s : State) (k : Nat) : Byte :=
  let w := s.fbW.toNat
  let row := k / snapStride w
  let byteCol := k % snapStride w
  if byteCol < 3 * w then snapExpand (s.snapPixel (byteCol / 3) (s.fbH.toNat - 1 - row)) else 0x00

/-- SnapData: FB_H stored rows of SROW bytes, bottom-up (R152). -/
def State.snapData (s : State) : List Byte :=
  (List.range (s.fbH.toNat * snapStride s.fbW.toNat)).map s.snapByte

/-- Where the pixel data starts in the snapshot file (R153): after the 14-byte file header and the 40-byte DIB header. -/
def snapPixelOffset : Nat := 14 + 40

/-- The size of the snapshot file in bytes (R153). -/
def State.snapFileSize (s : State) : Nat := snapPixelOffset + s.fbH.toNat * snapStride s.fbW.toNat

end Sys2Proof.Machine
end

