-- ==== Sys2Proof/Safety.lean ====
section
/-! DEFINITION. The terms claims are stated in: when a command is accepted, what a failed one leaves, runs of commands,
what every reachable state of the block satisfies: the invariants the spec states (spec/10_state.md R62 to R64) and
those its rules give, each under a name of its own, and their conjunction; and the source's testable properties
(spec/00_scope.md R19). -/

namespace Sys2Proof.Machine

/-! ### Commands and their runs -/

/-- No command is in progress and no image stream is open, so that every legal command is issued
(spec/60_exceptions.md R274). -/
def State.ready (s : State) : Prop := s.cmdBusy = false ∧ s.imgActive = false

/-- A frame operation's STATE and NO_WAIT checks pass as well (spec/43_display_controller.md R223). -/
def State.frameReady (s : State) : Prop :=
  s.ready ∧ (s.dcState = .init ∨ s.dcState = .active) ∧ s.waited = true

/-- What a command that ended with an error code leaves: ERR and STICKY_ERR changed and nothing else
(spec/60_exceptions.md R271, R272). -/
def State.failed (code : StatusCode) (s : State) : State := { s with err := code, stickyErr := true }

/-- The six frame operations (spec/43_display_controller.md R222). -/
def isFrameOp : Instr → Bool
  | .dcWriteBase => true
  | .dcSetFrameMemory => true
  | .dcDisplayFrame => true
  | .dcDisplayPart _ => true
  | .dcClear => true
  | .dcSleep => true
  | _ => false

/-- The first two checks of a frame operation turn it away: STATE unless DC_STATE is INIT or ACTIVE, then NO_WAIT unless
WAITED is 1 (spec/43_display_controller.md R223). -/
def State.rejectsFrameOp (i : Instr) (s : State) : Prop :=
  (s.dcState = .uninit ∨ s.dcState = .sleep → exec i s = .next (s.failed .state))
    ∧ ((s.dcState = .init ∨ s.dcState = .active) → s.waited = false → exec i s = .next (s.failed .noWait))

/-- The commands of the display-controller family (spec/30_encoding.md R111). -/
def isDisplayCommand : Instr → Bool
  | .dcInit _ => true
  | .dcWaitIdle => true
  | i => isFrameOp i

/-- The pixel pushes and IMG_ABORT, which an open stream does not reject (spec/60_exceptions.md R274, 3). -/
def isStreamCommand : Instr → Bool
  | .imgPixelRgb _ _ _ => true
  | .imgPixel565 _ => true
  | .imgAbort => true
  | _ => false

/-- The commands of the thresholder family (spec/30_encoding.md R111). -/
def isImageCommand : Instr → Bool
  | .imgBeginBmp => true
  | .imgBeginGen => true
  | i => isStreamCommand i

/-- The commands that write the backing store (spec/10_state.md R44). -/
def writesStore : Instr → Bool
  | .fbClear _ => true
  | .fbSetPixel _ => true
  | .fbDrawLine _ => true
  | .fbDrawRect _ => true
  | .fbFillRect _ => true
  | .imgPixelRgb _ _ _ => true
  | .imgPixel565 _ => true
  | _ => false

/-- DC_STATE after a command that completed OK (spec/43_display_controller.md R221). -/
def dcStateAfter (i : Instr) (d : DcState) : DcState :=
  match i with
  | .dcInit _ => .init
  | .dcWriteBase => .active
  | .dcDisplayFrame => .active
  | .dcDisplayPart _ => .active
  | .dcClear => .active
  | .dcSleep => .sleep
  | _ => d

/-- The commands of a list, each issued by `run`, one after the other. -/
def runAll (run : Instr → State → Host.Outcome State Fault Refusal) :
    List Instr → State → Host.Outcome State Fault Refusal
  | [], s => .next s
  | i :: is, s =>
    match run i s with
    | .next t => runAll run is t
    | .fault r => .fault r
    | .refused r => .refused r

/-- The commands of a list, issued one after the other. -/
def execAll : List Instr → State → Host.Outcome State Fault Refusal := runAll exec

/-- What a command does in a block whose BMP_T is `t` (spec/42_thresholder.md R183, R196): only IMG_PIXEL_RGB reads the
parameter. At `Config.bmpT` it is `exec`. -/
def execAt (t : Nat) (i : Instr) (s : State) : Host.Outcome State Fault Refusal :=
  match i with
  | .imgPixelRgb r g b => imgPixelRgbAt t r g b s
  | i => exec i s

/-- The loop of FB_DRAW_LINE without a bound (spec/41_rasterizers.md R161): from `p` it plots these points, then ends. -/
inductive LineRun (g : Segment) : LinePos → List (Int × Int) → Prop where
  | last {p : LinePos} (h : p.x = g.x1 ∧ p.y = g.y1) : LineRun g p [(p.x, p.y)]
  | more {p : LinePos} {pts : List (Int × Int)} (h : ¬ (p.x = g.x1 ∧ p.y = g.y1)) (rest : LineRun g (g.lineNext p) pts) :
      LineRun g p ((p.x, p.y) :: pts)

/-- The pixel pushes that stream a snapshot back (spec/42_thresholder.md R194, R196): window pixel `n`, in window order,
is taken from stored row `FB_H - 1 - ROW` of SnapData. -/
def State.snapPushes (s : State) : List Instr :=
  let w := s.fbW.toNat
  let h := s.fbH.toNat
  (List.range (w * h)).map (fun n =>
    let k := (h - 1 - n / w) * snapStride w + 3 * (n % w)
    .imgPixelRgb (s.snapData.getD k 0).toNat (s.snapData.getD (k + 1) 0).toNat (s.snapData.getD (k + 2) 0).toNat)

/-! ### Invariants -/

/-- Every pixel store is in its canonical form. -/
def State.memoriesCanonical (s : State) : Prop :=
  s.store.wf = true ∧ s.pram.wf = true ∧ s.displayed.wf = true ∧ ∀ p, s.pend = some p → p.image.wf = true

/-- FB_W * FB_H does not exceed the capacity (spec/10_state.md R63). -/
def State.capacityKept (s : State) : Prop := s.fbW.toNat * s.fbH.toNat ≤ Config.capBits

/-- WAITED = 1 implies PANEL_BUSY = 0 (spec/10_state.md R62). -/
def State.waitedMeansIdle (s : State) : Prop := s.waited = true → s.panelBusy = false

/-- A refresh is pending only while the panel is busy (spec/43_display_controller.md R225, R240; spec/10_state.md R54). -/
def State.pendingMeansBusy (s : State) : Prop := s.pend.isSome = true → s.panelBusy = true

/-- An open stream's cursor is inside its window (spec/10_state.md R64), and the window is inside the logical framebuffer
(spec/42_thresholder.md R197, R198) and inside the source image (R182). -/
def State.streamInWindow (s : State) : Prop :=
  s.imgActive = true →
    s.imgCol.toNat < s.imgW.toNat ∧ s.imgRow.toNat < s.imgH.toNat
      ∧ s.imgX0.toNat + s.imgW.toNat ≤ s.geom.logicalW ∧ s.imgY0.toNat + s.imgH.toNat ≤ s.geom.logicalH
      ∧ s.imgW.toNat ≤ s.imgSrcW.toNat ∧ s.imgH.toNat ≤ s.imgSrcH.toNat

/-- While a DC_WAIT_IDLE is in progress WAITED is 0, no stream is open, and the ticks counted are below the bound
(spec/43_display_controller.md R227, R228; spec/60_exceptions.md R274). -/
def State.waitInProgress (s : State) : Prop :=
  s.cmdBusy = true → s.waited = false ∧ s.imgActive = false ∧ s.waitCnt.toNat < Config.waitTimeoutTicks

/-- What the display-controller state says of the other controller fields and of the panel (spec/43_display_controller.md
R221, R225, R226, R229, R233, R234). -/
def State.controllerConsistent (s : State) : Prop :=
  (s.dcState = .uninit → s.base = false ∧ s.lastRefresh = none ∧ s.pend = none ∧ s.pram = .allUnknown)
    ∧ (s.dcState = .init → s.base = false ∧ s.pend = none)
    ∧ (s.dcState = .active → s.lastRefresh ≠ none)
    ∧ (s.dcState = .sleep → s.pend = none ∧ s.panelBusy = false ∧ s.pram = .allUnknown)
    ∧ ∀ p, s.pend = some p → s.lastRefresh = some p.kind

/-- A code other than OK in ERR has set STICKY_ERR (spec/10_state.md R37; spec/60_exceptions.md R271). -/
def State.errorsSticky (s : State) : Prop := s.err ≠ .ok → s.stickyErr = true

/-- The invariant of the machine. -/
structure State.Inv (s : State) : Prop where
  memories : s.memoriesCanonical
  capacity : s.capacityKept
  waited : s.waitedMeansIdle
  pending : s.pendingMeansBusy
  stream : s.streamInWindow
  wait : s.waitInProgress
  controller : s.controllerConsistent
  errors : s.errorsSticky

/-! ### The source's testable properties -/

/-- The round trip of a block whose BMP_T is `t` (spec/42_thresholder.md R196; spec/95_test_vectors.md E13, E18): streaming
the snapshot of `f`, a framebuffer with ROT = 0 and no UNKNOWN pixel, into one of the same dimensions reproduces its
pixels. -/
def RoundTrip (t : Nat) : Prop :=
  ∀ f s : State, f.rot = .rot0 → 0 < f.fbW.toNat → 0 < f.fbH.toNat →
    (∀ i, i < f.fbW.toNat * f.fbH.toNat → (f.store.bitRead i).isSome = true) →
    s.ready → s.rot = .rot0 → s.fbW = f.fbW → s.fbH = f.fbH →
    s.args = #v[0, 0, BitVec.setWidth 32 f.fbW, BitVec.setWidth 32 f.fbH, 0x4D42, 0x00180001, 0, 54] →
    ∃ u, runAll (execAt t) (.imgBeginBmp :: f.snapPushes) s = .next u ∧ u.err = .ok ∧ u.imgActive = false
      ∧ ∀ i, i < f.fbW.toNat * f.fbH.toNat → u.store.bitRead i = f.store.bitRead i

/-- The source's testable properties (spec/00_scope.md R19; spec/95_test_vectors.md E12 to E19), of a block whose BMP_T is
`t`. `sourceProperties_of_roundTrip` (Laws/Source.lean) derives them all from the round trip, which is a statement for the provers. -/
structure SourceProperties (t : Nat) : Prop where
  /-- E12: a snapshot row's bytes are a multiple of 4. -/
  rowPadding : ∀ w, snapStride w % 4 = 0
  /-- E13, E18: the bitmap round trip. -/
  roundTrip : RoundTrip t
  /-- E14: a header whose signature is not 'B','M' aborts the decode and leaves the framebuffer unchanged. -/
  malformedHeaderAborts : ∀ s : State, s.ready → (s.bmpHeader.sig0 ≠ 0x42 ∨ s.bmpHeader.sig1 ≠ 0x4D) →
    execAt t .imgBeginBmp s = .next (s.failed .format)
  /-- E15, E19: a partial refresh without a base image is rejected. -/
  partialNeedsBase : ∀ (p : PartRegion) (s : State), s.frameReady → s.base = false →
    execAt t (.dcDisplayPart p) s = .next (s.failed .noBase)
  /-- E16: a pixel set outside the logical rectangle alters no byte of the backing store. -/
  boundsSafety : ∀ (c : Color) (s u : State), s.geom.inBounds (s.coord 0) (s.coord 1) = false →
    execAt t (.fbSetPixel c) s = .next u → u.store = s.store
  /-- E17: the commands of an image stream write no bit but those of its window's points. -/
  clipping : ∀ (i : Instr) (s u : State) (k : Nat), isImageCommand i = true → s.streamInWindow →
    execAt t i s = .next u →
    (∀ col row : Nat, col < s.imgW.toNat → row < s.imgH.toNat →
      s.geom.bitAt (s.imgX0.toNat + col) (s.imgY0.toNat + row) ≠ some k) →
    u.store.bitRead k = s.store.bitRead k
  /-- E19: a frame operation without a wait before it is rejected. -/
  frameOpNeedsWait : ∀ (i : Instr) (s : State), isFrameOp i = true → s.ready →
    (s.dcState = .init ∨ s.dcState = .active) → s.waited = false → execAt t i s = .next (s.failed .noWait)

end Sys2Proof.Machine
end

