-- ==== Sys2Proof/Certificates/Slice0/Obligations.lean ====
section
/-! DEFINITION. The statements for the provers: each says what a rule of spec/ says, of every state and every operand. -/

open Sys2Proof Sys2Proof.Machine

/-! ### The command word -/

/-- The encoder and the decoder agree on every well-formed command (spec/30_encoding.md R111, R117). -/
def Obligations.DecodeOfEncodeIsTheInstruction : Prop :=
  ∀ i : Instr, i.wellFormed = true → decode (encode i) = .ok i

/-- A legal word has one meaning and no bit of it is dropped (spec/30_encoding.md R111, R117). -/
def Obligations.EncodeOfDecodeIsTheWord : Prop :=
  ∀ (w : Word) (i : Instr), decode w = .ok i → encode i = w ∧ i.wellFormed = true

/-- The opcode map, and that a word is the named command exactly when `(word & mask) == match`
(spec/30_encoding.md R111). -/
def Obligations.RowMatchIsTheNamedCommand : Prop :=
  opcodeMap.map (fun r => (r.opc, r.mnemonic, r.pat, r.mask)) =
    [ (0x10, "FB_RESET", 0x10000000, 0xFFFFFFFF), (0x11, "FB_CLEAR", 0x11000000, 0xFFFFFFFE)
    , (0x12, "FB_SET_PIXEL", 0x12000000, 0xFFFFFFFE), (0x13, "FB_GET_PIXEL", 0x13000000, 0xFFFFFFFF)
    , (0x14, "FB_ROTATE", 0x14000000, 0xFFFFFFFC), (0x15, "FB_DRAW_LINE", 0x15000000, 0xFFFFFFFE)
    , (0x16, "FB_DRAW_RECT", 0x16000000, 0xFFFFFFFE), (0x17, "FB_FILL_RECT", 0x17000000, 0xFFFFFFFE)
    , (0x20, "IMG_BEGIN_BMP", 0x20000000, 0xFFFFFFFF), (0x21, "IMG_BEGIN_GEN", 0x21000000, 0xFFFFFFFF)
    , (0x22, "IMG_PIXEL_RGB", 0x22000000, 0xFF000000), (0x23, "IMG_PIXEL_565", 0x23000000, 0xFFFF0000)
    , (0x24, "IMG_ABORT", 0x24000000, 0xFFFFFFFF), (0x30, "DC_INIT", 0x30000000, 0xFFFFFFFE)
    , (0x31, "DC_WAIT_IDLE", 0x31000000, 0xFFFFFFFF), (0x32, "DC_WRITE_BASE", 0x32000000, 0xFFFFFFFF)
    , (0x33, "DC_SET_FRAME_MEMORY", 0x33000000, 0xFFFFFFFF), (0x34, "DC_DISPLAY_FRAME", 0x34000000, 0xFFFFFFFF)
    , (0x35, "DC_DISPLAY_PART", 0x35000000, 0xFFFFFFFE), (0x36, "DC_SLEEP", 0x36000000, 0xFFFFFFFF)
    , (0x37, "DC_CLEAR", 0x37000000, 0xFFFFFFFF) ]
  ∧ ∀ (w : Word) (r : OpRow), r ∈ opcodeMap →
    (w &&& r.mask = r.pat ↔ decode w = .ok (r.build w) ∧ (r.build w).opcode = r.opc)

/-- Illegal words and what issuing one does (spec/30_encoding.md R112). -/
def Obligations.IllegalWordsAreTheUnmatchedOnes : Prop :=
  (∀ w : Word, (∃ e, decode w = .error e) ↔
    ((∀ r ∈ opcodeMap, r.opc ≠ opcodeOf w) ∨ ∃ r ∈ opcodeMap, r.opc = opcodeOf w ∧ w &&& r.mask &&& 0x00FFFFFF#32 ≠ 0))
  ∧ (∀ (w : Word) (e : IllegalWord) (s : State), decode w = .error e → s.cmdBusy = false →
      issueWord w s = .next (s.failed .illegal))
  ∧ ∃ e, decode 0x00000000 = .error e

/-- Words written out from the formats of spec/30_encoding.md R102 to R108 decode to their commands. -/
def Obligations.WrittenOutWordsDecode : Prop :=
  decode 0x11000001 = .ok (.fbClear .white) ∧ decode 0x14000003 = .ok (.fbRotate .rot270)
    ∧ decode 0x22010203 = .ok (.imgPixelRgb 1 2 3) ∧ decode 0x2300F800 = .ok (.imgPixel565 0xF800)
    ∧ decode 0x30000001 = .ok (.dcInit .portrait) ∧ decode 0x35000001 = .ok (.dcDisplayPart .region)

/-! ### Steps -/

/-- The host's turn, with power (spec/00_scope.md R6, R13). Its coming access is made in the state whose turn and access
have been taken off the inputs (the model's, log entries 1 and 2), and where it writes to CMD a word that decodes to a
command, the step is that command's meaning. A POLL line reads its register once and stays the coming operation until the
value matches (spec/30_encoding.md R114; once a turn is the model's choice, log entry 13); with no operation left nothing
happens (the model's choice, log entry 7). -/
def Obligations.StepRunsTheDecodedCommand : Prop :=
  (∀ (off : Offset) (n : Nat) (v : Word) (s : State),
    State.access (.read off n) s = .next (s.busRead off n) ∧ State.access (.write off n v) s = s.busWrite off n v)
  ∧ ∀ s : State, s.powered = true → s.nextTurn = .host →
    (∀ (a : BusAccess) (rest : List HostOp), s.program = .access a :: rest →
      step s = State.access a { s with turns := s.turns.tail, program := rest })
    ∧ (∀ (w : Word) (i : Instr) (rest : List HostOp), s.program = .access (.write 0 4 w) :: rest → decode w = .ok i →
      step s = exec i { s with turns := s.turns.tail, program := rest })
    ∧ (∀ (off : Offset) (mask value : Word) (rest : List HostOp) (t : State), s.program = .poll off mask value :: rest →
      t = State.busRead off 4 { s with turns := s.turns.tail } →
      step s = .next (if t.busData &&& mask = value then { t with program := rest } else t))
    ∧ (s.program = [] → step s = .next { s with turns := s.turns.tail })

/-- The engine's turn is a poll tick and the panel's its busy fall (spec/00_scope.md R6); a power cut while the panel is
busy leaves DISPLAYED UNKNOWN, and one after a completed sleep leaves it (spec/70_reset_and_hazards.md R311; the cut's
other effects are the model's, log entry 8). The return of power, in any state, is the power-on reset (R300). -/
def Obligations.TurnsOfEnginePanelAndPower : Prop :=
  (∀ (s : State) (ts : List Turn), s.turns = .powerOn :: ts →
    step s = .next (State.powerOnReset { s with turns := ts }))
  ∧ ∀ (s : State) (ts : List Turn), s.powered = true →
    (s.turns = .engine :: ts → step s = .next (State.pollTick Config.waitTimeoutTicks { s with turns := ts }))
    ∧ (s.turns = .panel :: ts → step s = .next (State.busyFall { s with turns := ts }))
    ∧ (s.turns = .powerCut :: ts → s.panelBusy = true →
        step s = .next { s with turns := ts, powered := false, displayed := .allUnknown })
    ∧ (s.turns = .powerCut :: ts → s.panelBusy = false → s.dcState = .sleep →
        step s = .next { s with turns := ts, powered := false })

/-- Nothing stops a machine that has power: errors are status codes (spec/60_exceptions.md R271, R279). -/
def Obligations.PoweredMachineNeverStops : Prop :=
  ∀ s : State, s.powered = true → ∃ t, step s = .next t

/-! ### Checks common to every command -/

/-- A CMD write while a DC_WAIT_IDLE is in progress is dropped (spec/60_exceptions.md R275). -/
def Obligations.BusyBlockDropsCommandWrites : Prop :=
  ∀ (w : Word) (s : State), s.cmdBusy = true → issueWord w s = .next { s with ovr := true }

/-- An open stream rejects every command but the pushes and IMG_ABORT, and its geometry stays
(spec/42_thresholder.md R197). -/
def Obligations.OpenStreamFixesItsGeometry : Prop :=
  ∀ (i : Instr) (s : State), s.cmdBusy = false → s.imgActive = true →
    (isStreamCommand i = false → exec i s = .next (s.failed .streamActive))
    ∧ ∀ t, exec i s = .next t →
        t.geom = s.geom ∧ t.imgX0 = s.imgX0 ∧ t.imgY0 = s.imgY0 ∧ t.imgW = s.imgW ∧ t.imgH = s.imgH

/-- A command that ends with an error has changed only ERR and STICKY_ERR (spec/60_exceptions.md R272). -/
def Obligations.FailedCommandChangesOnlyErr : Prop :=
  ∀ (i : Instr) (s t : State), s.cmdBusy = false → exec i s = .next t → t.cmdBusy = false → t.err ≠ .ok →
    t = s.failed t.err

/-- Which fields each command may write: the "-" cells of the table (spec/10_state.md R65), and the registers and stores
that only the commands named there write (spec/10_state.md R39 to R42, R44 to R50, R52 to R61). -/
def Obligations.CommandsWriteOnlyTheirOwnFields : Prop :=
  ∀ (i : Instr) (s t : State), exec i s = .next t →
    t.args = s.args ∧ t.busErr = s.busErr ∧ t.powered = s.powered ∧ t.busData = s.busData ∧ t.program = s.program
    ∧ t.turns = s.turns
    ∧ (i ≠ .fbReset → t.fbW = s.fbW ∧ t.fbH = s.fbH)
    ∧ ((∀ r, i ≠ .fbRotate r) → t.rot = s.rot)
    ∧ (i ≠ .fbGetPixel → t.resultValid = s.resultValid ∧ t.resultColor = s.resultColor ∧ t.draws = s.draws)
    ∧ ((∀ o, i ≠ .dcInit o) → t.orient = s.orient ∧ t.displayed = s.displayed)
    ∧ (i ≠ .dcWaitIdle → t.cmdBusy = s.cmdBusy ∧ t.waitCnt = s.waitCnt)
    ∧ ((∀ o, i ≠ .dcInit o) → i ≠ .dcWriteBase → i ≠ .dcClear → t.base = s.base)
    ∧ ((∃ o, i = .dcInit o) ∨ i = .dcWaitIdle ∨ i = .dcSetFrameMemory ∨ i = .dcSleep → t.lastRefresh = s.lastRefresh)
    ∧ (i = .dcWaitIdle ∨ i = .dcSetFrameMemory ∨ i = .dcSleep → t.pend = s.pend ∧ t.panelBusy = s.panelBusy)
    ∧ (i = .dcSetFrameMemory → t.waited = s.waited)
    ∧ (i = .dcWaitIdle ∨ i = .dcSetFrameMemory → t.dcState = s.dcState)
    ∧ (i = .dcWaitIdle ∨ i = .dcDisplayFrame → t.pram = s.pram)
    ∧ (i ≠ .imgBeginBmp → i ≠ .imgBeginGen →
        t.imgMode = s.imgMode ∧ t.imgFlip = s.imgFlip ∧ t.imgX0 = s.imgX0 ∧ t.imgY0 = s.imgY0
        ∧ t.imgSrcW = s.imgSrcW ∧ t.imgSrcH = s.imgSrcH ∧ t.imgW = s.imgW ∧ t.imgH = s.imgH
        ∧ t.imgRowBytes = s.imgRowBytes ∧ t.imgPixOff = s.imgPixOff)
    ∧ (isImageCommand i = false → t.imgActive = s.imgActive ∧ t.imgCol = s.imgCol ∧ t.imgRow = s.imgRow)
    ∧ (writesStore i = false → t.store = s.store)
    ∧ (isDisplayCommand i = false →
        t.dcState = s.dcState ∧ t.base = s.base ∧ t.waited = s.waited ∧ t.lastRefresh = s.lastRefresh
        ∧ t.pram = s.pram ∧ t.pend = s.pend ∧ t.panelBusy = s.panelBusy)

/-- A sticky bit that is 1 stays 1 until the block is reset (spec/10_state.md R32; spec/60_exceptions.md R280). -/
def Obligations.StickyBitsStayUntilReset : Prop :=
  ∀ s t : State, step s = .next t → s.nextTurn ≠ .powerOn →
    (s.ovr = true → t.ovr = true) ∧ (s.busErr = true → t.busErr = true) ∧ (s.stickyErr = true → t.stickyErr = true)

/-! ### Framebuffer -/

/-- FB_RESET (spec/40_framebuffer.md R136). -/
def Obligations.FbResetSetsDimensionsOrRejects : Prop :=
  encode .fbReset = 0x10000000 ∧
  ∀ s : State, s.ready →
    exec .fbReset s = .next
      (if ((s.arg 0).extractLsb' 0 16).toNat * ((s.arg 1).extractLsb' 0 16).toNat > 40000 then s.failed .capacity
       else { s with fbW := (s.arg 0).extractLsb' 0 16, fbH := (s.arg 1).extractLsb' 0 16, err := .ok })

/-- FB_CLEAR (spec/40_framebuffer.md R137). -/
def Obligations.FbClearWritesTheFramebufferBytes : Prop :=
  encode (.fbClear .black) = 0x11000000 ∧ encode (.fbClear .white) = 0x11000001 ∧
  ∀ (c : Color) (s : State), s.ready →
    ∃ t, exec (.fbClear c) s = .next t ∧ t = { s with store := t.store, err := .ok }
      ∧ ∀ i, t.store.bitRead i =
          if i < 8 * ((s.fbW.toNat * s.fbH.toNat + 7) / 8) then some c else s.store.bitRead i

/-- FB_SET_PIXEL writes the bit of an in-bounds point, and outside the logical rectangle no byte
(spec/40_framebuffer.md R138, R142); a coordinate is the sign-extended low half of its argument register
(spec/30_encoding.md R110). -/
def Obligations.FbSetPixelWritesOneBit : Prop :=
  encode (.fbSetPixel .black) = 0x12000000 ∧ encode (.fbSetPixel .white) = 0x12000001 ∧
  (∀ (s : State) (i : Fin 8), s.coord i = ((s.arg i).extractLsb' 0 16).toInt) ∧
  ∀ (c : Color) (s : State), s.ready →
    ∃ t, exec (.fbSetPixel c) s = .next t ∧ t = { s with store := t.store, err := .ok }
      ∧ (∀ i, t.store.bitRead i =
          if s.geom.bitAt (s.coord 0) (s.coord 1) = some i then some c else s.store.bitRead i)
      ∧ (s.geom.inBounds (s.coord 0) (s.coord 1) = false → t.store = s.store)
      ∧ (s.rot = .rot0 →
          (s.geom.inBounds (s.coord 0) (s.coord 1) = true ↔
            (0 ≤ s.coord 0 ∧ s.coord 0 < s.fbW.toNat) ∧ 0 ≤ s.coord 1 ∧ s.coord 1 < s.fbH.toNat))

/-- FB_GET_PIXEL (spec/40_framebuffer.md R139): an UNKNOWN bit gives VALID = 1 and either colour. -/
def Obligations.FbGetPixelReportsTheBit : Prop :=
  encode .fbGetPixel = 0x13000000 ∧
  ∀ s : State, s.ready →
    ∃ t, exec .fbGetPixel s = .next t
      ∧ t = { s with resultValid := s.geom.inBounds (s.coord 0) (s.coord 1), resultColor := t.resultColor,
                     draws := t.draws, err := .ok }
      ∧ (s.geom.inBounds (s.coord 0) (s.coord 1) = false → readReg .result t = 0)
      ∧ (s.geom.inBounds (s.coord 0) (s.coord 1) = true → readReg .result t = 2 ∨ readReg .result t = 3)
      ∧ ∀ i c, s.geom.bitAt (s.coord 0) (s.coord 1) = some i → s.store.bitRead i = some c →
          readReg .result t = if c = .white then 3 else 2

/-- FB_ROTATE (spec/40_framebuffer.md R140). -/
def Obligations.FbRotateChangesOnlyTheRotation : Prop :=
  encode (.fbRotate .rot0) = 0x14000000 ∧ encode (.fbRotate .rot90) = 0x14000001 ∧
  encode (.fbRotate .rot180) = 0x14000002 ∧ encode (.fbRotate .rot270) = 0x14000003 ∧
  ∀ (r : Rotation) (s : State), s.ready →
    exec (.fbRotate r) s = .next { s with rot := r, err := .ok }
    ∧ (State.geom { s with rot := r, err := .ok }).logicalW =
        (if r = .rot90 ∨ r = .rot270 then s.fbH.toNat else s.fbW.toNat)
    ∧ (State.geom { s with rot := r, err := .ok }).logicalH =
        if r = .rot90 ∨ r = .rot270 then s.fbW.toNat else s.fbH.toNat

/-- The pixel index (spec/40_framebuffer.md R130), and rotation: the formulas of Phys, the logical rectangle, and that
Phys is a bijection from it onto the physical one (R132). That the dimensions keep the capacity is an invariant stated on
its own. -/
def Obligations.RotationMapsOntoThePhysicalPixels : Prop :=
  (∀ (w h : Nat) (x y : Int),
    (Geometry.mk w h .rot0).phys x y = (x, y) ∧ (Geometry.mk w h .rot90).phys x y = ((w : Int) - 1 - y, x)
    ∧ (Geometry.mk w h .rot180).phys x y = ((w : Int) - 1 - x, (h : Int) - 1 - y)
    ∧ (Geometry.mk w h .rot270).phys x y = (y, (h : Int) - 1 - x))
  ∧ (∀ (w h : Nat),
    (Geometry.mk w h .rot0).logicalW = w ∧ (Geometry.mk w h .rot0).logicalH = h
    ∧ (Geometry.mk w h .rot90).logicalW = h ∧ (Geometry.mk w h .rot90).logicalH = w
    ∧ (Geometry.mk w h .rot180).logicalW = w ∧ (Geometry.mk w h .rot180).logicalH = h
    ∧ (Geometry.mk w h .rot270).logicalW = h ∧ (Geometry.mk w h .rot270).logicalH = w)
  ∧ (∀ g : Geometry,
    (∀ x y, g.inBounds x y = true ↔ (0 ≤ x ∧ x < g.logicalW) ∧ 0 ≤ y ∧ y < g.logicalH)
    ∧ (∀ x y, g.inBounds x y = true →
        (0 ≤ (g.phys x y).1 ∧ (g.phys x y).1 < g.w) ∧ 0 ≤ (g.phys x y).2 ∧ (g.phys x y).2 < g.h)
    ∧ (∀ x y x' y', g.inBounds x y = true → g.inBounds x' y' = true → g.phys x y = g.phys x' y' → x = x' ∧ y = y')
    ∧ ∀ px py : Int, (0 ≤ px ∧ px < g.w) ∧ 0 ≤ py ∧ py < g.h → ∃ x y, g.inBounds x y = true ∧ g.phys x y = (px, py))
  ∧ (∀ (g : Geometry) (x y : Int), g.bitAt x y =
      if g.inBounds x y = true then some ((g.phys x y).2 * g.w + (g.phys x y).1).toNat else none)
  ∧ ∀ s : State, s.geom = ⟨s.fbW.toNat, s.fbH.toNat, s.rot⟩
    ∧ ∀ px py : Nat, s.capacityKept → px < s.fbW.toNat → py < s.fbH.toNat →
      s.geom.index (px, py) = py * s.fbW.toNat + px
      ∧ s.geom.index (px, py) < s.fbW.toNat * s.fbH.toNat ∧ s.fbW.toNat * s.fbH.toNat ≤ 40000
      ∧ ∀ c, s.store.bitRead (s.geom.index (px, py)) = some c →
          (s.busRead (BitVec.ofNat 14 (0x1000 + s.geom.index (px, py) / 8)) 1).busData.getLsbD
            (7 - s.geom.index (px, py) % 8) = decide (c = .white)

/-- After FB_RESET the same bits are read with the new width (spec/40_framebuffer.md R141). -/
def Obligations.ReshapedFramebufferReadsTheSameBits : Prop :=
  ∀ (s t : State) (px py : Nat), s.ready → exec .fbReset s = .next t → t.err = .ok →
    px < s.fbW.toNat → py < s.fbH.toNat → py * s.fbW.toNat + px < t.fbW.toNat * t.fbH.toNat →
    (py * s.fbW.toNat + px) % t.fbW.toNat < t.fbW.toNat
    ∧ (py * s.fbW.toNat + px) / t.fbW.toNat < t.fbH.toNat
    ∧ t.geom.index (((py * s.fbW.toNat + px) % t.fbW.toNat : Nat), ((py * s.fbW.toNat + px) / t.fbW.toNat : Nat))
        = s.geom.index (px, py)
    ∧ t.store = s.store

/-! ### Rasterizers -/

/-- FB_DRAW_LINE writes the points of its loop that are in bounds and nothing else (spec/41_rasterizers.md R161). -/
def Obligations.FbDrawLinePlotsTheLoopsPoints : Prop :=
  encode (.fbDrawLine .black) = 0x15000000 ∧ encode (.fbDrawLine .white) = 0x15000001 ∧
  ∀ (c : Color) (s : State), s.ready →
    ∃ t pts, LineRun s.segment s.segment.lineStart pts
      ∧ exec (.fbDrawLine c) s = .next t ∧ t = { s with store := t.store, err := .ok }
      ∧ (∀ x y i, s.geom.bitAt x y = some i →
          t.store.bitRead i = if (x, y) ∈ pts then some c else s.store.bitRead i)
      ∧ ∀ i, s.fbW.toNat * s.fbH.toNat ≤ i → t.store.bitRead i = s.store.bitRead i

/-- The properties of the line (spec/41_rasterizers.md R162). -/
def Obligations.LineReachesItsEndpoint : Prop :=
  ∀ g : Segment, ∃ pts, LineRun g g.lineStart pts
    ∧ pts.head? = some (g.x0, g.y0) ∧ pts.getLast? = some (g.x1, g.y1)
    ∧ pts.length = max (g.x1 - g.x0).natAbs (g.y1 - g.y0).natAbs + 1 ∧ pts.Nodup
    ∧ List.IsChain (fun p q => |q.1 - p.1| ≤ 1 ∧ |q.2 - p.2| ≤ 1) pts
    ∧ ∀ p ∈ pts, min g.x0 g.x1 ≤ p.1 ∧ p.1 ≤ max g.x0 g.x1 ∧ min g.y0 g.y1 ≤ p.2 ∧ p.2 ≤ max g.y0 g.y1

/-- FB_DRAW_RECT (spec/41_rasterizers.md R163). -/
def Obligations.FbDrawRectPlotsTheOutline : Prop :=
  encode (.fbDrawRect .black) = 0x16000000 ∧ encode (.fbDrawRect .white) = 0x16000001 ∧
  ∀ (c : Color) (s : State) (xa xb ya yb : Int), s.ready →
    xa = min (s.coord 0) (s.coord 2) → xb = max (s.coord 0) (s.coord 2) →
    ya = min (s.coord 1) (s.coord 3) → yb = max (s.coord 1) (s.coord 3) →
    ∃ t, exec (.fbDrawRect c) s = .next t ∧ t = { s with store := t.store, err := .ok }
      ∧ (∀ x y i, s.geom.bitAt x y = some i →
          t.store.bitRead i =
            if (xa ≤ x ∧ x ≤ xb ∧ ya ≤ y ∧ y ≤ yb) ∧ (x = xa ∨ x = xb ∨ y = ya ∨ y = yb) then some c
            else s.store.bitRead i)
      ∧ ∀ i, s.fbW.toNat * s.fbH.toNat ≤ i → t.store.bitRead i = s.store.bitRead i

/-- FB_FILL_RECT (spec/41_rasterizers.md R164). -/
def Obligations.FbFillRectPlotsTheRectangle : Prop :=
  encode (.fbFillRect .black) = 0x17000000 ∧ encode (.fbFillRect .white) = 0x17000001 ∧
  ∀ (c : Color) (s : State) (xa xb ya yb : Int), s.ready →
    xa = min (s.coord 0) (s.coord 2) → xb = max (s.coord 0) (s.coord 2) →
    ya = min (s.coord 1) (s.coord 3) → yb = max (s.coord 1) (s.coord 3) →
    ∃ t, exec (.fbFillRect c) s = .next t ∧ t = { s with store := t.store, err := .ok }
      ∧ (∀ x y i, s.geom.bitAt x y = some i →
          t.store.bitRead i = if xa ≤ x ∧ x ≤ xb ∧ ya ≤ y ∧ y ≤ yb then some c else s.store.bitRead i)
      ∧ ∀ i, s.fbW.toNat * s.fbH.toNat ≤ i → t.store.bitRead i = s.store.bitRead i

/-- No command but FB_CLEAR writes a bit at or beyond FB_W*FB_H (spec/40_framebuffer.md R143, R131). -/
def Obligations.NoDrawingBeyondTheFramebuffer : Prop :=
  ∀ (i : Instr) (s t : State) (k : Nat), (∀ c, i ≠ .fbClear c) → exec i s = .next t →
    s.fbW.toNat * s.fbH.toNat ≤ k → t.store.bitRead k = s.store.bitRead k

/-! ### Image thresholder -/

/-- IMG_BEGIN_BMP (spec/42_thresholder.md R187), with the clip of R182 and the stride of R185. -/
def Obligations.ImgBeginBmpOpensOrRejects : Prop :=
  encode .imgBeginBmp = 0x20000000 ∧
  ∀ (s : State) (x0 y0 wW wH : Nat) (w h : Int), s.ready →
    x0 = ((s.arg 0).extractLsb' 0 16).toNat → y0 = ((s.arg 1).extractLsb' 0 16).toNat →
    w = (s.arg 2).toInt → h = (s.arg 3).toInt →
    wW = (if s.geom.logicalW ≤ x0 then 0 else min w.toNat (s.geom.logicalW - x0)) →
    wH = (if s.geom.logicalH ≤ y0 then 0 else min h.natAbs (s.geom.logicalH - y0)) →
    exec .imgBeginBmp s = .next
      (if (s.arg 4).extractLsb' 0 8 ≠ 0x42#8 ∨ (s.arg 4).extractLsb' 8 8 ≠ 0x4D#8
          ∨ (s.arg 5).extractLsb' 0 16 ≠ 1#16 ∨ (s.arg 5).extractLsb' 16 16 ≠ 24#16 ∨ s.arg 6 ≠ 0
          ∨ w ≤ 0 ∨ h = 0 ∨ 65535 < w ∨ 65535 < h.natAbs
       then s.failed .format
       else { s with
              imgMode := .bitmap, imgFlip := decide (0 < h)
              imgX0 := (s.arg 0).extractLsb' 0 16, imgY0 := (s.arg 1).extractLsb' 0 16
              imgSrcW := BitVec.ofNat 16 w.toNat, imgSrcH := BitVec.ofNat 16 h.natAbs
              imgW := BitVec.ofNat 16 wW, imgH := BitVec.ofNat 16 wH, imgCol := 0, imgRow := 0
              imgRowBytes := BitVec.ofNat 32 ((w.toNat * 3 + 3) / 4 * 4), imgPixOff := s.arg 7
              imgActive := decide (0 < wW ∧ 0 < wH), err := .ok })

/-- IMG_BEGIN_GEN (spec/42_thresholder.md R188), with the clip of R182. -/
def Obligations.ImgBeginGenOpensOrRejects : Prop :=
  encode .imgBeginGen = 0x21000000 ∧
  ∀ (s : State) (x0 y0 wW wH w h : Nat), s.ready →
    x0 = ((s.arg 0).extractLsb' 0 16).toNat → y0 = ((s.arg 1).extractLsb' 0 16).toNat →
    w = (s.arg 2).toNat → h = (s.arg 3).toNat →
    wW = (if s.geom.logicalW ≤ x0 then 0 else min w (s.geom.logicalW - x0)) →
    wH = (if s.geom.logicalH ≤ y0 then 0 else min h (s.geom.logicalH - y0)) →
    exec .imgBeginGen s = .next
      (if w = 0 ∨ h = 0 ∨ 320 < w ∨ 65535 < h then s.failed .format
       else { s with
              imgMode := .generic, imgFlip := false
              imgX0 := (s.arg 0).extractLsb' 0 16, imgY0 := (s.arg 1).extractLsb' 0 16
              imgSrcW := BitVec.ofNat 16 w, imgSrcH := BitVec.ofNat 16 h
              imgW := BitVec.ofNat 16 wW, imgH := BitVec.ofNat 16 wH, imgCol := 0, imgRow := 0
              imgRowBytes := 0, imgPixOff := 0
              imgActive := decide (0 < wW ∧ 0 < wH), err := .ok })

/-- IMG_PIXEL_RGB into an open bitmap stream (spec/42_thresholder.md R183, R189, R192), and in a block of any BMP_T: there
it does, in every state, what this block does with a pixel that is black exactly when the channel sum does not exceed
BMP_T. -/
def Obligations.BitmapPushWritesAndAdvances : Prop :=
  (∀ (bmpT r g b : Nat) (s : State),
    execAt bmpT (.imgPixelRgb r g b) s = exec (.imgPixelRgb (if r + g + b > bmpT then 1 else 0) 0 0) s)
  ∧ ∀ (r g b : Nat) (s : State), s.cmdBusy = false → s.imgActive = true → s.imgMode = .bitmap → s.streamInWindow →
    ∃ t, exec (.imgPixelRgb r g b) s = .next t
      ∧ t = { s with store := t.store, imgCol := t.imgCol, imgRow := t.imgRow, imgActive := t.imgActive, err := .ok }
      ∧ (∃ i, s.geom.bitAt (s.imgX0.toNat + s.imgCol.toNat) (s.imgY0.toNat + s.imgRow.toNat) = some i
          ∧ ∀ j, t.store.bitRead j =
              if j = i then some (if r + g + b > 0 then .white else .black) else s.store.bitRead j)
      ∧ (s.imgCol.toNat + 1 < s.imgW.toNat →
          t.imgCol.toNat = s.imgCol.toNat + 1 ∧ t.imgRow = s.imgRow ∧ t.imgActive = true)
      ∧ (s.imgCol.toNat + 1 = s.imgW.toNat →
          t.imgCol = 0 ∧ t.imgRow.toNat = s.imgRow.toNat + 1
            ∧ t.imgActive = decide (s.imgRow.toNat + 1 ≠ s.imgH.toNat))

/-- IMG_PIXEL_565 into an open generic stream (spec/42_thresholder.md R184, R190, R192). -/
def Obligations.GenericPushWritesAndAdvances : Prop :=
  ∀ (v : Nat) (s : State), s.cmdBusy = false → s.imgActive = true → s.imgMode = .generic → s.streamInWindow →
    ∃ t, exec (.imgPixel565 v) s = .next t
      ∧ t = { s with store := t.store, imgCol := t.imgCol, imgRow := t.imgRow, imgActive := t.imgActive, err := .ok }
      ∧ (∃ i, s.geom.bitAt (s.imgX0.toNat + s.imgCol.toNat) (s.imgY0.toNat + s.imgRow.toNat) = some i
          ∧ ∀ j, t.store.bitRead j = if j = i then some (if v = 0 then .black else .white) else s.store.bitRead j)
      ∧ (s.imgCol.toNat + 1 < s.imgW.toNat →
          t.imgCol.toNat = s.imgCol.toNat + 1 ∧ t.imgRow = s.imgRow ∧ t.imgActive = true)
      ∧ (s.imgCol.toNat + 1 = s.imgW.toNat →
          t.imgCol = 0 ∧ t.imgRow.toNat = s.imgRow.toNat + 1
            ∧ t.imgActive = decide (s.imgRow.toNat + 1 ≠ s.imgH.toNat))

/-- A pixel push with no stream open, or with the other path's stream open, ends with STREAM
(spec/42_thresholder.md R189, R190). -/
def Obligations.PixelPushWithoutItsStreamFails : Prop :=
  ∀ (r g b v : Nat) (s : State), s.cmdBusy = false →
    (s.imgActive = false ∨ s.imgMode = .generic → exec (.imgPixelRgb r g b) s = .next (s.failed .stream))
    ∧ (s.imgActive = false ∨ s.imgMode = .bitmap → exec (.imgPixel565 v) s = .next (s.failed .stream))

/-- IMG_ABORT (spec/42_thresholder.md R191). -/
def Obligations.ImgAbortClosesTheStream : Prop :=
  encode .imgAbort = 0x24000000 ∧
  ∀ s : State, s.cmdBusy = false → exec .imgAbort s = .next { s with imgActive := false, err := .ok }

/-- IMG_ROW_OFF (spec/42_thresholder.md R186; spec/10_state.md R51). -/
def Obligations.RowOffsetAddressesTheStoredRow : Prop :=
  ∀ s : State, s.streamInWindow →
    (s.imgActive = true → s.imgMode = .bitmap → s.imgFlip = true →
      (readReg .imgRowOff s).toNat =
        (s.imgPixOff.toNat + (s.imgSrcH.toNat - 1 - s.imgRow.toNat) * s.imgRowBytes.toNat) % 2 ^ 32)
    ∧ (s.imgActive = true → s.imgMode = .bitmap → s.imgFlip = false →
      (readReg .imgRowOff s).toNat = (s.imgPixOff.toNat + s.imgRow.toNat * s.imgRowBytes.toNat) % 2 ^ 32)
    ∧ (s.imgActive = false ∨ s.imgMode = .generic → readReg .imgRowOff s = 0)

/-- Pushing a generic window's pixels in order fills it and closes the stream: pixel `n` is written at window column
`n mod IMG_W`, row `n div IMG_W`, and nothing else is written (spec/42_thresholder.md R180, R181, R192, R198). -/
def Obligations.GenericStreamFillsItsWindow : Prop :=
  ∀ (s : State) (vs : List Nat), s.cmdBusy = false → s.imgActive = true → s.imgMode = .generic → s.streamInWindow →
    s.imgCol = 0 → s.imgRow = 0 → vs.length = s.imgW.toNat * s.imgH.toNat →
    ∃ t, execAll (vs.map Instr.imgPixel565) s = .next t
      ∧ t = { s with store := t.store, imgRow := s.imgH, imgActive := false, err := .ok }
      ∧ (∀ n i, n < vs.length →
          s.geom.bitAt (s.imgX0.toNat + (n % s.imgW.toNat : Nat)) (s.imgY0.toNat + (n / s.imgW.toNat : Nat)) = some i →
          t.store.bitRead i = some (if vs.getD n 0 = 0 then .black else .white))
      ∧ ∀ i, (∀ n, n < vs.length →
          s.geom.bitAt (s.imgX0.toNat + (n % s.imgW.toNat : Nat)) (s.imgY0.toNat + (n / s.imgW.toNat : Nat)) ≠ some i) →
          t.store.bitRead i = s.store.bitRead i

/-! ### Snapshot view -/

/-- SnapData: FB_H stored rows, bottom-up, each padded to a multiple of 4 bytes, a known pixel expanded to three equal
bytes, padding 0x00 (spec/40_framebuffer.md R150 to R153). -/
def Obligations.SnapshotHoldsThePixelsBottomUp : Prop :=
  ∀ s : State, snapStride s.fbW.toNat % 4 = 0 ∧ s.snapData.length = s.fbH.toNat * snapStride s.fbW.toNat
    ∧ s.snapFileSize = 54 + s.fbH.toNat * snapStride s.fbW.toNat
    ∧ (∀ row px j c, row < s.fbH.toNat → px < s.fbW.toNat → j < 3 →
        s.store.bitRead ((s.fbH.toNat - 1 - row) * s.fbW.toNat + px) = some c →
        s.snapData[row * snapStride s.fbW.toNat + 3 * px + j]? = some (if c = .white then 0xFF else 0x00))
    ∧ ∀ row k, row < s.fbH.toNat → 3 * s.fbW.toNat ≤ k → k < snapStride s.fbW.toNat →
        s.snapData[row * snapStride s.fbW.toNat + k]? = some 0x00

/-- Streaming a snapshot of a framebuffer with no UNKNOWN pixel back through the bitmap path reproduces its pixels, for
every legal BMP_T (spec/42_thresholder.md R196; `RoundTrip`, over `execAt`, which is what a command does in a block whose
BMP_T is the number given). At the value 0 that this block takes (R183, spec/00_scope.md R8; log entry 14) that is `exec`. -/
def Obligations.SnapshotRoundTripReproducesThePixels : Prop :=
  (∀ (i : Instr) (s : State), execAt 0 i s = exec i s)
  ∧ ∀ bmpT : Nat, bmpT ≤ 764 → RoundTrip bmpT

/-! ### Display controller -/

/-- DC_INIT (spec/43_display_controller.md R226). -/
def Obligations.DcInitReinitialisesThePanel : Prop :=
  encode (.dcInit .landscape) = 0x30000000 ∧ encode (.dcInit .portrait) = 0x30000001 ∧
  ∀ (o : Orientation) (s : State), s.ready →
    exec (.dcInit o) s = .next
      { s with displayed := if s.pend = none then s.displayed else .allUnknown, pend := none, pram := .allUnknown,
               panelBusy := true, dcState := .init, orient := o, base := false, waited := false, err := .ok }

/-- DC_WAIT_IDLE's issue (spec/43_display_controller.md R227). -/
def Obligations.DcWaitIdleCompletesOrWaits : Prop :=
  encode .dcWaitIdle = 0x31000000 ∧
  ∀ s : State, s.ready →
    (s.panelBusy = false → exec .dcWaitIdle s = .next { s with waitCnt := 0, waited := true, err := .ok })
    ∧ (s.panelBusy = true → exec .dcWaitIdle s = .next { s with waitCnt := 0, cmdBusy := true })

/-- The poll tick of DC_WAIT_IDLE, for every value of the OPEN bound (spec/43_display_controller.md R228), and the end of
a wait that always finds the panel busy: TIMEOUT after exactly the bound, where the bound fits WAIT_CNT's 32 bits. The
wrap of WAIT_CNT at 32 bits, and so the limit on the bound, is the model's (log entry 5, DEDUCED). -/
def Obligations.WaitTimesOutAfterItsTicks : Prop :=
  ∀ (limit : Nat) (s : State), 1 ≤ limit → s.cmdBusy = true →
    (s.panelBusy = false → s.pollTick limit = { s with cmdBusy := false, waited := true, err := .ok })
    ∧ (s.panelBusy = true → limit ≤ s.waitCnt.toNat + 1 →
        s.pollTick limit = State.failed .timeout { s with waitCnt := s.waitCnt + 1, cmdBusy := false })
    ∧ (s.panelBusy = true → s.waitCnt.toNat + 1 < limit → s.pollTick limit = { s with waitCnt := s.waitCnt + 1 })
    ∧ (limit < 2 ^ 32 → s.panelBusy = true → s.waitCnt = 0 →
        (∀ n, n < limit → (State.pollTick limit)^[n] s = { s with waitCnt := BitVec.ofNat 32 n })
        ∧ (State.pollTick limit)^[limit] s =
            State.failed .timeout { s with waitCnt := BitVec.ofNat 32 limit, cmdBusy := false })

/-- DC_WRITE_BASE (spec/43_display_controller.md R229). -/
def Obligations.DcWriteBaseRefreshesWhiteAndSetsBase : Prop :=
  encode .dcWriteBase = 0x32000000 ∧
  ∀ s : State, s.ready → s.rejectsFrameOp .dcWriteBase ∧ (s.frameReady →
    ∃ t, exec .dcWriteBase s = .next t ∧ (∀ i, i < 40000 → t.pram.bitRead i = some .white)
      ∧ t = { s with pram := t.pram, pend := some ⟨t.pram, .full⟩, panelBusy := true, waited := false,
                     dcState := .active, lastRefresh := some .full, base := true, err := .ok })

/-- DC_SET_FRAME_MEMORY (spec/43_display_controller.md R224, R230). -/
def Obligations.DcSetFrameMemoryLoadsTheRegion : Prop :=
  encode .dcSetFrameMemory = 0x33000000 ∧
  ∀ (s : State) (x y w h : Nat), s.ready →
    x = ((s.arg 0).extractLsb' 0 16).toNat → y = ((s.arg 1).extractLsb' 0 16).toNat →
    w = ((s.arg 2).extractLsb' 0 16).toNat → h = ((s.arg 3).extractLsb' 0 16).toNat →
    s.rejectsFrameOp .dcSetFrameMemory
    ∧ (s.frameReady → ¬ (x % 8 = 0 ∧ w % 8 = 0) → exec .dcSetFrameMemory s = .next (s.failed .align))
    ∧ (s.frameReady → x % 8 = 0 ∧ w % 8 = 0 →
        ∃ t, exec .dcSetFrameMemory s = .next t ∧ t = { s with pram := t.pram, err := .ok }
          ∧ ∀ r c, r < 200 → c < 200 → t.pram.bitRead (r * 200 + c) =
              if (y ≤ r ∧ r < y + h ∧ r - y < s.fbH.toNat) ∧ (x ≤ c ∧ c < x + w ∧ c - x < s.fbW.toNat)
              then s.store.bitRead ((r - y) * s.fbW.toNat + (c - x)) else s.pram.bitRead (r * 200 + c))

/-- DC_DISPLAY_FRAME (spec/43_display_controller.md R225, R231). -/
def Obligations.DcDisplayFrameTriggersAFullRefresh : Prop :=
  encode .dcDisplayFrame = 0x34000000 ∧
  ∀ s : State, s.ready → s.rejectsFrameOp .dcDisplayFrame ∧ (s.frameReady →
    exec .dcDisplayFrame s = .next
      { s with pend := some ⟨s.pram, .full⟩, panelBusy := true, waited := false, dcState := .active,
               lastRefresh := some .full, err := .ok })

/-- DC_DISPLAY_PART (spec/43_display_controller.md R224, R225, R232). -/
def Obligations.DcDisplayPartLoadsAndTriggers : Prop :=
  encode (.dcDisplayPart .whole) = 0x35000000 ∧ encode (.dcDisplayPart .region) = 0x35000001 ∧
  ∀ (p : PartRegion) (s : State) (x y w h : Nat), s.ready →
    (p = .whole → x = 0 ∧ y = 0 ∧ w = s.fbW.toNat ∧ h = s.fbH.toNat) →
    (p = .region → x = ((s.arg 0).extractLsb' 0 16).toNat ∧ y = ((s.arg 1).extractLsb' 0 16).toNat
      ∧ w = ((s.arg 2).extractLsb' 0 16).toNat ∧ h = ((s.arg 3).extractLsb' 0 16).toNat) →
    s.rejectsFrameOp (.dcDisplayPart p)
    ∧ (s.frameReady → s.base = false → exec (.dcDisplayPart p) s = .next (s.failed .noBase))
    ∧ (s.frameReady → s.base = true → ¬ (x % 8 = 0 ∧ w % 8 = 0) → exec (.dcDisplayPart p) s = .next (s.failed .align))
    ∧ (s.frameReady → s.base = true → x % 8 = 0 ∧ w % 8 = 0 →
        ∃ t, exec (.dcDisplayPart p) s = .next t
          ∧ t = { s with pram := t.pram, pend := some ⟨t.pram, .part⟩, panelBusy := true, waited := false,
                         dcState := .active, lastRefresh := some .part, err := .ok }
          ∧ ∀ r c, r < 200 → c < 200 → t.pram.bitRead (r * 200 + c) =
              if (y ≤ r ∧ r < y + h ∧ r - y < s.fbH.toNat) ∧ (x ≤ c ∧ c < x + w ∧ c - x < s.fbW.toNat)
              then s.store.bitRead ((r - y) * s.fbW.toNat + (c - x)) else s.pram.bitRead (r * 200 + c))

/-- DC_SLEEP (spec/43_display_controller.md R233). -/
def Obligations.DcSleepLosesPanelMemoryOnly : Prop :=
  encode .dcSleep = 0x36000000 ∧
  ∀ s : State, s.ready → s.rejectsFrameOp .dcSleep ∧ (s.frameReady →
    exec .dcSleep s = .next { s with dcState := .sleep, waited := false, pram := .allUnknown, err := .ok })

/-- DC_CLEAR (spec/43_display_controller.md R234). -/
def Obligations.DcClearRefreshesWhiteAndDropsBase : Prop :=
  encode .dcClear = 0x37000000 ∧
  ∀ s : State, s.ready → s.rejectsFrameOp .dcClear ∧ (s.frameReady →
    ∃ t, exec .dcClear s = .next t ∧ (∀ i, i < 40000 → t.pram.bitRead i = some .white)
      ∧ t = { s with pram := t.pram, pend := some ⟨t.pram, .full⟩, panelBusy := true, waited := false,
                     dcState := .active, lastRefresh := some .full, base := false, err := .ok })

/-- The checks of a frame operation, in their order (spec/43_display_controller.md R223). -/
def Obligations.FrameOperationChecksInOrder : Prop :=
  ∀ (i : Instr) (s : State), isFrameOp i = true → s.ready →
    s.rejectsFrameOp i
    ∧ ((s.dcState = .init ∨ s.dcState = .active) → s.waited = true →
        ∀ p, i = .dcDisplayPart p → s.base = false → exec i s = .next (s.failed .noBase))
    ∧ ((s.dcState = .init ∨ s.dcState = .active) → s.waited = true →
        ∀ p, i = .dcDisplayPart p → s.base = true → (s.partRegion p).aligned = false →
          exec i s = .next (s.failed .align))
    ∧ ((s.dcState = .init ∨ s.dcState = .active) → s.waited = true → i = .dcSetFrameMemory →
        s.argRegion.aligned = false → exec i s = .next (s.failed .align))

/-- DC_STATE's transitions (spec/43_display_controller.md R221). -/
def Obligations.DcStateFollowsItsTransitionTable : Prop :=
  (∀ (i : Instr) (s t : State), s.cmdBusy = false → exec i s = .next t →
    t.dcState = if t.err = .ok then dcStateAfter i s.dcState else s.dcState)
  ∧ ∀ (i : Instr) (s : State), isFrameOp i = true → s.ready → s.dcState = .uninit ∨ s.dcState = .sleep →
      exec i s = .next (s.failed .state)

/-- The panel's busy fall (spec/43_display_controller.md R240). -/
def Obligations.BusyFallShowsThePendingImage : Prop :=
  ∀ s : State, s.panelBusy = true →
    (s.pend = none → s.busyFall = { s with panelBusy := false })
    ∧ ∀ p, s.pend = some p → s.busyFall = { s with panelBusy := false, displayed := p.image, pend := none }

/-- A full refresh shows PRAM as it stood at the trigger, whatever is drawn before the busy fall
(spec/20_memory.md R90; spec/43_display_controller.md R225, R240). -/
def Obligations.RefreshShowsTheImageOfItsTrigger : Prop :=
  ∀ (s t u : State) (is : List Instr), s.frameReady → exec .dcDisplayFrame s = .next t →
    (∀ i ∈ is, isDisplayCommand i = false) → execAll is t = .next u →
    u.busyFall.displayed = s.pram ∧ u.busyFall.panelBusy = false ∧ u.busyFall.pend = none

/-- A partial refresh needs a base image, which only DC_WRITE_BASE gives and DC_INIT and DC_CLEAR take away
(spec/43_display_controller.md R226, R229, R232, R234, R242). -/
def Obligations.PartialRefreshNeedsABaseImage : Prop :=
  ∀ (i : Instr) (s t : State), exec i s = .next t →
    (t.lastRefresh = some .part → s.lastRefresh = some .part ∨ (∃ p, i = .dcDisplayPart p) ∧ s.base = true)
    ∧ (t.pend ≠ s.pend → (∃ img, t.pend = some ⟨img, .part⟩) →
        (∃ p, i = .dcDisplayPart p) ∧ s.base = true)
    ∧ (t.base = true → s.base = true ∨ i = .dcWriteBase ∧ t.err = .ok)
    ∧ (s.cmdBusy = false → t.err = .ok → ((∃ o, i = .dcInit o) ∨ i = .dcClear) → t.base = false)

/-- No refresh, transfer or sleep is started while the panel is busy (spec/43_display_controller.md R243). -/
def Obligations.FrameOperationNeedsAnIdlePanel : Prop :=
  ∀ (i : Instr) (s t : State), isFrameOp i = true → s.waitedMeansIdle → s.cmdBusy = false → exec i s = .next t →
    t.err = .ok → s.waited = true ∧ s.panelBusy = false

/-! ### Invariants -/

/-- WAITED = 1 implies PANEL_BUSY = 0, at reset and after every step (spec/10_state.md R62). -/
def Obligations.WaitedImpliesIdlePanel : Prop :=
  State.reset.waitedMeansIdle ∧ ∀ s t : State, s.waitedMeansIdle → step s = .next t → t.waitedMeansIdle

/-- FB_W * FB_H stays within the capacity, at reset and after every step (spec/10_state.md R63). -/
def Obligations.DimensionsStayWithinCapacity : Prop :=
  State.reset.capacityKept ∧ ∀ s t : State, s.capacityKept → step s = .next t → t.capacityKept

/-- An open stream's cursor stays in its window and the window in the framebuffer, at reset and after every step
(spec/10_state.md R64; spec/42_thresholder.md R198). -/
def Obligations.StreamCursorStaysInItsWindow : Prop :=
  State.reset.streamInWindow ∧ (∀ s t : State, s.streamInWindow → step s = .next t → t.streamInWindow)
  ∧ ∀ s : State, s.streamInWindow → s.imgActive = true →
      s.imgRow.toNat < s.imgH.toNat ∧ s.imgCol.toNat < s.imgW.toNat ∧ 1 ≤ s.imgW.toNat ∧ 1 ≤ s.imgH.toNat

/-- The machine's invariant holds right after reset. -/
def Obligations.InvariantHoldsAtReset : Prop := State.reset.Inv

/-- Every step keeps the machine's invariant, from every state that has it. -/
def Obligations.EveryStepKeepsTheInvariant : Prop :=
  ∀ s t : State, s.Inv → step s = .next t → t.Inv

/-! ### The bus -/

/-- Register accesses. At its offset in the map (spec/20_memory.md R71) a read returns the register and changes nothing of
the block (R72, R76, R77); that the value read is held in a field is the model's choice (log entry 9). What each register
reads, field by field (spec/10_state.md R31, R39 to R41, R45 to R50, R61; STATUS and IMG_ROW_OFF have statements of their
own). A write to CMD issues its word (spec/20_memory.md R76), and a write of an argument register takes effect at once, in
every state (spec/10_state.md R40). -/
def Obligations.RegisterAccessesReadAndWrite : Prop :=
  (∀ (r : Reg) (off : Offset) (s : State),
    (r, off) ∈ [ (Reg.cmd, 0x000#14), (.status, 0x004), (.result, 0x008), (.fbDim, 0x00C), (.arg 0, 0x010)
      , (.arg 1, 0x014), (.arg 2, 0x018), (.arg 3, 0x01C), (.arg 4, 0x020), (.arg 5, 0x024), (.arg 6, 0x028)
      , (.arg 7, 0x02C), (.imgCfg, 0x030), (.imgOrigin, 0x034), (.imgSrcDim, 0x038), (.imgDim, 0x03C)
      , (.imgPos, 0x040), (.imgRowBytes, 0x044), (.imgPixOff, 0x048), (.imgRowOff, 0x04C), (.waitCnt, 0x050) ] →
    s.busRead off 4 = { s with busData := readReg r s })
  ∧ (∀ s : State, readReg .cmd s = 0 ∧ readReg .status s = statusWord s ∧ (∀ i, readReg (.arg i) s = s.arg i)
    ∧ (readReg .result s).getLsbD 0 = decide (s.resultColor = .white) ∧ (readReg .result s).getLsbD 1 = s.resultValid
    ∧ (readReg .result s).extractLsb' 2 30 = 0
    ∧ (readReg .fbDim s).extractLsb' 0 16 = s.fbW ∧ (readReg .fbDim s).extractLsb' 16 16 = s.fbH
    ∧ (readReg .imgCfg s).getLsbD 0 = decide (s.imgMode = .generic) ∧ (readReg .imgCfg s).getLsbD 1 = s.imgFlip
    ∧ (readReg .imgCfg s).extractLsb' 2 30 = 0
    ∧ (readReg .imgOrigin s).extractLsb' 0 16 = s.imgX0 ∧ (readReg .imgOrigin s).extractLsb' 16 16 = s.imgY0
    ∧ (readReg .imgSrcDim s).extractLsb' 0 16 = s.imgSrcW ∧ (readReg .imgSrcDim s).extractLsb' 16 16 = s.imgSrcH
    ∧ (readReg .imgDim s).extractLsb' 0 16 = s.imgW ∧ (readReg .imgDim s).extractLsb' 16 16 = s.imgH
    ∧ (readReg .imgPos s).extractLsb' 0 16 = s.imgCol ∧ (readReg .imgPos s).extractLsb' 16 16 = s.imgRow
    ∧ readReg .imgRowBytes s = s.imgRowBytes ∧ readReg .imgPixOff s = s.imgPixOff ∧ readReg .waitCnt s = s.waitCnt)
  ∧ (∀ (v : Word) (s : State), s.busWrite 0x000 4 v = issueWord v s)
  ∧ ∀ (i : Fin 8) (v : Word) (s : State),
      ∃ t, s.busWrite (BitVec.ofNat 14 (0x010 + 4 * i.val)) 4 v = .next t ∧ t = { s with args := t.args }
        ∧ readReg (.arg i) t = v ∧ ∀ j, j ≠ i → readReg (.arg j) t = readReg (.arg j) s

/-- Refused accesses: any width or offset that the map does not allow, and writes of read-only registers
(spec/20_memory.md R74, R75). -/
def Obligations.RefusedAccessesSetBuserrOnly : Prop :=
  (∀ (off : Offset) (n : Nat) (s : State), ¬ (n = 4 ∧ off.toNat % 4 = 0 ∧ off.toNat ≤ 0x050) →
    ¬ (n = 1 ∧ 0x1000 ≤ off.toNat ∧ off.toNat ≤ 0x2387) →
    s.busRead off n = { s with busErr := true, busData := 0 }
      ∧ ∀ v, s.busWrite off n v = .next { s with busErr := true })
  ∧ ∀ (off : Offset) (v : Word) (s : State), off.toNat % 4 = 0 → off.toNat ≤ 0x050 → off.toNat ≠ 0x000 →
      ¬ (0x010 ≤ off.toNat ∧ off.toNat ≤ 0x02C) → s.busWrite off 4 v = .next { s with busErr := true }

/-- The framebuffer window, MSB first (spec/20_memory.md R78, R79); an UNKNOWN bit reads as either value. That the byte
read is held in bits 7:0 of a field whose other bits are 0, and that a one-byte write takes the low byte of its value, are
the model's (log entries 9, DESIGN CHOICE, and 10, DEDUCED). -/
def Obligations.WindowBytesAreMsbFirst : Prop :=
  ∀ (k : Nat) (s : State), k < 5000 →
    (∃ t, t = s.busRead (BitVec.ofNat 14 (0x1000 + k)) 1 ∧ t = { s with busData := t.busData, draws := t.draws }
      ∧ (∀ b c, b < 8 → s.store.bitRead (8 * k + (7 - b)) = some c → t.busData.getLsbD b = decide (c = .white))
      ∧ ∀ b, 8 ≤ b → t.busData.getLsbD b = false)
    ∧ ∀ v : Word, ∃ t, s.busWrite (BitVec.ofNat 14 (0x1000 + k)) 1 v = .next t ∧ t = { s with store := t.store }
        ∧ ∀ i, t.store.bitRead i =
            if i / 8 = k then some (if v.getLsbD (7 - i % 8) then .white else .black) else s.store.bitRead i

/-- The fields of STATUS and the numbers in them (spec/10_state.md R32, R42, R56, R60; spec/60_exceptions.md R273). -/
def Obligations.StatusWordHasItsLayout : Prop :=
  [StatusCode.ok, .illegal, .capacity, .format, .stream, .streamActive, .state, .noWait, .noBase, .align,
    .timeout].map StatusCode.code = List.range 11
  ∧ [DcState.uninit, .init, .active, .sleep].map DcState.code = [0, 1, 2, 3]
  ∧ [none, some RefreshKind.full, some .part].map lastRefreshCode = [0, 1, 2]
  ∧ [Rotation.rot0, .rot90, .rot180, .rot270].map Rotation.code = [0, 1, 2, 3]
  ∧ ∀ s : State, (statusWord s).getLsbD 0 = s.cmdBusy ∧ (statusWord s).getLsbD 1 = s.imgActive
    ∧ (statusWord s).getLsbD 2 = s.ovr ∧ (statusWord s).getLsbD 3 = s.busErr ∧ (statusWord s).getLsbD 4 = s.stickyErr
    ∧ bitField (statusWord s) 5 3 = 0 ∧ bitField (statusWord s) 8 4 = s.err.code
    ∧ bitField (statusWord s) 12 2 = s.dcState.code ∧ (statusWord s).getLsbD 14 = s.orient.toBit
    ∧ (statusWord s).getLsbD 15 = s.base ∧ (statusWord s).getLsbD 16 = s.waited
    ∧ (statusWord s).getLsbD 17 = s.panelBusy ∧ bitField (statusWord s) 18 2 = lastRefreshCode s.lastRefresh
    ∧ bitField (statusWord s) 20 2 = s.rot.code ∧ bitField (statusWord s) 22 10 = 0

/-- The state after reset (spec/70_reset_and_hazards.md R301), whatever PANEL_BUSY is. -/
def Obligations.ResetGivesTheTabledValues : Prop :=
  ∀ s : State, (s = State.reset ∨ ∃ u : State, s = u.powerOnReset) →
    (statusWord s = 0x00000000 ∨ statusWord s = 0x00020000) ∧ readReg .cmd s = 0 ∧ readReg .result s = 0
    ∧ (∀ i, readReg (.arg i) s = 0) ∧ readReg .fbDim s = 0x00C800C8 ∧ readReg .imgCfg s = 0 ∧ readReg .imgOrigin s = 0
    ∧ readReg .imgSrcDim s = 0 ∧ readReg .imgDim s = 0 ∧ readReg .imgPos s = 0 ∧ readReg .imgRowBytes s = 0
    ∧ readReg .imgPixOff s = 0 ∧ readReg .imgRowOff s = 0 ∧ readReg .waitCnt s = 0 ∧ s.rot = .rot0
    ∧ (∀ i, s.store.bitRead i = none) ∧ (∀ i, s.pram.bitRead i = none) ∧ (∀ i, s.displayed.bitRead i = none)
    ∧ s.pend = none ∧ s.dcState = .uninit ∧ s.orient = .landscape ∧ s.base = false ∧ s.waited = false
    ∧ s.lastRefresh = none ∧ s.waitedMeansIdle ∧ s.capacityKept ∧ s.streamInWindow
end

