-- ==== Sys2Proof/Laws/Memory.lean ====
section
/-! SUPPORT. What the operations over byte lists and pixel stores do: one read-after-write lemma for each operation, and
that each keeps the canonical form. They hold of every store, canonical or not, unless a hypothesis says otherwise. -/

namespace Sys2Proof.Machine

/-! ### Byte lists -/

theorem cellGet_filter (m : List Host.Cell) (p : Nat → Bool) (a : Nat) :
    cellGet (m.filter (fun c => p c.1)) a = if p a then cellGet m a else 0 := by
  induction m with
  | nil => simp [cellGet]
  | cons c m ih =>
    obtain ⟨k, v⟩ := c
    rw [List.filter_cons]
    by_cases hk : k = a
    · subst hk
      by_cases hp : p k <;> simp [cellGet, hp, ih]
    · by_cases hp : p k <;> simp [cellGet, hp, hk, ih]

theorem cellGet_append (m n : List Host.Cell) (a : Nat) :
    cellGet (m ++ n) a = if m.any (fun c => c.1 == a) then cellGet m a else cellGet n a := by
  induction m with
  | nil => simp
  | cons c m ih =>
    obtain ⟨k, v⟩ := c
    by_cases hk : k = a
    · subst hk; simp [cellGet]
    · simp [cellGet, hk, ih]

theorem cellGet_cellInsert (m : List Host.Cell) (a b : Nat) (v : Byte) :
    cellGet (cellInsert m a v) b = if a = b then v else cellGet m b := by
  induction m with
  | nil => simp [cellInsert, cellGet]
  | cons c m ih =>
    obtain ⟨k, w⟩ := c
    simp only [cellInsert]
    split
    · simp [cellGet]
    · split
      · rename_i h; subst h
        by_cases hb : a = b <;> simp [cellGet, hb]
      · simp only [cellGet, ih]
        by_cases hk : k = b
        · have : a ≠ b := by omega
          simp [hk, this]
        · simp [hk]

/-- A read after a write of a byte. -/
theorem cellGet_cellPut (m : List Host.Cell) (a b : Nat) (v : Byte) :
    cellGet (cellPut m a v) b = if a = b then v else cellGet m b := by
  unfold cellPut
  split
  · rename_i h
    rw [cellGet_filter m (fun k => k != a)]
    by_cases hb : a = b
    · simp [hb, h]
    · have : b ≠ a := fun h => hb h.symm
      simp [hb, this]
  · exact cellGet_cellInsert m a b v

theorem mem_cellsFrom {f : Nat → Byte} {n k : Nat} {c : Host.Cell} (h : c ∈ cellsFrom f n k) :
    (k ≤ c.1 ∧ c.1 < k + n) ∧ c.2 ≠ 0 := by
  induction n generalizing k with
  | zero => simp [cellsFrom] at h
  | succ n ih =>
    simp only [cellsFrom] at h
    split at h
    · have := ih h; exact ⟨by omega, this.2⟩
    · rename_i hf
      rcases List.mem_cons.1 h with rfl | h
      · exact ⟨by simp, hf⟩
      · have := ih h; exact ⟨by omega, this.2⟩

theorem pairwise_cellsFrom (f : Nat → Byte) (n k : Nat) :
    (cellsFrom f n k).Pairwise (fun a b => a.1 < b.1) := by
  induction n generalizing k with
  | zero => exact List.Pairwise.nil
  | succ n ih =>
    simp only [cellsFrom]
    split
    · exact ih _
    · refine List.pairwise_cons.2 ⟨fun c hc => ?_, ih _⟩
      have := (mem_cellsFrom hc).1.1
      show k < c.1
      omega

/-- A read of listed bytes. -/
theorem cellGet_cellsFrom (f : Nat → Byte) (n k a : Nat) :
    cellGet (cellsFrom f n k) a = if k ≤ a ∧ a < k + n then f a else 0 := by
  induction n generalizing k with
  | zero => simp [cellsFrom, cellGet]
  | succ n ih =>
    simp only [cellsFrom]
    by_cases hk : k = a
    · subst hk
      split
      · rename_i hf; rw [ih, hf]; simp
      · simp [cellGet]
    · have hiff : (k ≤ a ∧ a < k + (n + 1)) ↔ (k + 1 ≤ a ∧ a < k + 1 + n) := by omega
      split
      · rw [ih]; simp only [hiff]
      · simp only [cellGet, hk, if_false, ih, hiff]

/-- A read after a fill. -/
theorem cellGet_cellFill (m : List Host.Cell) (n a : Nat) (v : Byte) :
    cellGet (cellFill m n v) a = if a < n then v else cellGet m a := by
  unfold cellFill
  rw [cellGet_append, cellGet_filter m (fun k => decide (n ≤ k))]
  have hnil : ∀ l : List Host.Cell, l.any (fun c => c.1 == a) = false → cellGet l a = 0 := by
    intro l hl
    induction l with
    | nil => rfl
    | cons c l ih =>
      obtain ⟨k, w⟩ := c
      simp only [List.any_cons, Bool.or_eq_false_iff, beq_eq_false_iff_ne, ne_eq] at hl
      simp [cellGet, hl.1, ih hl.2]
  have hget := cellGet_cellsFrom (fun _ => v) n 0 a
  by_cases hv : v = 0#8
  · by_cases ha : a < n
    · have : ¬ n ≤ a := by omega
      simp [hv, ha, this]
    · have : n ≤ a := by omega
      simp [hv, ha, this]
  · simp only [Nat.zero_le, true_and, Nat.zero_add] at hget
    cases hany : (cellsFrom (fun _ => v) n 0).any (fun c => c.1 == a) with
    | true =>
      have ha : a < n := by
        by_contra hna
        obtain ⟨c, hc, hca⟩ := List.any_eq_true.1 hany
        have := (mem_cellsFrom hc).1
        simp only [beq_iff_eq] at hca
        omega
      simp only [ha, if_true] at hget
      simp [hv, hany, hget, ha]
    | false =>
      have ha : ¬ a < n := by
        intro ha
        rw [hnil _ hany] at hget
        simp only [ha, if_true] at hget
        exact hv hget.symm
      have hna : n ≤ a := by omega
      simp [hv, hany, ha, hna]

/-- A read of a plane made from its bits. -/
theorem cellGet_planeOf (g : Nat → Bool) (k : Nat) :
    cellGet (planeOf g) k = if k < Config.backingBytes then packByte (fun j => g (8 * k + j)) else 0 := by
  unfold planeOf
  rw [cellGet_cellsFrom]
  simp

/-! ### The canonical form of byte lists -/

theorem cellsWf_iff (m : List Host.Cell) :
    cellsWf m = true ↔
      m.Pairwise (fun a b => a.1 < b.1) ∧ ∀ c ∈ m, c.2 ≠ 0 ∧ c.1 < Config.backingBytes := by
  simp [cellsWf]

theorem mem_cellInsert {m : List Host.Cell} {a : Nat} {v : Byte} {c : Host.Cell} (h : c ∈ cellInsert m a v) :
    c = (a, v) ∨ c ∈ m := by
  induction m with
  | nil => simpa [cellInsert] using h
  | cons d m ih =>
    obtain ⟨k, w⟩ := d
    simp only [cellInsert] at h
    split at h
    · simpa using h
    · split at h
      · rcases List.mem_cons.1 h with h | h
        · exact .inl h
        · exact .inr (List.mem_cons_of_mem _ h)
      · rcases List.mem_cons.1 h with h | h
        · exact .inr (h ▸ List.mem_cons_self)
        · exact (ih h).imp id (List.mem_cons_of_mem _)

theorem pairwise_cellInsert {m : List Host.Cell} (h : m.Pairwise (fun a b => a.1 < b.1)) (a : Nat) (v : Byte) :
    (cellInsert m a v).Pairwise (fun a b => a.1 < b.1) := by
  induction m with
  | nil => simp [cellInsert]
  | cons d m ih =>
    obtain ⟨k, w⟩ := d
    obtain ⟨hk, hm⟩ := List.pairwise_cons.1 h
    simp only [cellInsert]
    split
    · rename_i hlt
      refine List.pairwise_cons.2 ⟨fun c hc => ?_, h⟩
      rcases List.mem_cons.1 hc with hc | hc
      · subst hc; exact hlt
      · exact Nat.lt_trans hlt (hk c hc)
    · split
      · rename_i he; subst he
        exact List.pairwise_cons.2 ⟨hk, hm⟩
      · refine List.pairwise_cons.2 ⟨fun c hc => ?_, ih hm⟩
        rcases mem_cellInsert hc with hc | hc
        · subst hc; show k < a; omega
        · exact hk c hc

/-- Storing a byte at an address that exists keeps the canonical form. -/
theorem cellsWf_cellPut {m : List Host.Cell} (h : cellsWf m) {a : Nat} (ha : a < Config.backingBytes) (v : Byte) :
    cellsWf (cellPut m a v) := by
  obtain ⟨hs, hc⟩ := (cellsWf_iff m).1 h
  refine (cellsWf_iff _).2 ?_
  unfold cellPut
  split
  · exact ⟨hs.filter _, fun c hcm => hc c (List.mem_of_mem_filter hcm)⟩
  · rename_i hv
    refine ⟨pairwise_cellInsert hs a v, fun c hcm => ?_⟩
    rcases mem_cellInsert hcm with rfl | hcm
    · exact ⟨hv, ha⟩
    · exact hc c hcm

/-- Filling addresses that exist keeps the canonical form. -/
theorem cellsWf_cellFill {m : List Host.Cell} (h : cellsWf m) {n : Nat} (hn : n ≤ Config.backingBytes) (v : Byte) :
    cellsWf (cellFill m n v) := by
  obtain ⟨hs, hc⟩ := (cellsWf_iff m).1 h
  unfold cellFill
  refine (cellsWf_iff _).2 ⟨?_, fun c hcm => ?_⟩
  · refine List.pairwise_append.2 ⟨?_, hs.filter _, fun a ha b hb => ?_⟩
    · split
      · exact List.Pairwise.nil
      · exact pairwise_cellsFrom _ _ _
    · split at ha
      · simp at ha
      · have h1 := (mem_cellsFrom ha).1.2
        have := (List.mem_filter.1 hb).2
        simp only [decide_eq_true_eq] at this
        omega
  · rcases List.mem_append.1 hcm with hcm | hcm
    · split at hcm
      · simp at hcm
      · have := mem_cellsFrom hcm
        exact ⟨this.2, by omega⟩
    · exact hc c (List.mem_of_mem_filter hcm)

/-- A plane made from its bits is canonical. -/
theorem cellsWf_planeOf (g : Nat → Bool) : cellsWf (planeOf g) := by
  unfold planeOf
  refine (cellsWf_iff _).2 ⟨pairwise_cellsFrom _ _ _, fun c hcm => ?_⟩
  have := mem_cellsFrom hcm
  exact ⟨this.2, by omega⟩

theorem cellGet_of_not_mem {m : List Host.Cell} {a : Nat} (h : ∀ c ∈ m, c.1 ≠ a) : cellGet m a = 0 := by
  induction m with
  | nil => rfl
  | cons c m ih =>
    obtain ⟨k, v⟩ := c
    have hk : k ≠ a := h (k, v) List.mem_cons_self
    simp [cellGet, hk, ih (fun c hc => h c (List.mem_cons_of_mem _ hc))]

theorem cellGet_of_mem {m : List Host.Cell} (hs : m.Pairwise (fun a b => a.1 < b.1)) {c : Host.Cell} (h : c ∈ m) :
    cellGet m c.1 = c.2 := by
  induction m with
  | nil => simp at h
  | cons d m ih =>
    obtain ⟨k, v⟩ := d
    obtain ⟨hk, hm⟩ := List.pairwise_cons.1 hs
    rcases List.mem_cons.1 h with rfl | h
    · simp [cellGet]
    · have : k ≠ c.1 := Nat.ne_of_lt (hk c h)
      simp [cellGet, this, ih hm h]

/-- A canonical list has no byte above the backing store. -/
theorem cellGet_of_ge {m : List Host.Cell} (h : cellsWf m) {a : Nat} (ha : Config.backingBytes ≤ a) : cellGet m a = 0 :=
  cellGet_of_not_mem fun c hc => by
    have := (((cellsWf_iff m).1 h).2 c hc).2
    omega

/-- Two canonical lists that read the same at every address are the same data. -/
theorem cells_eq_of_cellGet_eq {m n : List Host.Cell} (hm : cellsWf m) (hn : cellsWf n)
    (h : ∀ a, cellGet m a = cellGet n a) : m = n := by
  obtain ⟨sm, cm⟩ := (cellsWf_iff m).1 hm
  obtain ⟨sn, cn⟩ := (cellsWf_iff n).1 hn
  have key : ∀ {p q : List Host.Cell}, p.Pairwise (fun a b => a.1 < b.1) → (∀ c ∈ p, c.2 ≠ 0) →
      (∀ a, cellGet p a = cellGet q a) → ∀ c ∈ p, c ∈ q := by
    intro p q sp cp hpq c hc
    by_contra hnot
    have h1 := cellGet_of_mem sp hc
    rw [hpq] at h1
    have : ∃ d ∈ q, d.1 = c.1 := by
      by_contra hno
      have hz : cellGet q c.1 = 0 := cellGet_of_not_mem fun d hd he => hno ⟨d, hd, he⟩
      exact cp c hc (h1.symm.trans hz)
    obtain ⟨d, hd, hdc⟩ := this
    have h2 : cellGet q d.1 = d.2 ∨ ∃ e ∈ q, e.1 = d.1 ∧ cellGet q d.1 = e.2 := by
      clear hpq h1 hnot
      induction q with
      | nil => simp at hd
      | cons e q ih =>
        obtain ⟨k, v⟩ := e
        by_cases hk : k = d.1
        · exact .inr ⟨(k, v), List.mem_cons_self, hk, by simp [cellGet, hk]⟩
        · rcases List.mem_cons.1 hd with hd | hd
          · exact absurd (congrArg Prod.fst hd).symm hk
          · rcases ih hd with h | ⟨e, he, h⟩
            · exact .inl (by simpa [cellGet, hk] using h)
            · exact .inr ⟨e, List.mem_cons_of_mem _ he, by simpa [cellGet, hk] using h⟩
    rcases h2 with h2 | ⟨e, he, hed, h2⟩
    · exact hnot (by rw [← Prod.mk.eta (p := c), ← hdc, ← h1, ← hdc, h2]; exact hd)
    · exact hnot (by rw [← Prod.mk.eta (p := c), ← h1, ← hdc, h2, ← hed]; exact he)
  have hsub : ∀ c, c ∈ m ↔ c ∈ n := fun c =>
    ⟨key sm (fun c hc => (cm c hc).1) h c, key sn (fun c hc => (cn c hc).1) (fun a => (h a).symm) c⟩
  have nodup : ∀ {p : List Host.Cell}, p.Pairwise (fun a b => a.1 < b.1) → p.Nodup :=
    fun hp => hp.imp (fun hab heq => by rw [heq] at hab; exact Nat.lt_irrefl _ hab)
  have hperm : m.Perm n := (List.perm_ext_iff_of_nodup (nodup sm) (nodup sn)).2 hsub
  exact hperm.eq_of_pairwise (fun a b _ _ hab hba => absurd (Nat.lt_trans hab hba) (Nat.lt_irrefl _)) sm sn

/-! ### Bits of a byte -/

theorem getLsbD_byteSetBit (v : Byte) (b : Nat) (x : Bool) (j : Nat) (hb : b < 8) :
    (byteSetBit v b x).getLsbD j = if j = b then x else v.getLsbD j := by
  unfold byteSetBit
  by_cases hj : j = b
  · subst hj
    cases x <;> simp [hb]
  · cases x
    · by_cases hj8 : j < 8
      · by_cases hlt : j < b
        · simp [hj, hj8, hlt]
        · have h1 : j - b ≠ 0 := by omega
          simp [hj, hj8, h1]
      · simp [hj, BitVec.getLsbD_of_ge v j (by omega)]
    · by_cases hj8 : j < 8
      · have h2 : (1#8 <<< b).getLsbD j = false := by
          rw [BitVec.getLsbD_shiftLeft]
          by_cases hlt : j < b
          · simp [hlt]
          · have h1 : j - b ≠ 0 := by omega
            simp [hj8, hlt, BitVec.getLsbD_one, h1]
        simp [hj, h2]
      · simp [hj, BitVec.getLsbD_of_ge v j (by omega)]
        intro h; omega

theorem getLsbD_packByte (g : Nat → Bool) (b : Nat) (hb : b < 8) : (packByte g).getLsbD b = g (7 - b) := by
  unfold packByte
  have : b = 0 ∨ b = 1 ∨ b = 2 ∨ b = 3 ∨ b = 4 ∨ b = 5 ∨ b = 6 ∨ b = 7 := by omega
  generalize h0 : g 0 = g0
  generalize h1 : g 1 = g1
  generalize h2 : g 2 = g2
  generalize h3 : g 3 = g3
  generalize h4 : g 4 = g4
  generalize h5 : g 5 = g5
  generalize h6 : g 6 = g6
  generalize h7 : g 7 = g7
  rcases this with rfl | rfl | rfl | rfl | rfl | rfl | rfl | rfl <;>
    simp only [Nat.sub_zero, Nat.reduceSub, h0, h1, h2, h3, h4, h5, h6, h7] <;>
    clear h0 h1 h2 h3 h4 h5 h6 h7 hb <;>
    revert g0 g1 g2 g3 g4 g5 g6 g7 <;> decide

theorem bitOf_lt (i : Nat) : bitOf i < 8 := by unfold bitOf; omega

theorem byteOf_bitOf_inj {i j : Nat} (h1 : byteOf i = byteOf j) (h2 : bitOf i = bitOf j) : i = j := by
  unfold byteOf at h1; unfold bitOf at h2; omega

theorem byteOf_lt {i : Nat} (h : i < Config.capBits) : byteOf i < Config.backingBytes := by
  unfold byteOf; unfold Config.capBits at h; unfold Config.backingBytes; omega

@[simp] theorem ofBit_toBit (c : Color) : Color.ofBit c.toBit = c := by cases c <;> rfl

@[simp] theorem toBit_ofBit (b : Bool) : (Color.ofBit b).toBit = b := by cases b <;> rfl

theorem getLsbD_colorByte (c : Color) (b : Nat) (hb : b < 8) : (colorByte c).getLsbD b = c.toBit := by
  have : b = 0 ∨ b = 1 ∨ b = 2 ∨ b = 3 ∨ b = 4 ∨ b = 5 ∨ b = 6 ∨ b = 7 := by omega
  rcases this with rfl | rfl | rfl | rfl | rfl | rfl | rfl | rfl <;> cases c <;> rfl

theorem getLsbD_ff (b : Nat) (hb : b < 8) : (0xFF#8).getLsbD b = true := getLsbD_colorByte .white b hb

/-! ### Reads of a store after a write -/

@[simp] theorem bitRead_allUnknown (i : Nat) : Memory.allUnknown.bitRead i = none := by
  simp [Memory.bitRead, Memory.allUnknown, cellGet]

/-- A read after a write of a bit. -/
theorem bitRead_bitWrite (m : Memory) (i j : Nat) (c : Color) :
    (m.bitWrite i c).bitRead j = if i = j then some c else m.bitRead j := by
  unfold Memory.bitRead Memory.bitWrite
  simp only [cellGet_cellPut]
  by_cases hb : byteOf i = byteOf j
  · simp only [hb, if_true, getLsbD_byteSetBit _ _ _ _ (bitOf_lt i)]
    by_cases he : bitOf j = bitOf i
    · have hij : i = j := byteOf_bitOf_inj hb he.symm
      subst hij
      simp
    · have hij : i ≠ j := fun h => he (by rw [h])
      simp [he, hij]
  · have hij : i ≠ j := fun h => hb (by rw [h])
    simp [hb, hij]

theorem bitRead_bitWrite_self (m : Memory) (i : Nat) (c : Color) : (m.bitWrite i c).bitRead i = some c := by
  simp [bitRead_bitWrite]

theorem bitRead_bitWrite_of_ne (m : Memory) {i j : Nat} (h : i ≠ j) (c : Color) :
    (m.bitWrite i c).bitRead j = m.bitRead j := by
  simp [bitRead_bitWrite, h]

/-- A read after a window write: the eight bits of the byte are its known colours, MSB first. -/
theorem bitRead_byteWrite (m : Memory) (k j : Nat) (v : Byte) :
    (m.byteWrite k v).bitRead j = if byteOf j = k then some (Color.ofBit (v.getLsbD (bitOf j))) else m.bitRead j := by
  unfold Memory.bitRead Memory.byteWrite
  simp only [cellGet_cellPut]
  by_cases hk : k = byteOf j
  · simp [← hk, getLsbD_ff _ (bitOf_lt j)]
  · have : byteOf j ≠ k := fun h => hk h.symm
    simp [hk, this]

/-- A read after a fill of the bytes below `n`. -/
theorem bitRead_fillBytes (m : Memory) (n j : Nat) (c : Color) :
    (m.fillBytes n c).bitRead j = if byteOf j < n then some c else m.bitRead j := by
  unfold Memory.bitRead Memory.fillBytes
  simp only [cellGet_cellFill]
  by_cases hj : byteOf j < n
  · simp [hj, getLsbD_ff _ (bitOf_lt j), getLsbD_colorByte _ _ (bitOf_lt j)]
  · simp [hj]

theorem bitRead_allWhite {i : Nat} (h : i < Config.capBits) : Memory.allWhite.bitRead i = some .white := by
  simp [Memory.allWhite, bitRead_fillBytes, byteOf_lt h]

/-- A read of a store made from its bits. -/
theorem bitRead_build (f : Nat → Option Color) (i : Nat) :
    (Memory.build f).bitRead i = if i < Config.capBits then f i else none := by
  unfold Memory.bitRead Memory.build
  simp only [cellGet_planeOf]
  by_cases hi : i < Config.capBits
  · have h7 : 7 - bitOf i = i % 8 := by unfold bitOf; omega
    have hidx : 8 * byteOf i + (7 - bitOf i) = i := by rw [h7]; unfold byteOf; omega
    simp only [byteOf_lt hi, if_true, getLsbD_packByte _ _ (bitOf_lt i), hidx, hi]
    cases h : f i with
    | none => simp
    | some c => cases c <;> simp [Color.ofBit]
  · have hb : ¬ byteOf i < Config.backingBytes := by
      unfold byteOf; unfold Config.capBits at hi; unfold Config.backingBytes; omega
    simp [hi, hb]

/-- A bit of the byte a window read returns (spec/20_memory.md R78). -/
theorem getLsbD_byteRead (m : Memory) (k n b : Nat) (hb : b < 8) :
    (m.byteRead k n).getLsbD b = (resolve (m.bitRead (8 * k + (7 - b))) (n + (7 - b))).toBit := by
  unfold Memory.byteRead
  exact getLsbD_packByte (fun j => (resolve (m.bitRead (8 * k + j)) (n + j)).toBit) b hb

/-! ### The canonical form of a store -/

theorem memory_wf_iff (m : Memory) :
    m.wf = true ↔
      cellsWf m.data ∧ cellsWf m.known ∧
        ∀ a b, (cellGet m.data a).getLsbD b = true → (cellGet m.known a).getLsbD b = true := by
  unfold Memory.wf
  simp only [Bool.and_eq_true, List.all_eq_true, beq_iff_eq, and_assoc]
  refine and_congr_right fun hd => and_congr_right fun _ => ?_
  constructor
  · intro h a b hb
    by_cases hm : ∃ c ∈ m.data, c.1 = a
    · obtain ⟨c, hc, rfl⟩ := hm
      have hz := congrArg (fun v => BitVec.getLsbD v b) (h c hc)
      have hget := cellGet_of_mem ((cellsWf_iff _).1 hd).1 hc
      rw [hget] at hb
      by_cases hb8 : b < 8
      · simpa [hb, hb8] using hz
      · rw [BitVec.getLsbD_of_ge _ _ (by omega)] at hb; cases hb
    · rw [cellGet_of_not_mem (fun c hc he => hm ⟨c, hc, he⟩)] at hb
      simp at hb
  · intro h c hc
    have hget := cellGet_of_mem ((cellsWf_iff _).1 hd).1 hc
    apply BitVec.eq_of_getLsbD_eq
    intro b hb
    have := h c.1 b
    rw [hget] at this
    cases hv : c.2.getLsbD b
    · simp [hv]
    · simp [this hv]

theorem wf_allUnknown : Memory.allUnknown.wf := by decide

/-- Writing a bit that exists keeps the canonical form. -/
theorem wf_bitWrite {m : Memory} (h : m.wf) {i : Nat} (hi : i < Config.capBits) (c : Color) : (m.bitWrite i c).wf := by
  obtain ⟨hd, hk, hb⟩ := (memory_wf_iff m).1 h
  refine (memory_wf_iff _).2 ⟨cellsWf_cellPut hd (byteOf_lt hi) _, cellsWf_cellPut hk (byteOf_lt hi) _, fun a b => ?_⟩
  unfold Memory.bitWrite
  simp only [cellGet_cellPut]
  by_cases ha : byteOf i = a
  · subst ha
    simp only [if_true, getLsbD_byteSetBit _ _ _ _ (bitOf_lt i)]
    split
    · intro _; rfl
    · exact hb _ b
  · simp only [ha, if_false]
    exact hb a b

/-- Writing a window byte that exists keeps the canonical form. -/
theorem wf_byteWrite {m : Memory} (h : m.wf) {k : Nat} (hk8 : k < Config.backingBytes) (v : Byte) :
    (m.byteWrite k v).wf := by
  obtain ⟨hd, hk, hb⟩ := (memory_wf_iff m).1 h
  refine (memory_wf_iff _).2 ⟨cellsWf_cellPut hd hk8 v, cellsWf_cellPut hk hk8 0xFF, fun a b => ?_⟩
  unfold Memory.byteWrite
  simp only [cellGet_cellPut]
  by_cases ha : k = a
  · simp only [ha, if_true]
    intro hv
    by_cases hb8 : b < 8
    · exact getLsbD_ff b hb8
    · rw [BitVec.getLsbD_of_ge _ _ (by omega)] at hv; cases hv
  · simp only [ha, if_false]
    exact hb a b

/-- Filling bytes that exist keeps the canonical form. -/
theorem wf_fillBytes {m : Memory} (h : m.wf) {n : Nat} (hn : n ≤ Config.backingBytes) (c : Color) :
    (m.fillBytes n c).wf := by
  obtain ⟨hd, hk, hb⟩ := (memory_wf_iff m).1 h
  refine (memory_wf_iff _).2 ⟨cellsWf_cellFill hd hn _, cellsWf_cellFill hk hn _, fun a b => ?_⟩
  unfold Memory.fillBytes
  simp only [cellGet_cellFill]
  by_cases ha : a < n
  · simp only [ha, if_true]
    intro hv
    by_cases hb8 : b < 8
    · exact getLsbD_ff b hb8
    · rw [BitVec.getLsbD_of_ge _ _ (by omega)] at hv; cases hv
  · simp only [ha, if_false]
    exact hb a b

theorem wf_allWhite : Memory.allWhite.wf := by
  unfold Memory.allWhite
  exact wf_fillBytes wf_allUnknown (Nat.le_refl _) .white

/-- A store made from its bits is canonical. -/
theorem wf_build (f : Nat → Option Color) : (Memory.build f).wf := by
  rw [memory_wf_iff]
  simp only [Memory.build, cellsWf_planeOf, true_and]
  intro a b
  simp only [cellGet_planeOf]
  split
  · intro hv
    by_cases hb8 : b < 8
    · rw [getLsbD_packByte _ _ hb8] at hv ⊢
      cases h : f (8 * a + (7 - b)) with
      | none => rw [h] at hv; simp at hv
      | some c => rfl
    · rw [BitVec.getLsbD_of_ge _ _ (by omega)] at hv; cases hv
  · simp

/-- Every index is the bit of some byte. -/
theorem exists_bit (a b : Nat) (hb : b < 8) : ∃ i, byteOf i = a ∧ bitOf i = b :=
  ⟨8 * a + (7 - b), by unfold byteOf; omega, by unfold bitOf; omega⟩

theorem known_of_bitRead (m : Memory) (i : Nat) :
    (cellGet m.known (byteOf i)).getLsbD (bitOf i) = (m.bitRead i).isSome := by
  unfold Memory.bitRead
  split <;> simp_all

theorem data_of_bitRead {m : Memory} (h : m.wf) (i : Nat) :
    (cellGet m.data (byteOf i)).getLsbD (bitOf i) = decide (m.bitRead i = some .white) := by
  have hb := ((memory_wf_iff m).1 h).2.2 (byteOf i) (bitOf i)
  unfold Memory.bitRead
  cases hk : (cellGet m.known (byteOf i)).getLsbD (bitOf i) with
  | false =>
    cases hd : (cellGet m.data (byteOf i)).getLsbD (bitOf i) with
    | false => simp
    | true => rw [hb hd] at hk; cases hk
  | true => cases hd : (cellGet m.data (byteOf i)).getLsbD (bitOf i) <;> simp [Color.ofBit]

/-- Two canonical stores that read the same at every bit are the same data. -/
theorem memory_eq_of_bitRead_eq {m n : Memory} (hm : m.wf) (hn : n.wf) (h : ∀ i, m.bitRead i = n.bitRead i) :
    m = n := by
  obtain ⟨hmd, hmk, _⟩ := (memory_wf_iff m).1 hm
  obtain ⟨hnd, hnk, _⟩ := (memory_wf_iff n).1 hn
  have hk : m.known = n.known := cells_eq_of_cellGet_eq hmk hnk fun a => by
    apply BitVec.eq_of_getLsbD_eq
    intro b hb
    obtain ⟨i, rfl, rfl⟩ := exists_bit a b hb
    rw [known_of_bitRead, known_of_bitRead, h]
  have hd : m.data = n.data := cells_eq_of_cellGet_eq hmd hnd fun a => by
    apply BitVec.eq_of_getLsbD_eq
    intro b hb
    obtain ⟨i, rfl, rfl⟩ := exists_bit a b hb
    rw [data_of_bitRead hm, data_of_bitRead hn, h]
  obtain ⟨md, mk⟩ := m
  obtain ⟨nd, nk⟩ := n
  simp only at hk hd
  rw [hk, hd]

end Sys2Proof.Machine
end

