-- ==== Sys2Proof/Laws/Bus.lean ====
section
/-! SUPPORT. What the address map gives at each offset (spec/20_memory.md R71), and the two ways a command completes
(spec/60_exceptions.md R271), so that no proof unfolds the map or `State.complete`. -/

namespace Sys2Proof.Machine

/-- Completing OK writes ERR only. -/
theorem complete_ok (s : State) : s.complete .ok = { s with err := .ok } := by
  simp [State.complete]

/-- Completing with an error code is `State.failed`. -/
theorem complete_error {code : StatusCode} (h : code ≠ .ok) (s : State) : s.complete code = s.failed code := by
  simp [State.complete, State.failed, h]

/-- The low half of a register made of two halves. -/
theorem low_half (a b : Half) : ((a ++ b : BitVec (16 + 16)) : Word).extractLsb' 0 16 = b :=
  BitVec.extractLsb'_append_eq_right

/-- The high half of a register made of two halves. -/
theorem high_half (a b : Half) : ((a ++ b : BitVec (16 + 16)) : Word).extractLsb' 16 16 = a :=
  BitVec.extractLsb'_append_eq_left

/-- An offset below 2^14 is the number it was made from. -/
theorem toNat_offset {n : Nat} (h : n < 16384) : (BitVec.ofNat 14 n).toNat = n := by
  rw [BitVec.toNat_ofNat]; exact Nat.mod_eq_of_lt h

/-- An argument register's number is below 8, the value of NARG (spec/00_scope.md R8). -/
theorem argNumber_lt (i : Fin Config.narg) : i.val < 8 := i.isLt

/-- Every register's offset is a multiple of 4 and at most 0x050 (spec/20_memory.md R72). -/
theorem offset_aligned (r : Reg) : r.offset % 4 = 0 ∧ r.offset ≤ 0x050 := by
  cases r with
  | arg i => have := argNumber_lt i; simp only [Reg.offset]; omega
  | _ => decide

/-- Every register is found at its offset. -/
theorem regAt_offset (r : Reg) : regAt (BitVec.ofNat 14 r.offset) = some r := by
  cases r with
  | arg i => revert i; decide
  | _ => decide

/-- The register found at an offset is one whose offset that is. -/
theorem offset_of_regAt {off : Offset} {r : Reg} (h : regAt off = some r) : r.offset = off.toNat := by
  have := List.find?_some (p := fun r => Reg.offset r == off.toNat) h
  simpa using this

/-- No register is found at an offset that is none's. -/
theorem regAt_eq_none {off : Offset} (h : ∀ r : Reg, r.offset ≠ off.toNat) : regAt off = none := by
  cases hr : regAt off with
  | none => rfl
  | some r => exact absurd (offset_of_regAt hr) (h r)

/-- Every byte of the window is found at its offset (R73). -/
theorem windowByteAt_offset {k : Nat} (h : k < Config.backingBytes) :
    windowByteAt (BitVec.ofNat 14 (Config.fbWindowBase + k)) = some k := by
  unfold Config.backingBytes at h
  unfold windowByteAt
  rw [toNat_offset (by unfold Config.fbWindowBase; omega), if_pos (by unfold Config.fbWindowBase Config.backingBytes; omega),
    Nat.add_sub_cancel_left]

/-- A 32-bit write at offset 0 issues the word (R76). -/
theorem busWrite_cmd (w : Word) (s : State) : s.busWrite 0 4 w = issueWord w s := by
  have h : regAt 0 = some .cmd := regAt_offset .cmd
  unfold State.busWrite
  rw [if_pos rfl, h]
  rfl

end Sys2Proof.Machine
end

