-- ==== Sys2Proof/Laws/Decode.lean ====
section
/-! SUPPORT. What the decoder can do, said once: a word decodes exactly through a row of the opcode map it matches
(spec/30_encoding.md R111), and that row is the one its opcode names. Provers cite these instead of unfolding the map. -/

namespace Sys2Proof

/-- A number that fits `k` bits has no bit from `k` up. -/
theorem testBit_of_lt {n k i : Nat} (h : n < 2 ^ k) (hi : k ≤ i) : n.testBit i = false :=
  Nat.testBit_lt_two_pow (Nat.lt_of_lt_of_le h (Nat.pow_le_pow_right (by decide) hi))

/-- No two rows of the opcode map have the same opcode. -/
theorem opcodeMap_nodup : (opcodeMap.map OpRow.opc).Nodup := by decide

/-- Two rows with the same opcode are the same row. -/
theorem row_eq_of_opc_eq {r q : OpRow} (hr : r ∈ opcodeMap) (hq : q ∈ opcodeMap) (h : r.opc = q.opc) : r = q :=
  List.inj_on_of_nodup_map opcodeMap_nodup hr hq h

/-- Every row compares the whole opcode field: its mask covers bits 31:24, its pattern holds the opcode there and 0
below (spec/30_encoding.md R101, R111). -/
theorem row_shape {r : OpRow} (hr : r ∈ opcodeMap) :
    r.opc < 256 ∧ r.mask &&& 0xFF000000#32 = 0xFF000000#32 ∧ r.pat = BitVec.ofNat 32 r.opc <<< 24 := by
  have h : ∀ r ∈ opcodeMap, r.opc < 256 ∧ r.mask &&& 0xFF000000#32 = 0xFF000000#32 ∧ r.pat = BitVec.ofNat 32 r.opc <<< 24 := by
    decide
  exact h r hr

/-- The command a row builds has the row's opcode. -/
theorem opcode_build {r : OpRow} (hr : r ∈ opcodeMap) (w : Word) : (r.build w).opcode = r.opc := by
  simp only [opcodeMap, framebufferRows, thresholderRows, displayRows, List.cons_append, List.nil_append,
    List.mem_cons, List.not_mem_nil, or_false] at hr
  rcases hr with rfl | rfl | rfl | rfl | rfl | rfl | rfl | rfl | rfl | rfl | rfl | rfl | rfl | rfl | rfl | rfl | rfl
    | rfl | rfl | rfl | rfl <;> rfl

/-- The opcode field of a word, as a shift. -/
theorem opcodeOf_eq (w : Word) : opcodeOf w = (w >>> 24).toNat := by
  unfold opcodeOf bitField
  rw [BitVec.extractLsb'_toNat, BitVec.toNat_ushiftRight, Nat.mod_eq_of_lt]
  have := w.isLt
  simp only [Nat.shiftRight_eq_div_pow]
  omega

/-- A word that matches a row has the row's opcode. -/
theorem opcodeOf_of_hits {r : OpRow} (hr : r ∈ opcodeMap) {w : Word} (h : r.hits w = true) : opcodeOf w = r.opc := by
  obtain ⟨hlt, hmask, hpat⟩ := row_shape hr
  have h : w &&& r.mask = r.pat := by simpa [OpRow.hits] using h
  have hw : w &&& 0xFF000000#32 = BitVec.ofNat 32 r.opc <<< 24 := by
    rw [← hmask, ← BitVec.and_assoc, h, hpat]
    apply BitVec.eq_of_getLsbD_eq
    intro i hi
    have : ∀ i, i < 32 → (0xFF000000#32).getLsbD i = decide (24 ≤ i) := by decide
    rw [BitVec.getLsbD_and, this i hi, BitVec.getLsbD_shiftLeft]
    by_cases h24 : i < 24 <;> simp [h24]
    omega
  have hs : w >>> 24 = BitVec.ofNat 32 r.opc := by
    apply BitVec.eq_of_getLsbD_eq
    intro i hi
    have h1 := congrArg (fun v => v.getLsbD (24 + i)) hw
    simp only [BitVec.getLsbD_and, BitVec.getLsbD_shiftLeft] at h1
    rw [BitVec.getLsbD_ushiftRight]
    by_cases h8 : i < 8
    · have h2 : (0xFF000000#32).getLsbD (24 + i) = true := by interval_cases i <;> decide
      rw [h2, Bool.and_true] at h1
      rw [h1, Nat.add_sub_cancel_left, decide_eq_true (by omega : 24 + i < 32), decide_eq_false (by omega : ¬ 24 + i < 24)]
      simp
    · rw [BitVec.getLsbD_of_ge _ _ (by omega), BitVec.getLsbD_ofNat, testBit_of_lt (k := 8) hlt (by omega)]
      simp
  rw [opcodeOf_eq, hs, BitVec.toNat_ofNat]
  omega

/-- A word decodes to a command exactly through a row it matches. -/
theorem decode_ok_iff {w : Word} {i : Instr} :
    decode w = .ok i ↔ ∃ r ∈ opcodeMap, r.hits w = true ∧ r.build w = i := by
  unfold decode
  constructor
  · intro h
    split at h
    · rename_i r hf
      cases h
      exact ⟨r, List.mem_of_find?_eq_some hf, List.find?_some (p := fun r => OpRow.hits r w) hf, rfl⟩
    · cases h
  · rintro ⟨r, hr, hh, rfl⟩
    split
    · rename_i q hf
      have hq := List.mem_of_find?_eq_some hf
      have hqh : q.hits w = true := List.find?_some (p := fun r => OpRow.hits r w) hf
      rw [row_eq_of_opc_eq hq hr ((opcodeOf_of_hits hq hqh).symm.trans (opcodeOf_of_hits hr hh))]
    · rename_i hf
      exact absurd hh (by simpa using List.find?_eq_none.1 hf r hr)

/-- A word is illegal exactly when it matches no row. -/
theorem decode_error_iff {w : Word} : (∃ e, decode w = .error e) ↔ ∀ r ∈ opcodeMap, r.hits w = false := by
  unfold decode
  constructor
  · rintro ⟨e, h⟩
    split at h
    · cases h
    · rename_i hf
      simpa using hf
  · intro h
    have hf : opcodeMap.find? (fun r => r.hits w) = none := by simpa using h
    rw [hf]
    exact ⟨_, rfl⟩

/-- A word matches a row exactly when its opcode is the row's and every reserved bit of the row's format is 0
(spec/30_encoding.md R112). -/
theorem hits_iff {r : OpRow} (hr : r ∈ opcodeMap) (w : Word) :
    r.hits w = true ↔ opcodeOf w = r.opc ∧ w &&& r.mask &&& 0x00FFFFFF#32 = 0 := by
  have h24 : ∀ i, i < 32 → (0x00FFFFFF#32).getLsbD i = decide (i < 24) := by decide
  obtain ⟨hlt, hmask, hpat⟩ := row_shape hr
  constructor
  · intro h
    refine ⟨opcodeOf_of_hits hr h, ?_⟩
    have h : w &&& r.mask = r.pat := by simpa [OpRow.hits] using h
    rw [h, hpat]
    apply BitVec.eq_of_getLsbD_eq
    intro i hi
    rw [BitVec.getLsbD_and, h24 i hi, BitVec.getLsbD_shiftLeft]
    by_cases h24 : i < 24 <;> simp [h24]
  · rintro ⟨ho, h0⟩
    have : w &&& r.mask = r.pat := by
      rw [hpat]
      apply BitVec.eq_of_getLsbD_eq
      intro i hi
      by_cases h : i < 24
      · have := congrArg (fun v => v.getLsbD i) h0
        simp only [BitVec.getLsbD_and, h24 i hi, h] at this
        simp [BitVec.getLsbD_shiftLeft, h]
        simpa using this
      · obtain ⟨k, rfl⟩ := Nat.exists_eq_add_of_le (not_lt.1 h)
        have hm := congrArg (fun v => v.getLsbD (24 + k)) hmask
        have hff : (0xFF000000#32).getLsbD (24 + k) = true := by
          have : k < 8 := by omega
          interval_cases k <;> decide
        simp only [BitVec.getLsbD_and, hff, Bool.and_true] at hm
        rw [BitVec.getLsbD_and, hm, BitVec.getLsbD_shiftLeft, decide_eq_true hi, decide_eq_false h, Nat.add_sub_cancel_left]
        have ho' : w >>> 24 = BitVec.ofNat 32 r.opc := by
          rw [opcodeOf_eq] at ho
          apply BitVec.eq_of_toNat_eq
          rw [ho, BitVec.toNat_ofNat]; omega
        rw [← ho', BitVec.getLsbD_ushiftRight]
        simp
    simpa [OpRow.hits] using this

end Sys2Proof
end

