-- ==== Sys2Proof/Laws/Geometry.lean ====
section
/-! SUPPORT. Plot and the framebuffer's geometry: where a logical point lies in the backing store, that every logical
point has a bit of its own below FB_W*FB_H (spec/40_framebuffer.md R130, R132), and what a Plot writes (R133). -/

namespace Sys2Proof.Machine

theorem inBounds_iff (g : Geometry) (x y : Int) :
    g.inBounds x y = true ↔ 0 ≤ x ∧ x < g.logicalW ∧ 0 ≤ y ∧ y < g.logicalH := by
  simp [Geometry.inBounds, and_assoc]

/-- The physical pixel of an in-bounds point is inside the framebuffer. -/
theorem phys_range {g : Geometry} {x y : Int} (h : g.inBounds x y = true) :
    0 ≤ (g.phys x y).1 ∧ (g.phys x y).1 < g.w ∧ 0 ≤ (g.phys x y).2 ∧ (g.phys x y).2 < g.h := by
  obtain ⟨w, hh, r⟩ := g
  rw [inBounds_iff] at h
  cases r <;> simp only [Geometry.logicalW, Geometry.logicalH, Geometry.phys] at h ⊢ <;> omega

/-- Phys maps different logical points to different physical pixels. -/
theorem phys_inj {g : Geometry} {x y x' y' : Int} (h : g.phys x y = g.phys x' y') : x = x' ∧ y = y' := by
  obtain ⟨w, hh, r⟩ := g
  cases r <;> simp only [Geometry.phys, Prod.mk.injEq] at h <;> omega

/-- Every physical pixel is that of an in-bounds logical point. -/
theorem phys_surj (g : Geometry) {px py : Int} (hx : 0 ≤ px) (hx' : px < g.w) (hy : 0 ≤ py) (hy' : py < g.h) :
    ∃ x y, g.inBounds x y = true ∧ g.phys x y = (px, py) := by
  obtain ⟨w, hh, r⟩ := g
  simp only at hx' hy'
  cases r
  · exact ⟨px, py, by rw [inBounds_iff]; simp only [Geometry.logicalW, Geometry.logicalH]; omega, rfl⟩
  · refine ⟨py, w - 1 - px, by rw [inBounds_iff]; simp only [Geometry.logicalW, Geometry.logicalH]; omega, ?_⟩
    simp only [Geometry.phys, Prod.mk.injEq, and_true]; omega
  · refine ⟨w - 1 - px, hh - 1 - py, by
      rw [inBounds_iff]; simp only [Geometry.logicalW, Geometry.logicalH]; omega, ?_⟩
    simp only [Geometry.phys, Prod.mk.injEq]; omega
  · refine ⟨hh - 1 - py, px, by rw [inBounds_iff]; simp only [Geometry.logicalW, Geometry.logicalH]; omega, ?_⟩
    simp only [Geometry.phys, Prod.mk.injEq, true_and]; omega

theorem index_natCast (g : Geometry) (px py : Nat) : g.index (px, py) = py * g.w + px := by
  unfold Geometry.index
  norm_cast

/-- The index of a pixel of the framebuffer is below its area. -/
theorem index_lt {g : Geometry} {p : Int × Int} (hx : 0 ≤ p.1) (hx' : p.1 < g.w) (hy : 0 ≤ p.2) (hy' : p.2 < g.h) :
    g.index p < g.w * g.h := by
  obtain ⟨px, py⟩ := p
  lift px to Nat using hx
  lift py to Nat using hy
  rw [index_natCast]
  simp only [Nat.cast_lt] at hx' hy'
  calc py * g.w + px < py * g.w + g.w := by omega
    _ = (py + 1) * g.w := by ring
    _ ≤ g.h * g.w := Nat.mul_le_mul_right _ hy'
    _ = g.w * g.h := Nat.mul_comm _ _

/-- Pixels of the framebuffer with the same index are the same pixel. -/
theorem index_inj {g : Geometry} {p q : Int × Int} (hp : 0 ≤ p.1 ∧ p.1 < g.w ∧ 0 ≤ p.2)
    (hq : 0 ≤ q.1 ∧ q.1 < g.w ∧ 0 ≤ q.2) (h : g.index p = g.index q) : p = q := by
  obtain ⟨px, py⟩ := p
  obtain ⟨qx, qy⟩ := q
  obtain ⟨h1, h2, h3⟩ := hp
  obtain ⟨k1, k2, k3⟩ := hq
  simp only at h1 h2 h3 k1 k2 k3
  lift px to Nat using h1
  lift py to Nat using h3
  lift qx to Nat using k1
  lift qy to Nat using k3
  rw [index_natCast, index_natCast] at h
  simp only [Nat.cast_lt] at h2 k2
  have hx : px = qx := by
    have := congrArg (· % g.w) h
    simpa [Nat.add_mod, Nat.mod_eq_of_lt h2, Nat.mod_eq_of_lt k2] using this
  subst hx
  have hw : 0 < g.w := by omega
  have hy : py = qy := Nat.eq_of_mul_eq_mul_right hw (by omega)
  rw [hy]

theorem bitAt_eq_some {g : Geometry} {x y : Int} {i : Nat} :
    g.bitAt x y = some i ↔ g.inBounds x y = true ∧ g.index (g.phys x y) = i := by
  unfold Geometry.bitAt
  split <;> simp_all

theorem bitAt_eq_none {g : Geometry} {x y : Int} : g.bitAt x y = none ↔ g.inBounds x y = false := by
  unfold Geometry.bitAt
  split <;> simp_all

/-- No logical point's bit lies at or beyond FB_W*FB_H. -/
theorem bitAt_lt {g : Geometry} {x y : Int} {i : Nat} (h : g.bitAt x y = some i) : i < g.w * g.h := by
  obtain ⟨hb, rfl⟩ := bitAt_eq_some.1 h
  obtain ⟨h1, h2, h3, h4⟩ := phys_range hb
  exact index_lt h1 h2 h3 h4

/-- Different logical points have different bits. -/
theorem bitAt_inj {g : Geometry} {x y x' y' : Int} {i : Nat} (h : g.bitAt x y = some i) (h' : g.bitAt x' y' = some i) :
    x = x' ∧ y = y' := by
  obtain ⟨hb, hi⟩ := bitAt_eq_some.1 h
  obtain ⟨hb', hi'⟩ := bitAt_eq_some.1 h'
  obtain ⟨h1, h2, h3, _⟩ := phys_range hb
  obtain ⟨k1, k2, k3, _⟩ := phys_range hb'
  exact phys_inj (index_inj ⟨h1, h2, h3⟩ ⟨k1, k2, k3⟩ (hi.trans hi'.symm))

/-- Every bit of the framebuffer is that of a logical point. -/
theorem bitAt_surj {g : Geometry} {i : Nat} (h : i < g.w * g.h) : ∃ x y, g.bitAt x y = some i := by
  have hw : 0 < g.w := by
    rcases Nat.eq_zero_or_pos g.w with h0 | h0
    · rw [h0] at h; omega
    · exact h0
  have hx : i % g.w < g.w := Nat.mod_lt _ hw
  have hy : i / g.w < g.h := Nat.div_lt_of_lt_mul h
  obtain ⟨x, y, hb, hp⟩ := phys_surj g (px := (i % g.w : Nat)) (py := (i / g.w : Nat)) (Int.natCast_nonneg _)
    (by exact_mod_cast hx) (Int.natCast_nonneg _) (by exact_mod_cast hy)
  refine ⟨x, y, bitAt_eq_some.2 ⟨hb, ?_⟩⟩
  rw [hp, index_natCast]
  have := Nat.div_add_mod i g.w
  rw [Nat.mul_comm] at this
  omega

/-- The framebuffer's bytes fit in the backing store when its area fits the capacity. -/
theorem bytes_le {g : Geometry} (h : g.w * g.h ≤ Config.capBits) : g.bytes ≤ Config.backingBytes := by
  unfold Geometry.bytes; unfold Config.capBits at h; unfold Config.backingBytes
  generalize g.w * g.h = n at h
  omega

/-! ### What a Plot writes -/

/-- A read after a Plot. -/
theorem bitRead_plot (m : Memory) (g : Geometry) (c : Color) (x y : Int) (i : Nat) :
    (m.plot g c x y).bitRead i = if g.bitAt x y = some i then some c else m.bitRead i := by
  unfold Memory.plot
  split
  · rename_i j hj
    rw [hj, bitRead_bitWrite]
    simp
  · rename_i hj
    simp [hj]

/-- A Plot out of bounds writes nothing. -/
theorem plot_of_not_inBounds (m : Memory) {g : Geometry} (c : Color) {x y : Int} (h : g.inBounds x y = false) :
    m.plot g c x y = m := by
  unfold Memory.plot
  rw [bitAt_eq_none.2 h]

/-- A read after plotting a list of points: the colour, where some point of the list has that bit. -/
theorem bitRead_plotAll (m : Memory) (g : Geometry) (c : Color) (pts : List (Int × Int)) (i : Nat) :
    (m.plotAll g c pts).bitRead i =
      if pts.any (fun p => decide (g.bitAt p.1 p.2 = some i)) then some c else m.bitRead i := by
  unfold Memory.plotAll
  induction pts generalizing m with
  | nil => simp
  | cons p pts ih =>
    rw [List.foldl_cons, ih, bitRead_plot, List.any_cons]
    by_cases hp : g.bitAt p.1 p.2 = some i
    · simp [hp]
    · simp only [hp, if_false, decide_false, Bool.false_or]

theorem bitRead_plotAll_of_mem {m : Memory} {g : Geometry} {c : Color} {pts : List (Int × Int)} {x y : Int} {i : Nat}
    (hm : (x, y) ∈ pts) (hi : g.bitAt x y = some i) : (m.plotAll g c pts).bitRead i = some c := by
  rw [bitRead_plotAll, if_pos]
  exact List.any_eq_true.2 ⟨(x, y), hm, by simpa using hi⟩

theorem bitRead_plotAll_of_not {m : Memory} {g : Geometry} {c : Color} {pts : List (Int × Int)} {i : Nat}
    (h : ∀ p ∈ pts, g.bitAt p.1 p.2 ≠ some i) : (m.plotAll g c pts).bitRead i = m.bitRead i := by
  rw [bitRead_plotAll, if_neg]
  intro ha
  obtain ⟨p, hp, hpi⟩ := List.any_eq_true.1 ha
  exact h p hp (by simpa using hpi)

theorem wf_plot {m : Memory} (h : m.wf) {g : Geometry} (hg : g.w * g.h ≤ Config.capBits) (c : Color) (x y : Int) :
    (m.plot g c x y).wf := by
  unfold Memory.plot
  split
  · rename_i i hi
    exact wf_bitWrite h (Nat.lt_of_lt_of_le (bitAt_lt hi) hg) c
  · exact h

/-- Plotting keeps the canonical form when the framebuffer's area fits the capacity. -/
theorem wf_plotAll {m : Memory} (h : m.wf) {g : Geometry} (hg : g.w * g.h ≤ Config.capBits) (c : Color)
    (pts : List (Int × Int)) : (m.plotAll g c pts).wf := by
  unfold Memory.plotAll
  induction pts generalizing m with
  | nil => exact h
  | cons p pts ih => exact ih (wf_plot h hg c p.1 p.2)

end Sys2Proof.Machine
end

