-- ==== Sys2Proof/Laws/PerInstr.lean ====
section
/-! SUPPORT. The per-command family of statements: a well-formed command's word carries the command's opcode in bits
31:24, so no immediate field reaches into it (spec/30_encoding.md R101, R117). One lemma per constructor of Instr. -/

namespace Sys2Proof.Laws

/-- The opcode field of a well-formed command's word is the command's opcode. -/
def EncodesItsOpcode.Statement (i : Instr) : Prop := i.wellFormed = true → opcodeOf (encode i) = i.opcode

theorem EncodesItsOpcode.fbReset : EncodesItsOpcode.Statement .fbReset := fun _ => rfl

theorem EncodesItsOpcode.fbClear (c : Color) : EncodesItsOpcode.Statement (.fbClear c) := by
  cases c <;> exact fun _ => rfl

theorem EncodesItsOpcode.fbSetPixel (c : Color) : EncodesItsOpcode.Statement (.fbSetPixel c) := by
  cases c <;> exact fun _ => rfl

theorem EncodesItsOpcode.fbGetPixel : EncodesItsOpcode.Statement .fbGetPixel := fun _ => rfl

theorem EncodesItsOpcode.fbRotate (r : Rotation) : EncodesItsOpcode.Statement (.fbRotate r) := by
  cases r <;> exact fun _ => rfl

theorem EncodesItsOpcode.fbDrawLine (c : Color) : EncodesItsOpcode.Statement (.fbDrawLine c) := by
  cases c <;> exact fun _ => rfl

theorem EncodesItsOpcode.fbDrawRect (c : Color) : EncodesItsOpcode.Statement (.fbDrawRect c) := by
  cases c <;> exact fun _ => rfl

theorem EncodesItsOpcode.fbFillRect (c : Color) : EncodesItsOpcode.Statement (.fbFillRect c) := by
  cases c <;> exact fun _ => rfl

theorem EncodesItsOpcode.imgBeginBmp : EncodesItsOpcode.Statement .imgBeginBmp := fun _ => rfl

theorem EncodesItsOpcode.imgBeginGen : EncodesItsOpcode.Statement .imgBeginGen := fun _ => rfl

theorem EncodesItsOpcode.imgPixelRgb (r g b : Nat) : EncodesItsOpcode.Statement (.imgPixelRgb r g b) := by
  intro h
  simp only [Instr.wellFormed, Bool.and_eq_true, decide_eq_true_eq] at h
  obtain ⟨⟨hr, hg⟩, hb⟩ := h
  have key : (encode (.imgPixelRgb r g b)).extractLsb' 24 8 = 0x22#8 := by
    apply BitVec.eq_of_getLsbD_eq
    intro i hi
    have h1 : r.testBit (24 + i - 16) = false := testBit_of_lt (k := 8) hr (by omega)
    have h2 : g.testBit (24 + i - 8) = false := testBit_of_lt (k := 8) hg (by omega)
    have h3 : b.testBit (24 + i) = false := testBit_of_lt (k := 8) hb (by omega)
    simp only [encode, Instr.opcode, Instr.fields, BitVec.getLsbD_extractLsb', BitVec.getLsbD_or,
      BitVec.getLsbD_shiftLeft, BitVec.getLsbD_ofNat, h1, h2, h3]
    interval_cases i <;> decide
  exact congrArg BitVec.toNat key

theorem EncodesItsOpcode.imgPixel565 (v : Nat) : EncodesItsOpcode.Statement (.imgPixel565 v) := by
  intro h
  simp only [Instr.wellFormed, decide_eq_true_eq] at h
  have key : (encode (.imgPixel565 v)).extractLsb' 24 8 = 0x23#8 := by
    apply BitVec.eq_of_getLsbD_eq
    intro i hi
    have h1 : v.testBit (24 + i) = false := testBit_of_lt (k := 16) h (by omega)
    simp only [encode, Instr.opcode, Instr.fields, BitVec.getLsbD_extractLsb', BitVec.getLsbD_or,
      BitVec.getLsbD_shiftLeft, BitVec.getLsbD_ofNat, h1]
    interval_cases i <;> decide
  exact congrArg BitVec.toNat key

theorem EncodesItsOpcode.imgAbort : EncodesItsOpcode.Statement .imgAbort := fun _ => rfl

theorem EncodesItsOpcode.dcInit (o : Orientation) : EncodesItsOpcode.Statement (.dcInit o) := by
  cases o <;> exact fun _ => rfl

theorem EncodesItsOpcode.dcWaitIdle : EncodesItsOpcode.Statement .dcWaitIdle := fun _ => rfl

theorem EncodesItsOpcode.dcWriteBase : EncodesItsOpcode.Statement .dcWriteBase := fun _ => rfl

theorem EncodesItsOpcode.dcSetFrameMemory : EncodesItsOpcode.Statement .dcSetFrameMemory := fun _ => rfl

theorem EncodesItsOpcode.dcDisplayFrame : EncodesItsOpcode.Statement .dcDisplayFrame := fun _ => rfl

theorem EncodesItsOpcode.dcDisplayPart (p : PartRegion) : EncodesItsOpcode.Statement (.dcDisplayPart p) := by
  cases p <;> exact fun _ => rfl

theorem EncodesItsOpcode.dcSleep : EncodesItsOpcode.Statement .dcSleep := fun _ => rfl

theorem EncodesItsOpcode.dcClear : EncodesItsOpcode.Statement .dcClear := fun _ => rfl

end Sys2Proof.Laws
end

