-- ==== Sys2Proof/Laws/Raster.lean ====
section
/-! SUPPORT. Which points the rectangle commands plot (spec/41_rasterizers.md R163, R164): the clipped listings of the
model hold exactly the in-bounds points of the pseudocode's loops. -/

namespace Sys2Proof.Machine

theorem mem_intSpan {lo hi x : Int} : x ∈ intSpan lo hi ↔ lo ≤ x ∧ x ≤ hi := by
  unfold intSpan
  simp only [List.mem_map, List.mem_range]
  constructor
  · rintro ⟨k, hk, rfl⟩; omega
  · rintro ⟨h1, h2⟩; exact ⟨(x - lo).toNat, by omega, by omega⟩

/-- The points FB_FILL_RECT plots in bounds are the in-bounds points of the rectangle. -/
theorem mem_fillPoints {r : Segment} {g : Geometry} {x y : Int} :
    (x, y) ∈ r.fillPoints g ↔
      g.inBounds x y = true ∧ r.xa ≤ x ∧ x ≤ r.xb ∧ r.ya ≤ y ∧ y ≤ r.yb := by
  unfold Segment.fillPoints
  simp only [List.mem_flatMap, List.mem_map, mem_intSpan, inBounds_iff, Prod.mk.injEq]
  constructor
  · rintro ⟨y', hy, x', hx, rfl, rfl⟩; omega
  · rintro ⟨hb, h⟩; exact ⟨y, by omega, x, by omega, rfl, rfl⟩

/-- The points FB_DRAW_RECT plots in bounds are those of the rectangle's outline. -/
theorem mem_outlinePoints {r : Segment} {g : Geometry} {x y : Int} :
    (x, y) ∈ r.outlinePoints g ↔
      g.inBounds x y = true ∧ (r.xa ≤ x ∧ x ≤ r.xb ∧ r.ya ≤ y ∧ y ≤ r.yb)
        ∧ (x = r.xa ∨ x = r.xb ∨ y = r.ya ∨ y = r.yb) := by
  unfold Segment.outlinePoints
  simp only [List.mem_filter, mem_fillPoints, Segment.onOutline, Bool.or_eq_true, decide_eq_true_eq]
  tauto

/-- FB_FILL_RECT's write, bit by bit: the colour at every in-bounds point of the rectangle, nothing elsewhere. -/
theorem bitRead_fill (m : Memory) (r : Segment) (g : Geometry) (c : Color) {x y : Int} {i : Nat}
    (hi : g.bitAt x y = some i) :
    (m.plotAll g c (r.fillPoints g)).bitRead i =
      if r.xa ≤ x ∧ x ≤ r.xb ∧ r.ya ≤ y ∧ y ≤ r.yb then some c else m.bitRead i := by
  split
  · rename_i h
    exact bitRead_plotAll_of_mem (mem_fillPoints.2 ⟨(bitAt_eq_some.1 hi).1, h⟩) hi
  · rename_i h
    refine bitRead_plotAll_of_not fun p hp hpi => h ?_
    obtain ⟨rfl, rfl⟩ := bitAt_inj hi hpi
    exact (mem_fillPoints.1 hp).2

/-- FB_DRAW_RECT's write, bit by bit: the colour at every in-bounds point of the outline, nothing elsewhere. -/
theorem bitRead_outline (m : Memory) (r : Segment) (g : Geometry) (c : Color) {x y : Int} {i : Nat}
    (hi : g.bitAt x y = some i) :
    (m.plotAll g c (r.outlinePoints g)).bitRead i =
      if (r.xa ≤ x ∧ x ≤ r.xb ∧ r.ya ≤ y ∧ y ≤ r.yb) ∧ (x = r.xa ∨ x = r.xb ∨ y = r.ya ∨ y = r.yb)
      then some c else m.bitRead i := by
  split
  · rename_i h
    exact bitRead_plotAll_of_mem (mem_outlinePoints.2 ⟨(bitAt_eq_some.1 hi).1, h.1, h.2⟩) hi
  · rename_i h
    refine bitRead_plotAll_of_not fun p hp hpi => h ?_
    obtain ⟨rfl, rfl⟩ := bitAt_inj hi hpi
    exact (mem_outlinePoints.1 hp).2

/-- No drawing command writes a bit at or beyond FB_W*FB_H (spec/40_framebuffer.md R143). -/
theorem bitRead_plotAll_of_ge {m : Memory} {g : Geometry} {c : Color} {pts : List (Int × Int)} {i : Nat}
    (h : g.w * g.h ≤ i) : (m.plotAll g c pts).bitRead i = m.bitRead i :=
  bitRead_plotAll_of_not fun _ _ hp => absurd (bitAt_lt hp) (by omega)

end Sys2Proof.Machine
end

