-- ==== Sys2Proof/Laws/State.lean ====
section
/-! SUPPORT. What each named update leaves of every field of State, and what it makes of the others. Each `_frame` lemma
is one conjunction with one conjunct per unchanged field; simp uses every conjunct as a rule of its own. -/

namespace Sys2Proof.Machine

@[simp] theorem geom_complete (code : StatusCode) (s : State) : (s.complete code).geom = s.geom := rfl

/-- Completing a command changes ERR and STICKY_ERR only. -/
@[simp] theorem complete_frame (code : StatusCode) (s : State) :
    (s.complete code).cmdBusy = s.cmdBusy ∧ (s.complete code).imgActive = s.imgActive ∧
    (s.complete code).ovr = s.ovr ∧ (s.complete code).busErr = s.busErr ∧
    (s.complete code).resultValid = s.resultValid ∧ (s.complete code).resultColor = s.resultColor ∧
    (s.complete code).args = s.args ∧ (s.complete code).fbW = s.fbW ∧ (s.complete code).fbH = s.fbH ∧
    (s.complete code).rot = s.rot ∧ (s.complete code).store = s.store ∧ (s.complete code).imgMode = s.imgMode ∧
    (s.complete code).imgFlip = s.imgFlip ∧ (s.complete code).imgX0 = s.imgX0 ∧ (s.complete code).imgY0 = s.imgY0 ∧
    (s.complete code).imgSrcW = s.imgSrcW ∧ (s.complete code).imgSrcH = s.imgSrcH ∧
    (s.complete code).imgW = s.imgW ∧ (s.complete code).imgH = s.imgH ∧ (s.complete code).imgCol = s.imgCol ∧
    (s.complete code).imgRow = s.imgRow ∧ (s.complete code).imgRowBytes = s.imgRowBytes ∧
    (s.complete code).imgPixOff = s.imgPixOff ∧ (s.complete code).waitCnt = s.waitCnt ∧
    (s.complete code).dcState = s.dcState ∧ (s.complete code).orient = s.orient ∧ (s.complete code).base = s.base ∧
    (s.complete code).waited = s.waited ∧ (s.complete code).lastRefresh = s.lastRefresh ∧
    (s.complete code).pram = s.pram ∧ (s.complete code).displayed = s.displayed ∧ (s.complete code).pend = s.pend ∧
    (s.complete code).panelBusy = s.panelBusy ∧ (s.complete code).draws = s.draws ∧
    (s.complete code).busData = s.busData ∧ (s.complete code).program = s.program ∧
    (s.complete code).turns = s.turns ∧ (s.complete code).powered = s.powered :=
  ⟨rfl, rfl, rfl, rfl, rfl, rfl, rfl, rfl, rfl, rfl, rfl, rfl, rfl, rfl, rfl, rfl, rfl, rfl, rfl, rfl, rfl, rfl,
  rfl, rfl, rfl, rfl, rfl, rfl, rfl, rfl, rfl, rfl, rfl, rfl, rfl, rfl, rfl, rfl⟩

@[simp] theorem complete_err (code : StatusCode) (s : State) : (s.complete code).err = code := rfl

@[simp] theorem complete_stickyErr (code : StatusCode) (s : State) : (s.complete code).stickyErr = (s.stickyErr || decide (code ≠ .ok)) := rfl

/-- Dropping a CMD write changes OVR only. -/
@[simp] theorem dropCommand_frame (s : State) :
    (s.dropCommand).cmdBusy = s.cmdBusy ∧ (s.dropCommand).imgActive = s.imgActive ∧
    (s.dropCommand).busErr = s.busErr ∧ (s.dropCommand).stickyErr = s.stickyErr ∧ (s.dropCommand).err = s.err ∧
    (s.dropCommand).resultValid = s.resultValid ∧ (s.dropCommand).resultColor = s.resultColor ∧
    (s.dropCommand).args = s.args ∧ (s.dropCommand).fbW = s.fbW ∧ (s.dropCommand).fbH = s.fbH ∧
    (s.dropCommand).rot = s.rot ∧ (s.dropCommand).store = s.store ∧ (s.dropCommand).imgMode = s.imgMode ∧
    (s.dropCommand).imgFlip = s.imgFlip ∧ (s.dropCommand).imgX0 = s.imgX0 ∧ (s.dropCommand).imgY0 = s.imgY0 ∧
    (s.dropCommand).imgSrcW = s.imgSrcW ∧ (s.dropCommand).imgSrcH = s.imgSrcH ∧ (s.dropCommand).imgW = s.imgW ∧
    (s.dropCommand).imgH = s.imgH ∧ (s.dropCommand).imgCol = s.imgCol ∧ (s.dropCommand).imgRow = s.imgRow ∧
    (s.dropCommand).imgRowBytes = s.imgRowBytes ∧ (s.dropCommand).imgPixOff = s.imgPixOff ∧
    (s.dropCommand).waitCnt = s.waitCnt ∧ (s.dropCommand).dcState = s.dcState ∧ (s.dropCommand).orient = s.orient ∧
    (s.dropCommand).base = s.base ∧ (s.dropCommand).waited = s.waited ∧
    (s.dropCommand).lastRefresh = s.lastRefresh ∧ (s.dropCommand).pram = s.pram ∧
    (s.dropCommand).displayed = s.displayed ∧ (s.dropCommand).pend = s.pend ∧
    (s.dropCommand).panelBusy = s.panelBusy ∧ (s.dropCommand).draws = s.draws ∧
    (s.dropCommand).busData = s.busData ∧ (s.dropCommand).program = s.program ∧ (s.dropCommand).turns = s.turns ∧
    (s.dropCommand).powered = s.powered :=
  ⟨rfl, rfl, rfl, rfl, rfl, rfl, rfl, rfl, rfl, rfl, rfl, rfl, rfl, rfl, rfl, rfl, rfl, rfl, rfl, rfl, rfl, rfl,
  rfl, rfl, rfl, rfl, rfl, rfl, rfl, rfl, rfl, rfl, rfl, rfl, rfl, rfl, rfl, rfl, rfl⟩

@[simp] theorem dropCommand_ovr (s : State) : (s.dropCommand).ovr = true := rfl

/-- Writing an argument register changes the argument registers only. -/
@[simp] theorem setArg_frame (i : Fin Config.narg) (v : Word) (s : State) :
    (s.setArg i v).cmdBusy = s.cmdBusy ∧ (s.setArg i v).imgActive = s.imgActive ∧ (s.setArg i v).ovr = s.ovr ∧
    (s.setArg i v).busErr = s.busErr ∧ (s.setArg i v).stickyErr = s.stickyErr ∧ (s.setArg i v).err = s.err ∧
    (s.setArg i v).resultValid = s.resultValid ∧ (s.setArg i v).resultColor = s.resultColor ∧
    (s.setArg i v).fbW = s.fbW ∧ (s.setArg i v).fbH = s.fbH ∧ (s.setArg i v).rot = s.rot ∧
    (s.setArg i v).store = s.store ∧ (s.setArg i v).imgMode = s.imgMode ∧ (s.setArg i v).imgFlip = s.imgFlip ∧
    (s.setArg i v).imgX0 = s.imgX0 ∧ (s.setArg i v).imgY0 = s.imgY0 ∧ (s.setArg i v).imgSrcW = s.imgSrcW ∧
    (s.setArg i v).imgSrcH = s.imgSrcH ∧ (s.setArg i v).imgW = s.imgW ∧ (s.setArg i v).imgH = s.imgH ∧
    (s.setArg i v).imgCol = s.imgCol ∧ (s.setArg i v).imgRow = s.imgRow ∧
    (s.setArg i v).imgRowBytes = s.imgRowBytes ∧ (s.setArg i v).imgPixOff = s.imgPixOff ∧
    (s.setArg i v).waitCnt = s.waitCnt ∧ (s.setArg i v).dcState = s.dcState ∧ (s.setArg i v).orient = s.orient ∧
    (s.setArg i v).base = s.base ∧ (s.setArg i v).waited = s.waited ∧ (s.setArg i v).lastRefresh = s.lastRefresh ∧
    (s.setArg i v).pram = s.pram ∧ (s.setArg i v).displayed = s.displayed ∧ (s.setArg i v).pend = s.pend ∧
    (s.setArg i v).panelBusy = s.panelBusy ∧ (s.setArg i v).draws = s.draws ∧ (s.setArg i v).busData = s.busData ∧
    (s.setArg i v).program = s.program ∧ (s.setArg i v).turns = s.turns ∧ (s.setArg i v).powered = s.powered :=
  ⟨rfl, rfl, rfl, rfl, rfl, rfl, rfl, rfl, rfl, rfl, rfl, rfl, rfl, rfl, rfl, rfl, rfl, rfl, rfl, rfl, rfl, rfl,
  rfl, rfl, rfl, rfl, rfl, rfl, rfl, rfl, rfl, rfl, rfl, rfl, rfl, rfl, rfl, rfl, rfl⟩

@[simp] theorem setArg_args (i : Fin Config.narg) (v : Word) (s : State) : (s.setArg i v).args = s.args.set i v := rfl

/-- A refused write changes BUSERR only. -/
@[simp] theorem refuseWrite_frame (s : State) :
    (s.refuseWrite).cmdBusy = s.cmdBusy ∧ (s.refuseWrite).imgActive = s.imgActive ∧ (s.refuseWrite).ovr = s.ovr ∧
    (s.refuseWrite).stickyErr = s.stickyErr ∧ (s.refuseWrite).err = s.err ∧
    (s.refuseWrite).resultValid = s.resultValid ∧ (s.refuseWrite).resultColor = s.resultColor ∧
    (s.refuseWrite).args = s.args ∧ (s.refuseWrite).fbW = s.fbW ∧ (s.refuseWrite).fbH = s.fbH ∧
    (s.refuseWrite).rot = s.rot ∧ (s.refuseWrite).store = s.store ∧ (s.refuseWrite).imgMode = s.imgMode ∧
    (s.refuseWrite).imgFlip = s.imgFlip ∧ (s.refuseWrite).imgX0 = s.imgX0 ∧ (s.refuseWrite).imgY0 = s.imgY0 ∧
    (s.refuseWrite).imgSrcW = s.imgSrcW ∧ (s.refuseWrite).imgSrcH = s.imgSrcH ∧ (s.refuseWrite).imgW = s.imgW ∧
    (s.refuseWrite).imgH = s.imgH ∧ (s.refuseWrite).imgCol = s.imgCol ∧ (s.refuseWrite).imgRow = s.imgRow ∧
    (s.refuseWrite).imgRowBytes = s.imgRowBytes ∧ (s.refuseWrite).imgPixOff = s.imgPixOff ∧
    (s.refuseWrite).waitCnt = s.waitCnt ∧ (s.refuseWrite).dcState = s.dcState ∧ (s.refuseWrite).orient = s.orient ∧
    (s.refuseWrite).base = s.base ∧ (s.refuseWrite).waited = s.waited ∧
    (s.refuseWrite).lastRefresh = s.lastRefresh ∧ (s.refuseWrite).pram = s.pram ∧
    (s.refuseWrite).displayed = s.displayed ∧ (s.refuseWrite).pend = s.pend ∧
    (s.refuseWrite).panelBusy = s.panelBusy ∧ (s.refuseWrite).draws = s.draws ∧
    (s.refuseWrite).busData = s.busData ∧ (s.refuseWrite).program = s.program ∧ (s.refuseWrite).turns = s.turns ∧
    (s.refuseWrite).powered = s.powered :=
  ⟨rfl, rfl, rfl, rfl, rfl, rfl, rfl, rfl, rfl, rfl, rfl, rfl, rfl, rfl, rfl, rfl, rfl, rfl, rfl, rfl, rfl, rfl,
  rfl, rfl, rfl, rfl, rfl, rfl, rfl, rfl, rfl, rfl, rfl, rfl, rfl, rfl, rfl, rfl, rfl⟩

@[simp] theorem refuseWrite_busErr (s : State) : (s.refuseWrite).busErr = true := rfl

/-- A refused read changes BUSERR and what the host is given. -/
@[simp] theorem refuseRead_frame (s : State) :
    (s.refuseRead).cmdBusy = s.cmdBusy ∧ (s.refuseRead).imgActive = s.imgActive ∧ (s.refuseRead).ovr = s.ovr ∧
    (s.refuseRead).stickyErr = s.stickyErr ∧ (s.refuseRead).err = s.err ∧
    (s.refuseRead).resultValid = s.resultValid ∧ (s.refuseRead).resultColor = s.resultColor ∧
    (s.refuseRead).args = s.args ∧ (s.refuseRead).fbW = s.fbW ∧ (s.refuseRead).fbH = s.fbH ∧
    (s.refuseRead).rot = s.rot ∧ (s.refuseRead).store = s.store ∧ (s.refuseRead).imgMode = s.imgMode ∧
    (s.refuseRead).imgFlip = s.imgFlip ∧ (s.refuseRead).imgX0 = s.imgX0 ∧ (s.refuseRead).imgY0 = s.imgY0 ∧
    (s.refuseRead).imgSrcW = s.imgSrcW ∧ (s.refuseRead).imgSrcH = s.imgSrcH ∧ (s.refuseRead).imgW = s.imgW ∧
    (s.refuseRead).imgH = s.imgH ∧ (s.refuseRead).imgCol = s.imgCol ∧ (s.refuseRead).imgRow = s.imgRow ∧
    (s.refuseRead).imgRowBytes = s.imgRowBytes ∧ (s.refuseRead).imgPixOff = s.imgPixOff ∧
    (s.refuseRead).waitCnt = s.waitCnt ∧ (s.refuseRead).dcState = s.dcState ∧ (s.refuseRead).orient = s.orient ∧
    (s.refuseRead).base = s.base ∧ (s.refuseRead).waited = s.waited ∧ (s.refuseRead).lastRefresh = s.lastRefresh ∧
    (s.refuseRead).pram = s.pram ∧ (s.refuseRead).displayed = s.displayed ∧ (s.refuseRead).pend = s.pend ∧
    (s.refuseRead).panelBusy = s.panelBusy ∧ (s.refuseRead).draws = s.draws ∧ (s.refuseRead).program = s.program ∧
    (s.refuseRead).turns = s.turns ∧ (s.refuseRead).powered = s.powered :=
  ⟨rfl, rfl, rfl, rfl, rfl, rfl, rfl, rfl, rfl, rfl, rfl, rfl, rfl, rfl, rfl, rfl, rfl, rfl, rfl, rfl, rfl, rfl,
  rfl, rfl, rfl, rfl, rfl, rfl, rfl, rfl, rfl, rfl, rfl, rfl, rfl, rfl, rfl, rfl⟩

@[simp] theorem refuseRead_busErr (s : State) : (s.refuseRead).busErr = true := rfl

@[simp] theorem refuseRead_busData (s : State) : (s.refuseRead).busData = 0 := rfl

/-- A register read changes only what the host is given. -/
@[simp] theorem readRegister_frame (r : Reg) (s : State) :
    (s.readRegister r).cmdBusy = s.cmdBusy ∧ (s.readRegister r).imgActive = s.imgActive ∧
    (s.readRegister r).ovr = s.ovr ∧ (s.readRegister r).busErr = s.busErr ∧
    (s.readRegister r).stickyErr = s.stickyErr ∧ (s.readRegister r).err = s.err ∧
    (s.readRegister r).resultValid = s.resultValid ∧ (s.readRegister r).resultColor = s.resultColor ∧
    (s.readRegister r).args = s.args ∧ (s.readRegister r).fbW = s.fbW ∧ (s.readRegister r).fbH = s.fbH ∧
    (s.readRegister r).rot = s.rot ∧ (s.readRegister r).store = s.store ∧ (s.readRegister r).imgMode = s.imgMode ∧
    (s.readRegister r).imgFlip = s.imgFlip ∧ (s.readRegister r).imgX0 = s.imgX0 ∧
    (s.readRegister r).imgY0 = s.imgY0 ∧ (s.readRegister r).imgSrcW = s.imgSrcW ∧
    (s.readRegister r).imgSrcH = s.imgSrcH ∧ (s.readRegister r).imgW = s.imgW ∧ (s.readRegister r).imgH = s.imgH ∧
    (s.readRegister r).imgCol = s.imgCol ∧ (s.readRegister r).imgRow = s.imgRow ∧
    (s.readRegister r).imgRowBytes = s.imgRowBytes ∧ (s.readRegister r).imgPixOff = s.imgPixOff ∧
    (s.readRegister r).waitCnt = s.waitCnt ∧ (s.readRegister r).dcState = s.dcState ∧
    (s.readRegister r).orient = s.orient ∧ (s.readRegister r).base = s.base ∧ (s.readRegister r).waited = s.waited ∧
    (s.readRegister r).lastRefresh = s.lastRefresh ∧ (s.readRegister r).pram = s.pram ∧
    (s.readRegister r).displayed = s.displayed ∧ (s.readRegister r).pend = s.pend ∧
    (s.readRegister r).panelBusy = s.panelBusy ∧ (s.readRegister r).draws = s.draws ∧
    (s.readRegister r).program = s.program ∧ (s.readRegister r).turns = s.turns ∧
    (s.readRegister r).powered = s.powered :=
  ⟨rfl, rfl, rfl, rfl, rfl, rfl, rfl, rfl, rfl, rfl, rfl, rfl, rfl, rfl, rfl, rfl, rfl, rfl, rfl, rfl, rfl, rfl,
  rfl, rfl, rfl, rfl, rfl, rfl, rfl, rfl, rfl, rfl, rfl, rfl, rfl, rfl, rfl, rfl, rfl⟩

@[simp] theorem readRegister_busData (r : Reg) (s : State) : (s.readRegister r).busData = readReg r s := rfl

/-- A window read changes only what the host is given and the number of draws taken. -/
@[simp] theorem readWindow_frame (k : Nat) (s : State) :
    (s.readWindow k).cmdBusy = s.cmdBusy ∧ (s.readWindow k).imgActive = s.imgActive ∧ (s.readWindow k).ovr = s.ovr ∧
    (s.readWindow k).busErr = s.busErr ∧ (s.readWindow k).stickyErr = s.stickyErr ∧ (s.readWindow k).err = s.err ∧
    (s.readWindow k).resultValid = s.resultValid ∧ (s.readWindow k).resultColor = s.resultColor ∧
    (s.readWindow k).args = s.args ∧ (s.readWindow k).fbW = s.fbW ∧ (s.readWindow k).fbH = s.fbH ∧
    (s.readWindow k).rot = s.rot ∧ (s.readWindow k).store = s.store ∧ (s.readWindow k).imgMode = s.imgMode ∧
    (s.readWindow k).imgFlip = s.imgFlip ∧ (s.readWindow k).imgX0 = s.imgX0 ∧ (s.readWindow k).imgY0 = s.imgY0 ∧
    (s.readWindow k).imgSrcW = s.imgSrcW ∧ (s.readWindow k).imgSrcH = s.imgSrcH ∧ (s.readWindow k).imgW = s.imgW ∧
    (s.readWindow k).imgH = s.imgH ∧ (s.readWindow k).imgCol = s.imgCol ∧ (s.readWindow k).imgRow = s.imgRow ∧
    (s.readWindow k).imgRowBytes = s.imgRowBytes ∧ (s.readWindow k).imgPixOff = s.imgPixOff ∧
    (s.readWindow k).waitCnt = s.waitCnt ∧ (s.readWindow k).dcState = s.dcState ∧
    (s.readWindow k).orient = s.orient ∧ (s.readWindow k).base = s.base ∧ (s.readWindow k).waited = s.waited ∧
    (s.readWindow k).lastRefresh = s.lastRefresh ∧ (s.readWindow k).pram = s.pram ∧
    (s.readWindow k).displayed = s.displayed ∧ (s.readWindow k).pend = s.pend ∧
    (s.readWindow k).panelBusy = s.panelBusy ∧ (s.readWindow k).program = s.program ∧
    (s.readWindow k).turns = s.turns ∧ (s.readWindow k).powered = s.powered :=
  ⟨rfl, rfl, rfl, rfl, rfl, rfl, rfl, rfl, rfl, rfl, rfl, rfl, rfl, rfl, rfl, rfl, rfl, rfl, rfl, rfl, rfl, rfl,
  rfl, rfl, rfl, rfl, rfl, rfl, rfl, rfl, rfl, rfl, rfl, rfl, rfl, rfl, rfl, rfl⟩

@[simp] theorem readWindow_busData (k : Nat) (s : State) : (s.readWindow k).busData = BitVec.setWidth 32 (s.store.byteRead k s.draws) := rfl

@[simp] theorem readWindow_draws (k : Nat) (s : State) : (s.readWindow k).draws = s.draws + 8 := rfl

/-- A window write changes the backing store only. -/
@[simp] theorem writeWindow_frame (k : Nat) (v : Byte) (s : State) :
    (s.writeWindow k v).cmdBusy = s.cmdBusy ∧ (s.writeWindow k v).imgActive = s.imgActive ∧
    (s.writeWindow k v).ovr = s.ovr ∧ (s.writeWindow k v).busErr = s.busErr ∧
    (s.writeWindow k v).stickyErr = s.stickyErr ∧ (s.writeWindow k v).err = s.err ∧
    (s.writeWindow k v).resultValid = s.resultValid ∧ (s.writeWindow k v).resultColor = s.resultColor ∧
    (s.writeWindow k v).args = s.args ∧ (s.writeWindow k v).fbW = s.fbW ∧ (s.writeWindow k v).fbH = s.fbH ∧
    (s.writeWindow k v).rot = s.rot ∧ (s.writeWindow k v).imgMode = s.imgMode ∧
    (s.writeWindow k v).imgFlip = s.imgFlip ∧ (s.writeWindow k v).imgX0 = s.imgX0 ∧
    (s.writeWindow k v).imgY0 = s.imgY0 ∧ (s.writeWindow k v).imgSrcW = s.imgSrcW ∧
    (s.writeWindow k v).imgSrcH = s.imgSrcH ∧ (s.writeWindow k v).imgW = s.imgW ∧
    (s.writeWindow k v).imgH = s.imgH ∧ (s.writeWindow k v).imgCol = s.imgCol ∧
    (s.writeWindow k v).imgRow = s.imgRow ∧ (s.writeWindow k v).imgRowBytes = s.imgRowBytes ∧
    (s.writeWindow k v).imgPixOff = s.imgPixOff ∧ (s.writeWindow k v).waitCnt = s.waitCnt ∧
    (s.writeWindow k v).dcState = s.dcState ∧ (s.writeWindow k v).orient = s.orient ∧
    (s.writeWindow k v).base = s.base ∧ (s.writeWindow k v).waited = s.waited ∧
    (s.writeWindow k v).lastRefresh = s.lastRefresh ∧ (s.writeWindow k v).pram = s.pram ∧
    (s.writeWindow k v).displayed = s.displayed ∧ (s.writeWindow k v).pend = s.pend ∧
    (s.writeWindow k v).panelBusy = s.panelBusy ∧ (s.writeWindow k v).draws = s.draws ∧
    (s.writeWindow k v).busData = s.busData ∧ (s.writeWindow k v).program = s.program ∧
    (s.writeWindow k v).turns = s.turns ∧ (s.writeWindow k v).powered = s.powered :=
  ⟨rfl, rfl, rfl, rfl, rfl, rfl, rfl, rfl, rfl, rfl, rfl, rfl, rfl, rfl, rfl, rfl, rfl, rfl, rfl, rfl, rfl, rfl,
  rfl, rfl, rfl, rfl, rfl, rfl, rfl, rfl, rfl, rfl, rfl, rfl, rfl, rfl, rfl, rfl, rfl⟩

@[simp] theorem writeWindow_store (k : Nat) (v : Byte) (s : State) : (s.writeWindow k v).store = s.store.byteWrite k v := rfl

/-- Load changes PRAM only. -/
@[simp] theorem load_frame (r : Region) (s : State) :
    (s.load r).cmdBusy = s.cmdBusy ∧ (s.load r).imgActive = s.imgActive ∧ (s.load r).ovr = s.ovr ∧
    (s.load r).busErr = s.busErr ∧ (s.load r).stickyErr = s.stickyErr ∧ (s.load r).err = s.err ∧
    (s.load r).resultValid = s.resultValid ∧ (s.load r).resultColor = s.resultColor ∧ (s.load r).args = s.args ∧
    (s.load r).fbW = s.fbW ∧ (s.load r).fbH = s.fbH ∧ (s.load r).rot = s.rot ∧ (s.load r).store = s.store ∧
    (s.load r).imgMode = s.imgMode ∧ (s.load r).imgFlip = s.imgFlip ∧ (s.load r).imgX0 = s.imgX0 ∧
    (s.load r).imgY0 = s.imgY0 ∧ (s.load r).imgSrcW = s.imgSrcW ∧ (s.load r).imgSrcH = s.imgSrcH ∧
    (s.load r).imgW = s.imgW ∧ (s.load r).imgH = s.imgH ∧ (s.load r).imgCol = s.imgCol ∧
    (s.load r).imgRow = s.imgRow ∧ (s.load r).imgRowBytes = s.imgRowBytes ∧ (s.load r).imgPixOff = s.imgPixOff ∧
    (s.load r).waitCnt = s.waitCnt ∧ (s.load r).dcState = s.dcState ∧ (s.load r).orient = s.orient ∧
    (s.load r).base = s.base ∧ (s.load r).waited = s.waited ∧ (s.load r).lastRefresh = s.lastRefresh ∧
    (s.load r).displayed = s.displayed ∧ (s.load r).pend = s.pend ∧ (s.load r).panelBusy = s.panelBusy ∧
    (s.load r).draws = s.draws ∧ (s.load r).busData = s.busData ∧ (s.load r).program = s.program ∧
    (s.load r).turns = s.turns ∧ (s.load r).powered = s.powered :=
  ⟨rfl, rfl, rfl, rfl, rfl, rfl, rfl, rfl, rfl, rfl, rfl, rfl, rfl, rfl, rfl, rfl, rfl, rfl, rfl, rfl, rfl, rfl,
  rfl, rfl, rfl, rfl, rfl, rfl, rfl, rfl, rfl, rfl, rfl, rfl, rfl, rfl, rfl, rfl, rfl⟩

@[simp] theorem load_pram (r : Region) (s : State) : (s.load r).pram = Memory.build (loadedCell r s.geom s.store s.pram) := rfl

/-- A refresh trigger changes PEND, PANEL_BUSY, WAITED, DC_STATE and LAST_REFRESH only. -/
@[simp] theorem trigger_frame (k : RefreshKind) (s : State) :
    (s.trigger k).cmdBusy = s.cmdBusy ∧ (s.trigger k).imgActive = s.imgActive ∧ (s.trigger k).ovr = s.ovr ∧
    (s.trigger k).busErr = s.busErr ∧ (s.trigger k).stickyErr = s.stickyErr ∧ (s.trigger k).err = s.err ∧
    (s.trigger k).resultValid = s.resultValid ∧ (s.trigger k).resultColor = s.resultColor ∧
    (s.trigger k).args = s.args ∧ (s.trigger k).fbW = s.fbW ∧ (s.trigger k).fbH = s.fbH ∧
    (s.trigger k).rot = s.rot ∧ (s.trigger k).store = s.store ∧ (s.trigger k).imgMode = s.imgMode ∧
    (s.trigger k).imgFlip = s.imgFlip ∧ (s.trigger k).imgX0 = s.imgX0 ∧ (s.trigger k).imgY0 = s.imgY0 ∧
    (s.trigger k).imgSrcW = s.imgSrcW ∧ (s.trigger k).imgSrcH = s.imgSrcH ∧ (s.trigger k).imgW = s.imgW ∧
    (s.trigger k).imgH = s.imgH ∧ (s.trigger k).imgCol = s.imgCol ∧ (s.trigger k).imgRow = s.imgRow ∧
    (s.trigger k).imgRowBytes = s.imgRowBytes ∧ (s.trigger k).imgPixOff = s.imgPixOff ∧
    (s.trigger k).waitCnt = s.waitCnt ∧ (s.trigger k).orient = s.orient ∧ (s.trigger k).base = s.base ∧
    (s.trigger k).pram = s.pram ∧ (s.trigger k).displayed = s.displayed ∧ (s.trigger k).draws = s.draws ∧
    (s.trigger k).busData = s.busData ∧ (s.trigger k).program = s.program ∧ (s.trigger k).turns = s.turns ∧
    (s.trigger k).powered = s.powered :=
  ⟨rfl, rfl, rfl, rfl, rfl, rfl, rfl, rfl, rfl, rfl, rfl, rfl, rfl, rfl, rfl, rfl, rfl, rfl, rfl, rfl, rfl, rfl,
  rfl, rfl, rfl, rfl, rfl, rfl, rfl, rfl, rfl, rfl, rfl, rfl, rfl⟩

@[simp] theorem trigger_pend (k : RefreshKind) (s : State) : (s.trigger k).pend = some ⟨s.pram, k⟩ := rfl

@[simp] theorem trigger_panelBusy (k : RefreshKind) (s : State) : (s.trigger k).panelBusy = true := rfl

@[simp] theorem trigger_waited (k : RefreshKind) (s : State) : (s.trigger k).waited = false := rfl

@[simp] theorem trigger_dcState (k : RefreshKind) (s : State) : (s.trigger k).dcState = .active := rfl

@[simp] theorem trigger_lastRefresh (k : RefreshKind) (s : State) : (s.trigger k).lastRefresh = some k := rfl

/-- Opening a stream changes the IMG_* registers and IMG_ACTIVE only. -/
@[simp] theorem openStream_frame (f : ImgFrame) (s : State) :
    (s.openStream f).cmdBusy = s.cmdBusy ∧ (s.openStream f).ovr = s.ovr ∧ (s.openStream f).busErr = s.busErr ∧
    (s.openStream f).stickyErr = s.stickyErr ∧ (s.openStream f).err = s.err ∧
    (s.openStream f).resultValid = s.resultValid ∧ (s.openStream f).resultColor = s.resultColor ∧
    (s.openStream f).args = s.args ∧ (s.openStream f).fbW = s.fbW ∧ (s.openStream f).fbH = s.fbH ∧
    (s.openStream f).rot = s.rot ∧ (s.openStream f).store = s.store ∧ (s.openStream f).waitCnt = s.waitCnt ∧
    (s.openStream f).dcState = s.dcState ∧ (s.openStream f).orient = s.orient ∧ (s.openStream f).base = s.base ∧
    (s.openStream f).waited = s.waited ∧ (s.openStream f).lastRefresh = s.lastRefresh ∧
    (s.openStream f).pram = s.pram ∧ (s.openStream f).displayed = s.displayed ∧ (s.openStream f).pend = s.pend ∧
    (s.openStream f).panelBusy = s.panelBusy ∧ (s.openStream f).draws = s.draws ∧
    (s.openStream f).busData = s.busData ∧ (s.openStream f).program = s.program ∧ (s.openStream f).turns = s.turns ∧
    (s.openStream f).powered = s.powered :=
  ⟨rfl, rfl, rfl, rfl, rfl, rfl, rfl, rfl, rfl, rfl, rfl, rfl, rfl, rfl, rfl, rfl, rfl, rfl, rfl, rfl, rfl, rfl,
  rfl, rfl, rfl, rfl, rfl⟩

@[simp] theorem openStream_imgMode (f : ImgFrame) (s : State) :
    (s.openStream f).imgMode = f.mode := rfl

@[simp] theorem openStream_imgFlip (f : ImgFrame) (s : State) :
    (s.openStream f).imgFlip = f.flip := rfl

@[simp] theorem openStream_imgX0 (f : ImgFrame) (s : State) :
    (s.openStream f).imgX0 = BitVec.ofNat 16 f.x0 := rfl

@[simp] theorem openStream_imgY0 (f : ImgFrame) (s : State) :
    (s.openStream f).imgY0 = BitVec.ofNat 16 f.y0 := rfl

@[simp] theorem openStream_imgSrcW (f : ImgFrame) (s : State) :
    (s.openStream f).imgSrcW = BitVec.ofNat 16 f.srcW := rfl

@[simp] theorem openStream_imgSrcH (f : ImgFrame) (s : State) :
    (s.openStream f).imgSrcH = BitVec.ofNat 16 f.srcH := rfl

@[simp] theorem openStream_imgW (f : ImgFrame) (s : State) :
    (s.openStream f).imgW = BitVec.ofNat 16 (f.windowW s.geom) := rfl

@[simp] theorem openStream_imgH (f : ImgFrame) (s : State) :
    (s.openStream f).imgH = BitVec.ofNat 16 (f.windowH s.geom) := rfl

@[simp] theorem openStream_imgRowBytes (f : ImgFrame) (s : State) :
    (s.openStream f).imgRowBytes = BitVec.ofNat 32 f.stride := rfl

@[simp] theorem openStream_imgPixOff (f : ImgFrame) (s : State) :
    (s.openStream f).imgPixOff = f.off := rfl

@[simp] theorem openStream_imgCol (f : ImgFrame) (s : State) :
    (s.openStream f).imgCol = 0 := rfl

@[simp] theorem openStream_imgRow (f : ImgFrame) (s : State) :
    (s.openStream f).imgRow = 0 := rfl

@[simp] theorem openStream_imgActive (f : ImgFrame) (s : State) :
    (s.openStream f).imgActive = (decide (f.windowW s.geom > 0) && decide (f.windowH s.geom > 0)) := rfl

/-- The cursor's advance changes IMG_POS and IMG_ACTIVE only. -/
@[simp] theorem advanceCursor_frame (s : State) :
    (s.advanceCursor).cmdBusy = s.cmdBusy ∧ (s.advanceCursor).ovr = s.ovr ∧ (s.advanceCursor).busErr = s.busErr ∧
    (s.advanceCursor).stickyErr = s.stickyErr ∧ (s.advanceCursor).err = s.err ∧
    (s.advanceCursor).resultValid = s.resultValid ∧ (s.advanceCursor).resultColor = s.resultColor ∧
    (s.advanceCursor).args = s.args ∧ (s.advanceCursor).fbW = s.fbW ∧ (s.advanceCursor).fbH = s.fbH ∧
    (s.advanceCursor).rot = s.rot ∧ (s.advanceCursor).store = s.store ∧ (s.advanceCursor).imgMode = s.imgMode ∧
    (s.advanceCursor).imgFlip = s.imgFlip ∧ (s.advanceCursor).imgX0 = s.imgX0 ∧ (s.advanceCursor).imgY0 = s.imgY0 ∧
    (s.advanceCursor).imgSrcW = s.imgSrcW ∧ (s.advanceCursor).imgSrcH = s.imgSrcH ∧
    (s.advanceCursor).imgW = s.imgW ∧ (s.advanceCursor).imgH = s.imgH ∧
    (s.advanceCursor).imgRowBytes = s.imgRowBytes ∧ (s.advanceCursor).imgPixOff = s.imgPixOff ∧
    (s.advanceCursor).waitCnt = s.waitCnt ∧ (s.advanceCursor).dcState = s.dcState ∧
    (s.advanceCursor).orient = s.orient ∧ (s.advanceCursor).base = s.base ∧ (s.advanceCursor).waited = s.waited ∧
    (s.advanceCursor).lastRefresh = s.lastRefresh ∧ (s.advanceCursor).pram = s.pram ∧
    (s.advanceCursor).displayed = s.displayed ∧ (s.advanceCursor).pend = s.pend ∧
    (s.advanceCursor).panelBusy = s.panelBusy ∧ (s.advanceCursor).draws = s.draws ∧
    (s.advanceCursor).busData = s.busData ∧ (s.advanceCursor).program = s.program ∧
    (s.advanceCursor).turns = s.turns ∧ (s.advanceCursor).powered = s.powered := by
  unfold State.advanceCursor
  split <;> exact ⟨rfl, rfl, rfl, rfl, rfl, rfl, rfl, rfl, rfl, rfl, rfl, rfl, rfl, rfl, rfl, rfl, rfl, rfl, rfl,
  rfl, rfl, rfl, rfl, rfl, rfl, rfl, rfl, rfl, rfl, rfl, rfl, rfl, rfl, rfl, rfl, rfl, rfl⟩

/-- Push changes the backing store, IMG_POS and IMG_ACTIVE only. -/
@[simp] theorem push_frame (c : Color) (s : State) :
    (s.push c).cmdBusy = s.cmdBusy ∧ (s.push c).ovr = s.ovr ∧ (s.push c).busErr = s.busErr ∧
    (s.push c).stickyErr = s.stickyErr ∧ (s.push c).err = s.err ∧ (s.push c).resultValid = s.resultValid ∧
    (s.push c).resultColor = s.resultColor ∧ (s.push c).args = s.args ∧ (s.push c).fbW = s.fbW ∧
    (s.push c).fbH = s.fbH ∧ (s.push c).rot = s.rot ∧ (s.push c).imgMode = s.imgMode ∧
    (s.push c).imgFlip = s.imgFlip ∧ (s.push c).imgX0 = s.imgX0 ∧ (s.push c).imgY0 = s.imgY0 ∧
    (s.push c).imgSrcW = s.imgSrcW ∧ (s.push c).imgSrcH = s.imgSrcH ∧ (s.push c).imgW = s.imgW ∧
    (s.push c).imgH = s.imgH ∧ (s.push c).imgRowBytes = s.imgRowBytes ∧ (s.push c).imgPixOff = s.imgPixOff ∧
    (s.push c).waitCnt = s.waitCnt ∧ (s.push c).dcState = s.dcState ∧ (s.push c).orient = s.orient ∧
    (s.push c).base = s.base ∧ (s.push c).waited = s.waited ∧ (s.push c).lastRefresh = s.lastRefresh ∧
    (s.push c).pram = s.pram ∧ (s.push c).displayed = s.displayed ∧ (s.push c).pend = s.pend ∧
    (s.push c).panelBusy = s.panelBusy ∧ (s.push c).draws = s.draws ∧ (s.push c).busData = s.busData ∧
    (s.push c).program = s.program ∧ (s.push c).turns = s.turns ∧ (s.push c).powered = s.powered := by
  unfold State.push State.advanceCursor
  split <;> exact ⟨rfl, rfl, rfl, rfl, rfl, rfl, rfl, rfl, rfl, rfl, rfl, rfl, rfl, rfl, rfl, rfl, rfl, rfl, rfl,
  rfl, rfl, rfl, rfl, rfl, rfl, rfl, rfl, rfl, rfl, rfl, rfl, rfl, rfl, rfl, rfl, rfl⟩

@[simp] theorem push_store (c : Color) (s : State) :
    (s.push c).store = s.store.plot s.geom c s.pushPoint.1 s.pushPoint.2 := by
  unfold State.push State.advanceCursor
  split <;> rfl

/-- A poll tick changes CMD_BUSY, WAITED, WAIT_CNT, ERR and STICKY_ERR only. -/
@[simp] theorem pollTick_frame (limit : Nat) (s : State) :
    (s.pollTick limit).imgActive = s.imgActive ∧ (s.pollTick limit).ovr = s.ovr ∧
    (s.pollTick limit).busErr = s.busErr ∧ (s.pollTick limit).resultValid = s.resultValid ∧
    (s.pollTick limit).resultColor = s.resultColor ∧ (s.pollTick limit).args = s.args ∧
    (s.pollTick limit).fbW = s.fbW ∧ (s.pollTick limit).fbH = s.fbH ∧ (s.pollTick limit).rot = s.rot ∧
    (s.pollTick limit).store = s.store ∧ (s.pollTick limit).imgMode = s.imgMode ∧
    (s.pollTick limit).imgFlip = s.imgFlip ∧ (s.pollTick limit).imgX0 = s.imgX0 ∧
    (s.pollTick limit).imgY0 = s.imgY0 ∧ (s.pollTick limit).imgSrcW = s.imgSrcW ∧
    (s.pollTick limit).imgSrcH = s.imgSrcH ∧ (s.pollTick limit).imgW = s.imgW ∧ (s.pollTick limit).imgH = s.imgH ∧
    (s.pollTick limit).imgCol = s.imgCol ∧ (s.pollTick limit).imgRow = s.imgRow ∧
    (s.pollTick limit).imgRowBytes = s.imgRowBytes ∧ (s.pollTick limit).imgPixOff = s.imgPixOff ∧
    (s.pollTick limit).dcState = s.dcState ∧ (s.pollTick limit).orient = s.orient ∧
    (s.pollTick limit).base = s.base ∧ (s.pollTick limit).lastRefresh = s.lastRefresh ∧
    (s.pollTick limit).pram = s.pram ∧ (s.pollTick limit).displayed = s.displayed ∧
    (s.pollTick limit).pend = s.pend ∧ (s.pollTick limit).panelBusy = s.panelBusy ∧
    (s.pollTick limit).draws = s.draws ∧ (s.pollTick limit).busData = s.busData ∧
    (s.pollTick limit).program = s.program ∧ (s.pollTick limit).turns = s.turns ∧
    (s.pollTick limit).powered = s.powered := by
  unfold State.pollTick State.complete
  repeat' split
  all_goals exact ⟨rfl, rfl, rfl, rfl, rfl, rfl, rfl, rfl, rfl, rfl, rfl, rfl, rfl, rfl, rfl, rfl, rfl, rfl, rfl,
  rfl, rfl, rfl, rfl, rfl, rfl, rfl, rfl, rfl, rfl, rfl, rfl, rfl, rfl, rfl, rfl⟩

/-- The busy fall changes PANEL_BUSY, DISPLAYED and PEND only. -/
@[simp] theorem busyFall_frame (s : State) :
    (s.busyFall).cmdBusy = s.cmdBusy ∧ (s.busyFall).imgActive = s.imgActive ∧ (s.busyFall).ovr = s.ovr ∧
    (s.busyFall).busErr = s.busErr ∧ (s.busyFall).stickyErr = s.stickyErr ∧ (s.busyFall).err = s.err ∧
    (s.busyFall).resultValid = s.resultValid ∧ (s.busyFall).resultColor = s.resultColor ∧
    (s.busyFall).args = s.args ∧ (s.busyFall).fbW = s.fbW ∧ (s.busyFall).fbH = s.fbH ∧ (s.busyFall).rot = s.rot ∧
    (s.busyFall).store = s.store ∧ (s.busyFall).imgMode = s.imgMode ∧ (s.busyFall).imgFlip = s.imgFlip ∧
    (s.busyFall).imgX0 = s.imgX0 ∧ (s.busyFall).imgY0 = s.imgY0 ∧ (s.busyFall).imgSrcW = s.imgSrcW ∧
    (s.busyFall).imgSrcH = s.imgSrcH ∧ (s.busyFall).imgW = s.imgW ∧ (s.busyFall).imgH = s.imgH ∧
    (s.busyFall).imgCol = s.imgCol ∧ (s.busyFall).imgRow = s.imgRow ∧ (s.busyFall).imgRowBytes = s.imgRowBytes ∧
    (s.busyFall).imgPixOff = s.imgPixOff ∧ (s.busyFall).waitCnt = s.waitCnt ∧ (s.busyFall).dcState = s.dcState ∧
    (s.busyFall).orient = s.orient ∧ (s.busyFall).base = s.base ∧ (s.busyFall).waited = s.waited ∧
    (s.busyFall).lastRefresh = s.lastRefresh ∧ (s.busyFall).pram = s.pram ∧ (s.busyFall).draws = s.draws ∧
    (s.busyFall).busData = s.busData ∧ (s.busyFall).program = s.program ∧ (s.busyFall).turns = s.turns ∧
    (s.busyFall).powered = s.powered := by
  unfold State.busyFall
  repeat' split
  all_goals exact ⟨rfl, rfl, rfl, rfl, rfl, rfl, rfl, rfl, rfl, rfl, rfl, rfl, rfl, rfl, rfl, rfl, rfl, rfl, rfl,
  rfl, rfl, rfl, rfl, rfl, rfl, rfl, rfl, rfl, rfl, rfl, rfl, rfl, rfl, rfl, rfl, rfl, rfl⟩

/-- Cutting the power changes DISPLAYED and the power only. -/
@[simp] theorem cutPower_frame (s : State) :
    (s.cutPower).cmdBusy = s.cmdBusy ∧ (s.cutPower).imgActive = s.imgActive ∧ (s.cutPower).ovr = s.ovr ∧
    (s.cutPower).busErr = s.busErr ∧ (s.cutPower).stickyErr = s.stickyErr ∧ (s.cutPower).err = s.err ∧
    (s.cutPower).resultValid = s.resultValid ∧ (s.cutPower).resultColor = s.resultColor ∧
    (s.cutPower).args = s.args ∧ (s.cutPower).fbW = s.fbW ∧ (s.cutPower).fbH = s.fbH ∧ (s.cutPower).rot = s.rot ∧
    (s.cutPower).store = s.store ∧ (s.cutPower).imgMode = s.imgMode ∧ (s.cutPower).imgFlip = s.imgFlip ∧
    (s.cutPower).imgX0 = s.imgX0 ∧ (s.cutPower).imgY0 = s.imgY0 ∧ (s.cutPower).imgSrcW = s.imgSrcW ∧
    (s.cutPower).imgSrcH = s.imgSrcH ∧ (s.cutPower).imgW = s.imgW ∧ (s.cutPower).imgH = s.imgH ∧
    (s.cutPower).imgCol = s.imgCol ∧ (s.cutPower).imgRow = s.imgRow ∧ (s.cutPower).imgRowBytes = s.imgRowBytes ∧
    (s.cutPower).imgPixOff = s.imgPixOff ∧ (s.cutPower).waitCnt = s.waitCnt ∧ (s.cutPower).dcState = s.dcState ∧
    (s.cutPower).orient = s.orient ∧ (s.cutPower).base = s.base ∧ (s.cutPower).waited = s.waited ∧
    (s.cutPower).lastRefresh = s.lastRefresh ∧ (s.cutPower).pram = s.pram ∧ (s.cutPower).pend = s.pend ∧
    (s.cutPower).panelBusy = s.panelBusy ∧ (s.cutPower).draws = s.draws ∧ (s.cutPower).busData = s.busData ∧
    (s.cutPower).program = s.program ∧ (s.cutPower).turns = s.turns := by
  unfold State.cutPower
  split <;> exact ⟨rfl, rfl, rfl, rfl, rfl, rfl, rfl, rfl, rfl, rfl, rfl, rfl, rfl, rfl, rfl, rfl, rfl, rfl, rfl,
  rfl, rfl, rfl, rfl, rfl, rfl, rfl, rfl, rfl, rfl, rfl, rfl, rfl, rfl, rfl, rfl, rfl, rfl, rfl⟩

/-- Taking a turn off the list changes the list only. -/
@[simp] theorem popTurn_frame (s : State) :
    (s.popTurn).cmdBusy = s.cmdBusy ∧ (s.popTurn).imgActive = s.imgActive ∧ (s.popTurn).ovr = s.ovr ∧
    (s.popTurn).busErr = s.busErr ∧ (s.popTurn).stickyErr = s.stickyErr ∧ (s.popTurn).err = s.err ∧
    (s.popTurn).resultValid = s.resultValid ∧ (s.popTurn).resultColor = s.resultColor ∧ (s.popTurn).args = s.args ∧
    (s.popTurn).fbW = s.fbW ∧ (s.popTurn).fbH = s.fbH ∧ (s.popTurn).rot = s.rot ∧ (s.popTurn).store = s.store ∧
    (s.popTurn).imgMode = s.imgMode ∧ (s.popTurn).imgFlip = s.imgFlip ∧ (s.popTurn).imgX0 = s.imgX0 ∧
    (s.popTurn).imgY0 = s.imgY0 ∧ (s.popTurn).imgSrcW = s.imgSrcW ∧ (s.popTurn).imgSrcH = s.imgSrcH ∧
    (s.popTurn).imgW = s.imgW ∧ (s.popTurn).imgH = s.imgH ∧ (s.popTurn).imgCol = s.imgCol ∧
    (s.popTurn).imgRow = s.imgRow ∧ (s.popTurn).imgRowBytes = s.imgRowBytes ∧ (s.popTurn).imgPixOff = s.imgPixOff ∧
    (s.popTurn).waitCnt = s.waitCnt ∧ (s.popTurn).dcState = s.dcState ∧ (s.popTurn).orient = s.orient ∧
    (s.popTurn).base = s.base ∧ (s.popTurn).waited = s.waited ∧ (s.popTurn).lastRefresh = s.lastRefresh ∧
    (s.popTurn).pram = s.pram ∧ (s.popTurn).displayed = s.displayed ∧ (s.popTurn).pend = s.pend ∧
    (s.popTurn).panelBusy = s.panelBusy ∧ (s.popTurn).draws = s.draws ∧ (s.popTurn).busData = s.busData ∧
    (s.popTurn).program = s.program ∧ (s.popTurn).powered = s.powered :=
  ⟨rfl, rfl, rfl, rfl, rfl, rfl, rfl, rfl, rfl, rfl, rfl, rfl, rfl, rfl, rfl, rfl, rfl, rfl, rfl, rfl, rfl, rfl,
  rfl, rfl, rfl, rfl, rfl, rfl, rfl, rfl, rfl, rfl, rfl, rfl, rfl, rfl, rfl, rfl, rfl⟩

@[simp] theorem popTurn_turns (s : State) : (s.popTurn).turns = s.turns.tail := rfl

end Sys2Proof.Machine
end

