-- ==== Sys2Proof/Laws/Step.lean ====
section
/-! SUPPORT. What a command and a step can do, said once: every command is the common checks around its body
(spec/60_exceptions.md R274), and every step is one of the turns of spec/00_scope.md R6. A property that each of these
keeps is kept by every step (`step_keeps`). -/

namespace Sys2Proof.Machine

/-- Whether a command may be issued while an image stream is open (spec/60_exceptions.md R274, 3). -/
def exemptOf : Instr → Bool
  | .imgPixelRgb _ _ _ => true
  | .imgPixel565 _ => true
  | .imgAbort => true
  | _ => false

/-- A command's own checks and effects, once the common checks have passed. -/
def bodyOf : Instr → State → State
  | .fbReset => fbResetBody
  | .fbClear c => fbClearBody c
  | .fbSetPixel c => fbSetPixelBody c
  | .fbGetPixel => fbGetPixelBody
  | .fbRotate r => fbRotateBody r
  | .fbDrawLine c => fbDrawLineBody c
  | .fbDrawRect c => fbDrawRectBody c
  | .fbFillRect c => fbFillRectBody c
  | .imgBeginBmp => imgBeginBmpBody
  | .imgBeginGen => imgBeginGenBody
  | .imgPixelRgb r g b => State.pushPixel .bitmap (thrBmp r g b)
  | .imgPixel565 v => State.pushPixel .generic (thrGen v)
  | .imgAbort => imgAbortBody
  | .dcInit o => dcInitBody o
  | .dcWaitIdle => dcWaitIdleBody
  | .dcWriteBase => State.frameOp dcWriteBaseBody
  | .dcSetFrameMemory => State.frameOp dcSetFrameMemoryBody
  | .dcDisplayFrame => State.frameOp dcDisplayFrameBody
  | .dcDisplayPart p => State.frameOp (dcDisplayPartBody p)
  | .dcSleep => State.frameOp dcSleepBody
  | .dcClear => State.frameOp dcClearBody

/-- Every command is the common checks around its body; none stops. -/
theorem exec_eq (i : Instr) (s : State) : exec i s = .next (s.issue (exemptOf i) (bodyOf i)) := by
  cases i <;> rfl

/-- The common checks, case by case. -/
theorem issue_cases (exempt : Bool) (body : State → State) (s : State) :
    (s.cmdBusy = true ∧ s.issue exempt body = s.dropCommand) ∨
    (s.cmdBusy = false ∧ s.imgActive = true ∧ exempt = false ∧ s.issue exempt body = s.complete .streamActive) ∨
    (s.cmdBusy = false ∧ (s.imgActive = true → exempt = true) ∧ s.issue exempt body = body s) := by
  unfold State.issue
  cases s.cmdBusy <;> cases s.imgActive <;> cases exempt <;> simp

/-- An accepted command runs its body. -/
theorem exec_of_accepted {i : Instr} {s : State} (hb : s.cmdBusy = false)
    (ha : s.imgActive = false ∨ exemptOf i = true) : exec i s = .next (bodyOf i s) := by
  rw [exec_eq]
  unfold State.issue
  rcases ha with h | h <;> simp [hb, h]

/-- The checks of a frame operation, case by case (spec/43_display_controller.md R223). -/
theorem frameOp_cases (body : State → State) (s : State) :
    ((s.dcState = .uninit ∨ s.dcState = .sleep) ∧ s.frameOp body = s.complete .state) ∨
    ((s.dcState = .init ∨ s.dcState = .active) ∧ s.waited = false ∧ s.frameOp body = s.complete .noWait) ∨
    ((s.dcState = .init ∨ s.dcState = .active) ∧ s.waited = true ∧ s.frameOp body = body s) := by
  unfold State.frameOp State.frameError
  cases h : s.dcState <;> cases hw : s.waited <;> simp

/-- A frame operation whose checks pass runs its body. -/
theorem frameOp_of_ready {body : State → State} {s : State} (hd : s.dcState = .init ∨ s.dcState = .active)
    (hw : s.waited = true) : s.frameOp body = body s := by
  unfold State.frameOp State.frameError
  rcases hd with h | h <;> simp [h, hw]

theorem windowByteAt_lt {off : Offset} {k : Nat} (h : windowByteAt off = some k) : k < Config.backingBytes := by
  unfold windowByteAt at h
  split at h
  · simp only [Option.some.injEq] at h; omega
  · cases h

/-- What a read can do: nothing to the block but BUSERR. -/
theorem busRead_cases (off : Offset) (n : Nat) (s : State) :
    (∃ r, s.busRead off n = s.readRegister r) ∨
    (∃ k, k < Config.backingBytes ∧ s.busRead off n = s.readWindow k) ∨
    s.busRead off n = s.refuseRead := by
  unfold State.busRead
  split
  · split
    · exact .inl ⟨_, rfl⟩
    · exact .inr (.inr rfl)
  · split
    · split
      · rename_i h; exact .inr (.inl ⟨_, windowByteAt_lt h, rfl⟩)
      · exact .inr (.inr rfl)
    · exact .inr (.inr rfl)

/-- What a write can do: a command, an illegal word, an argument register, a window byte, or a refusal. -/
theorem busWrite_cases (off : Offset) (n : Nat) (v : Word) (s : State) :
    (∃ i, s.busWrite off n v = exec i s) ∨
    s.busWrite off n v = .next s.issueIllegal ∨
    (∃ i, s.busWrite off n v = .next (s.setArg i v)) ∨
    (∃ k b, k < Config.backingBytes ∧ s.busWrite off n v = .next (s.writeWindow k b)) ∨
    s.busWrite off n v = .next s.refuseWrite := by
  unfold State.busWrite
  split
  · split
    · rename_i r _
      cases r with
      | cmd =>
        unfold State.writeRegister issueWord
        dsimp only
        split
        · exact .inl ⟨_, rfl⟩
        · exact .inr (.inl rfl)
      | arg i => exact .inr (.inr (.inl ⟨i, rfl⟩))
      | _ => exact .inr (.inr (.inr (.inr rfl)))
    · exact .inr (.inr (.inr (.inr rfl)))
  · split
    · split
      · rename_i h; exact .inr (.inr (.inr (.inl ⟨_, _, windowByteAt_lt h, rfl⟩)))
      · exact .inr (.inr (.inr (.inr rfl)))
    · exact .inr (.inr (.inr (.inr rfl)))

/-- What every step keeps: a property of the block that does not speak of the host's data and inputs, and that each
command's completion or body, each other access and each turn keeps. -/
theorem step_keeps {I : State → Prop}
    (inputs : ∀ s (p : List HostOp) (ts : List Turn) (d : Word) (n : Nat), I s →
      I { s with program := p, turns := ts, busData := d, draws := n })
    (complete : ∀ s code, I s → code ≠ .ok → I (s.complete code))
    (drop : ∀ s, I s → I s.dropCommand)
    (refuse : ∀ s, I s → I s.refuseWrite)
    (setArg : ∀ s i v, I s → I (s.setArg i v))
    (window : ∀ s k v, k < Config.backingBytes → I s → I (s.writeWindow k v))
    (body : ∀ i s, I s → s.cmdBusy = false → (s.imgActive = true → exemptOf i = true) → I (bodyOf i s))
    (tick : ∀ s, I s → I (s.pollTick Config.waitTimeoutTicks))
    (fall : ∀ s, I s → I s.busyFall)
    (cut : ∀ s, I s → I s.cutPower)
    (reset : ∀ s, I s → I s.powerOnReset)
    {s t : State} (hs : I s) (h : step s = .next t) : I t := by
  have hexec : ∀ i s t, I s → exec i s = .next t → I t := by
    intro i s t hs h
    rw [exec_eq] at h
    cases h
    rcases issue_cases (exemptOf i) (bodyOf i) s with ⟨_, h⟩ | ⟨_, _, _, h⟩ | ⟨hb, ha, h⟩ <;> rw [h]
    · exact drop s hs
    · exact complete s _ hs (by simp)
    · exact body i s hs hb ha
  have hillegal : ∀ s, I s → I s.issueIllegal := by
    intro s hs
    unfold State.issueIllegal
    split
    · exact drop s hs
    · exact complete s _ hs (by simp)
  have hread : ∀ off n s, I s → I (s.busRead off n) := by
    intro off n s hs
    rcases busRead_cases off n s with ⟨r, h⟩ | ⟨k, _, h⟩ | h <;> rw [h]
    · exact inputs s s.program s.turns _ s.draws hs
    · exact inputs s s.program s.turns _ _ hs
    · exact inputs _ s.program s.turns 0 s.draws (refuse s hs)
  have hwrite : ∀ off n v s t, I s → s.busWrite off n v = .next t → I t := by
    intro off n v s t hs h
    rcases busWrite_cases off n v s with ⟨i, h'⟩ | h' | ⟨i, h'⟩ | ⟨k, b, hk, h'⟩ | h' <;> rw [h'] at h
    · exact hexec i s t hs h
    · cases h; exact hillegal s hs
    · cases h; exact setArg s i v hs
    · cases h; exact window s k b hk hs
    · cases h; exact refuse s hs
  have hs' : I s.popTurn := inputs s s.program s.turns.tail s.busData s.draws hs
  unfold step State.oneTurn at h
  generalize s.popTurn = u at hs' h
  cases hturn : s.nextTurn <;> rw [hturn] at h <;> simp only [State.takeTurn] at h
  case engine =>
    cases h
    unfold State.engineTurn
    split
    · exact tick u hs'
    · exact hs'
  case panel =>
    cases h
    unfold State.panelTurn
    split
    · exact fall u hs'
    · exact hs'
  case powerCut => cases h; exact cut u hs'
  case powerOn => cases h; exact reset u hs'
  case host =>
    unfold State.hostTurn at h
    split at h
    · cases h; exact hs'
    · rename_i a rest _
      split at h
      · have hu : I { u with program := rest } := inputs u rest u.turns u.busData u.draws hs'
        cases a with
        | read off n => cases h; exact hread off n _ hu
        | write off n v => exact hwrite off n v _ t hu h
      · cases h
    · rename_i off mask value rest _
      split at h
      · cases h
        have ht := hread off 4 u hs'
        split
        · exact inputs _ rest _ _ _ ht
        · exact ht
      · cases h

end Sys2Proof.Machine
end

