-- ==== Sys2Proof/Laws/Thresholder.lean ====
section
/-! SUPPORT. The clip of a stream's window and the registers it fills (spec/42_thresholder.md R182, R187, R188), and that
the operands assembled from 16 bits fit 16 bits. -/

namespace Sys2Proof.Machine

theorem u16_lt (a : Word) : u16 a < 65536 := (a.extractLsb' 0 16).isLt

theorem dim_lt (s : State) (i : Fin Config.narg) : s.dim i < 65536 := u16_lt _

theorem toNat_ofNat16 {n : Nat} (h : n < 65536) : (BitVec.ofNat 16 n).toNat = n := by
  rw [BitVec.toNat_ofNat]; exact Nat.mod_eq_of_lt h

theorem logicalW_lt (s : State) : s.geom.logicalW < 65536 := by
  have hw := s.fbW.isLt
  have hh := s.fbH.isLt
  unfold Geometry.logicalW State.geom
  cases s.rot <;> simp only <;> omega

theorem logicalH_lt (s : State) : s.geom.logicalH < 65536 := by
  have hw := s.fbW.isLt
  have hh := s.fbH.isLt
  unfold Geometry.logicalH State.geom
  cases s.rot <;> simp only <;> omega

/-- The clip leaves nothing from an origin outside, and otherwise stays inside both the source and the limit. -/
theorem clipDim_le (origin src limit : Nat) :
    clipDim origin src limit ≤ src ∧ clipDim origin src limit ≤ limit - origin := by
  unfold clipDim
  split <;> omega

/-- A non-empty clipped dimension ends inside the limit. -/
theorem clipDim_end {origin src limit : Nat} (h : 0 < clipDim origin src limit) :
    origin + clipDim origin src limit ≤ limit := by
  unfold clipDim at h ⊢
  split at h <;> split <;> omega

theorem windowW_lt (f : ImgFrame) (s : State) : f.windowW s.geom < 65536 :=
  Nat.lt_of_le_of_lt ((clipDim_le _ _ _).2.trans (Nat.sub_le _ _)) (logicalW_lt s)

theorem windowH_lt (f : ImgFrame) (s : State) : f.windowH s.geom < 65536 :=
  Nat.lt_of_le_of_lt ((clipDim_le _ _ _).2.trans (Nat.sub_le _ _)) (logicalH_lt s)

/-- What IMG_BEGIN_BMP accepts: a width of 1 to IMG_MAX_DIM and a height whose magnitude is (spec/42_thresholder.md R187). -/
theorem bmp_accepted {h : BmpHeader} (ha : h.rejected = false) :
    h.sig0 = 0x42 ∧ h.sig1 = 0x4D ∧ h.planes = 1 ∧ h.bpp = 24 ∧ h.comp = 0 ∧ 0 < h.w ∧ h.w ≤ Config.imgMaxDim
      ∧ h.h ≠ 0 ∧ h.h.natAbs ≤ Config.imgMaxDim := by
  simp only [BmpHeader.rejected, Bool.or_eq_false_iff, bne_eq_false_iff_eq, decide_eq_false_iff_not, not_le,
    beq_eq_false_iff_ne, not_lt, gt_iff_lt] at ha
  tauto

/-- What IMG_BEGIN_GEN accepts: a width of 1 to GEN_ROW_CAP and a height of 1 to IMG_MAX_DIM (spec/42_thresholder.md R188). -/
theorem gen_accepted {h : GenHeader} (ha : h.rejected = false) :
    0 < h.w ∧ h.w ≤ Config.genRowCap ∧ 0 < h.h ∧ h.h ≤ Config.imgMaxDim := by
  simp only [GenHeader.rejected, Bool.or_eq_false_iff, decide_eq_false_iff_not, beq_eq_false_iff_ne, not_lt,
    gt_iff_lt] at ha
  omega

/-- The row stride is a multiple of 4 that holds the row's three bytes a pixel (spec/42_thresholder.md R185). -/
theorem rowBytes_spec (w : Nat) : rowBytes w % 4 = 0 ∧ 3 * w ≤ rowBytes w ∧ rowBytes w < 3 * w + 4 := by
  unfold rowBytes; omega

end Sys2Proof.Machine
end

