-- ==== Sys2Proof/Laws/Source.lean ====
section
/-! SUPPORT. The block at any BMP_T (spec/42_thresholder.md R183, R196), and the source's testable properties
(spec/00_scope.md R19) derived from the round trip, which is a statement for the provers. -/

namespace Sys2Proof.Machine

/-- Only IMG_PIXEL_RGB reads BMP_T. -/
theorem execAt_of_ne {i : Instr} (h : ∀ r g b, i ≠ .imgPixelRgb r g b) (t : Nat) (s : State) :
    execAt t i s = exec i s := by
  cases i <;> first | rfl | exact absurd rfl (h _ _ _)

/-- At the block's own BMP_T the parameter says nothing new. -/
theorem execAt_bmpT (i : Instr) (s : State) : execAt Config.bmpT i s = exec i s := by
  cases i <;> rfl

/-- What a command of the thresholder family does to the backing store: at most one pixel, in its window's open stream. -/
theorem imageCommand_store {i : Instr} (hi : isImageCommand i = true) {t : Nat} {s u : State}
    (h : execAt t i s = .next u) :
    u.store = s.store
      ∨ s.imgActive = true ∧ ∃ c, u.store = s.store.plot s.geom c s.pushPoint.1 s.pushPoint.2 := by
  have push : ∀ path c, (s.issue true (State.pushPixel path c)).store = s.store
      ∨ s.imgActive = true
        ∧ ∃ d, (s.issue true (State.pushPixel path c)).store = s.store.plot s.geom d s.pushPoint.1 s.pushPoint.2 := by
    intro path c
    rcases issue_cases true (State.pushPixel path c) s with ⟨_, h⟩ | ⟨_, _, h, _⟩ | ⟨_, _, h⟩
    · exact .inl (by rw [h]; rfl)
    · cases h
    · rw [h]
      unfold State.pushPixel
      split
      · rename_i ha
        exact .inr ⟨(Bool.and_eq_true _ _ ▸ ha).1, c, push_store c s⟩
      · exact .inl rfl
  cases i <;> first | exact Bool.noConfusion hi | skip
  case imgPixelRgb => cases h; exact push .bitmap _
  case imgPixel565 => cases h; exact push .generic _
  case imgBeginBmp =>
    cases h
    refine .inl ?_
    rcases issue_cases false imgBeginBmpBody s with ⟨_, h⟩ | ⟨_, _, _, h⟩ | ⟨_, _, h⟩ <;> rw [h]
    · rfl
    · rfl
    · unfold imgBeginBmpBody; split <;> rfl
  case imgBeginGen =>
    cases h
    refine .inl ?_
    rcases issue_cases false imgBeginGenBody s with ⟨_, h⟩ | ⟨_, _, _, h⟩ | ⟨_, _, h⟩ <;> rw [h]
    · rfl
    · rfl
    · unfold imgBeginGenBody; split <;> rfl
  case imgAbort =>
    cases h
    refine .inl ?_
    rcases issue_cases true imgAbortBody s with ⟨_, h⟩ | ⟨_, _, _, h⟩ | ⟨_, _, h⟩ <;> rw [h] <;> rfl

/-- The source's testable properties hold of a block whose BMP_T keeps the round trip. -/
theorem sourceProperties_of_roundTrip {t : Nat} (h : RoundTrip t) : SourceProperties t where
  rowPadding w := by unfold snapStride; omega
  roundTrip := h
  malformedHeaderAborts s hr hsig := by
    have hrej : s.bmpHeader.rejected = true := by
      by_contra hacc
      obtain ⟨h0, h1, -⟩ := bmp_accepted (Bool.not_eq_true _ ▸ hacc)
      exact hsig.elim (fun h => h h0) (fun h => h h1)
    rw [execAt_of_ne (by simp), exec_of_accepted hr.1 (.inl hr.2)]
    simp [bodyOf, imgBeginBmpBody, hrej, complete_error]
  partialNeedsBase p s hr hb := by
    rw [execAt_of_ne (by simp), exec_of_accepted hr.1.1 (.inl hr.1.2)]
    simp [bodyOf, frameOp_of_ready hr.2.1 hr.2.2, dcDisplayPartBody, hb, complete_error]
  boundsSafety c s u hb hu := by
    rw [execAt_of_ne (by simp), exec_eq] at hu
    cases hu
    rcases issue_cases (exemptOf (.fbSetPixel c)) (bodyOf (.fbSetPixel c)) s with ⟨_, h⟩ | ⟨_, _, _, h⟩ | ⟨_, _, h⟩ <;>
      rw [h]
    · rfl
    · rfl
    · exact plot_of_not_inBounds s.store c hb
  clipping i s u k hi hs hu hk := by
    rcases imageCommand_store hi hu with h | ⟨ha, c, h⟩
    · rw [h]
    · obtain ⟨hcol, hrow, -⟩ := hs ha
      rw [h, bitRead_plot, if_neg]
      exact hk _ _ hcol hrow
  frameOpNeedsWait i s hi hr hd hw := by
    have hne : ∀ r g b, i ≠ .imgPixelRgb r g b := by rintro r g b rfl; cases hi
    rw [execAt_of_ne hne, exec_of_accepted hr.1 (.inl hr.2)]
    have hop : ∀ body, s.frameOp body = s.failed .noWait := by
      intro body
      unfold State.frameOp State.frameError
      rcases hd with h | h <;> simp [h, hw, complete_error]
    cases i <;> first | exact Bool.noConfusion hi | exact congrArg _ (hop _)

end Sys2Proof.Machine
end

