-- ==== Sys2Proof/Machine/Assembler.lean ====
section
/-! DEFINITION. The assembler syntax (spec/30_encoding.md R114 to R117): the lines of a host program, the bus accesses
each stands for, and the reader of their text. A program is what the host does, not state of the block (R18). -/

namespace Sys2Proof.Machine

/-! ### Lines and what they stand for -/

/-- A line of a program: a bus access (R114), a command (R115) or a pseudo-instruction (R116). The name a read gives its
value is the host's and is not kept. -/
inductive AsmLine where
  | wr (r : Reg) (imm : Word)
  | rd (r : Reg)
  | wrb (k : Nat) (imm : Byte)
  | rdb (k : Nat)
  | poll (r : Reg) (mask value : Word)
  | command (i : Instr)
  | fbReset (w h : Word)
  | setPixel (x y : Word) (c : Color)
  | getPixel (x y : Word)
  | line (x0 y0 x1 y1 : Word) (c : Color)
  | rect (x0 y0 x1 y1 : Word) (c : Color)
  | fill (x0 y0 x1 y1 : Word) (c : Color)
  | imgBmp (x0 y0 w h sig planes bpp comp off : Word)
  | imgGen (x0 y0 w h : Word)
  | sfm (x y w h : Word)
  | part (x y w h : Word)
  | waitIdle
  deriving DecidableEq, Repr

/-- A 32-bit write of a register. -/
def writeOp (r : Reg) (v : Word) : HostOp := .access (.write (BitVec.ofNat 14 r.offset) 4 v)

/-- A 32-bit read of a register. -/
def readOp (r : Reg) : HostOp := .access (.read (BitVec.ofNat 14 r.offset) 4)

/-- The CMD write of a command (R115, R117). -/
def commandOp (i : Instr) : HostOp := writeOp .cmd (encode i)

/-- How many values `<k>` of a WRB or RDB line has: those whose offset 0x1000 + k is an offset of the register space
(spec/20_memory.md R70). R114 gives `<k>` no bound; that a line beyond this one is refused is the model's (log entry 13,
DESIGN CHOICE). Below it, an offset beyond the window is an access that the bus refuses (R74). -/
def windowLineBound : Nat := 2 ^ 14 - Config.fbWindowBase

/-- The offset of window byte `k` (R114). -/
def windowOffset (k : Nat) : Offset := BitVec.ofNat 14 (Config.fbWindowBase + k)

/-- The writes that set ARG0 to ARG3 (R116). -/
def writeArgs4 (a b c d : Word) : List HostOp :=
  [writeOp (.arg 0) a, writeOp (.arg 1) b, writeOp (.arg 2) c, writeOp (.arg 3) d]

/-- The host operations a line stands for, in order (R114 to R116). In `img_bmp` the shift `bpp << 16` is of 32-bit words:
where bpp exceeds 65535 the bits above 31, of which R116 says nothing, are dropped (log entry 13, DESIGN CHOICE). -/
def AsmLine.expand : AsmLine → List HostOp
  | .wr r v => [writeOp r v]
  | .rd r => [readOp r]
  | .wrb k v => [.access (.write (windowOffset k) 1 (BitVec.setWidth 32 v))]
  | .rdb k => [.access (.read (windowOffset k) 1)]
  | .poll r mask value => [.poll (BitVec.ofNat 14 r.offset) mask value]
  | .command i => [commandOp i]
  | .fbReset w h => [writeOp (.arg 0) w, writeOp (.arg 1) h, commandOp .fbReset]
  | .setPixel x y c => [writeOp (.arg 0) x, writeOp (.arg 1) y, commandOp (.fbSetPixel c)]
  | .getPixel x y => [writeOp (.arg 0) x, writeOp (.arg 1) y, commandOp .fbGetPixel, readOp .result]
  | .line x0 y0 x1 y1 c => writeArgs4 x0 y0 x1 y1 ++ [commandOp (.fbDrawLine c)]
  | .rect x0 y0 x1 y1 c => writeArgs4 x0 y0 x1 y1 ++ [commandOp (.fbDrawRect c)]
  | .fill x0 y0 x1 y1 c => writeArgs4 x0 y0 x1 y1 ++ [commandOp (.fbFillRect c)]
  | .imgBmp x0 y0 w h sig planes bpp comp off =>
    writeArgs4 x0 y0 w h
      ++ [writeOp (.arg 4) sig, writeOp (.arg 5) ((bpp <<< 16) ||| planes), writeOp (.arg 6) comp, writeOp (.arg 7) off,
        commandOp .imgBeginBmp]
  | .imgGen x0 y0 w h => writeArgs4 x0 y0 w h ++ [commandOp .imgBeginGen]
  | .sfm x y w h => writeArgs4 x y w h ++ [commandOp .dcSetFrameMemory]
  | .part x y w h => writeArgs4 x y w h ++ [commandOp (.dcDisplayPart .region)]
  | .waitIdle => [commandOp .dcWaitIdle, .poll (BitVec.ofNat 14 Reg.status.offset) 0x1 0x0]

/-! ### Text -/

/-- The text of a line up to a comment (R114). -/
def stripComment (cs : List Char) : List Char := cs.takeWhile (fun c => c != ';')

/-- Whether a character separates words: a blank or a comma. -/
def isSeparator (c : Char) : Bool := c == ' ' || c == ',' || c == '\t'

/-- The words of a line: the word being read, then the words after it. -/
def splitWords : List Char → List Char × List (List Char)
  | [] => ([], [])
  | c :: cs =>
    let (w, ws) := splitWords cs
    if isSeparator c then ([], if w.isEmpty then ws else w :: ws) else (c :: w, ws)

/-- The words of a line, its comment left out. -/
def lineWords (cs : List Char) : List String :=
  let (w, ws) := splitWords (stripComment cs)
  (if w.isEmpty then ws else w :: ws).map String.ofList

/-- The value of a digit in a base up to 16. -/
def digitValue (base : Nat) (c : Char) : Option Nat :=
  let v :=
    if '0' ≤ c ∧ c ≤ '9' then some (c.toNat - '0'.toNat)
    else if 'a' ≤ c ∧ c ≤ 'f' then some (c.toNat - 'a'.toNat + 10)
    else if 'A' ≤ c ∧ c ≤ 'F' then some (c.toNat - 'A'.toNat + 10)
    else none
  v.filter (fun d => decide (d < base))

/-- The number a list of digits spells, after `acc`. -/
def digitsValue (base acc : Nat) : List Char → Option Nat
  | [] => some acc
  | c :: cs =>
    match digitValue base c with
    | some d => digitsValue base (acc * base + d) cs
    | none => none

/-- A number: decimal, or hexadecimal after `0x` (R114). -/
def natValue : List Char → Option Nat
  | [] => none
  | '0' :: 'x' :: c :: cs => digitsValue 16 0 (c :: cs)
  | c :: cs => digitsValue 10 0 (c :: cs)

/-- A 32-bit immediate; a negative decimal stands for its two's-complement value (R114). -/
def immValue (t : String) : Option Word :=
  match t.toList with
  | '-' :: c :: cs =>
    ((digitsValue 10 0 (c :: cs)).filter (fun v => decide (v ≤ 2 ^ 31))).map (fun v => BitVec.ofInt 32 (-(v : Int)))
  | cs => ((natValue cs).filter (fun v => decide (v < 2 ^ 32))).map (BitVec.ofNat 32)

/-- An unsigned field of a command below `bound` (R115). -/
def fieldValue (bound : Nat) (t : String) : Option Nat := (natValue t.toList).filter (fun v => decide (v < bound))

/-- A register's name (R114; spec/20_memory.md R71). -/
def regNamed (t : String) : Option Reg :=
  match t with
  | "CMD" => some .cmd
  | "STATUS" => some .status
  | "RESULT" => some .result
  | "FB_DIM" => some .fbDim
  | "ARG0" => some (.arg 0)
  | "ARG1" => some (.arg 1)
  | "ARG2" => some (.arg 2)
  | "ARG3" => some (.arg 3)
  | "ARG4" => some (.arg 4)
  | "ARG5" => some (.arg 5)
  | "ARG6" => some (.arg 6)
  | "ARG7" => some (.arg 7)
  | "IMG_CFG" => some .imgCfg
  | "IMG_ORIGIN" => some .imgOrigin
  | "IMG_SRC_DIM" => some .imgSrcDim
  | "IMG_DIM" => some .imgDim
  | "IMG_POS" => some .imgPos
  | "IMG_ROW_BYTES" => some .imgRowBytes
  | "IMG_PIX_OFF" => some .imgPixOff
  | "IMG_ROW_OFF" => some .imgRowOff
  | "WAIT_CNT" => some .waitCnt
  | _ => none

/-- A COLOR field: BLACK or WHITE, or its number (R115). -/
def colorNamed (t : String) : Option Color :=
  match t with
  | "BLACK" => some .black
  | "WHITE" => some .white
  | "0" => some .black
  | "1" => some .white
  | _ => none

/-- An ORIENT field (R115). -/
def orientNamed (t : String) : Option Orientation :=
  match t with
  | "LANDSCAPE" => some .landscape
  | "PORTRAIT" => some .portrait
  | "0" => some .landscape
  | "1" => some .portrait
  | _ => none

/-- A REGION field (R115). -/
def regionNamed (t : String) : Option PartRegion :=
  match t with
  | "WHOLE" => some .whole
  | "REGION" => some .region
  | "0" => some .whole
  | "1" => some .region
  | _ => none

/-- A ROT field (R115). -/
def rotNamed (t : String) : Option Rotation :=
  match t with
  | "0" => some .rot0
  | "1" => some .rot90
  | "2" => some .rot180
  | "3" => some .rot270
  | _ => none

/-- A command line: the mnemonic, then the fields from high bits to low bits (R115). -/
def readCommand : List String → Option Instr
  | ["FB_RESET"] => some .fbReset
  | ["FB_CLEAR", c] => (colorNamed c).map .fbClear
  | ["FB_SET_PIXEL", c] => (colorNamed c).map .fbSetPixel
  | ["FB_GET_PIXEL"] => some .fbGetPixel
  | ["FB_ROTATE", r] => (rotNamed r).map .fbRotate
  | ["FB_DRAW_LINE", c] => (colorNamed c).map .fbDrawLine
  | ["FB_DRAW_RECT", c] => (colorNamed c).map .fbDrawRect
  | ["FB_FILL_RECT", c] => (colorNamed c).map .fbFillRect
  | ["IMG_BEGIN_BMP"] => some .imgBeginBmp
  | ["IMG_BEGIN_GEN"] => some .imgBeginGen
  | ["IMG_PIXEL_RGB", r, g, b] => do
    return .imgPixelRgb (← fieldValue 256 r) (← fieldValue 256 g) (← fieldValue 256 b)
  | ["IMG_PIXEL_565", v] => (fieldValue 65536 v).map .imgPixel565
  | ["IMG_ABORT"] => some .imgAbort
  | ["DC_INIT", o] => (orientNamed o).map .dcInit
  | ["DC_WAIT_IDLE"] => some .dcWaitIdle
  | ["DC_WRITE_BASE"] => some .dcWriteBase
  | ["DC_SET_FRAME_MEMORY"] => some .dcSetFrameMemory
  | ["DC_DISPLAY_FRAME"] => some .dcDisplayFrame
  | ["DC_DISPLAY_PART", p] => (regionNamed p).map .dcDisplayPart
  | ["DC_SLEEP"] => some .dcSleep
  | ["DC_CLEAR"] => some .dcClear
  | _ => none

/-- A line of words: a bus access (R114), a pseudo-instruction (R116) or a command (R115). The bound of `<k>` in a WRB or
RDB line is the model's (`windowLineBound`; log entry 13, DESIGN CHOICE). -/
def readLine : List String → Option AsmLine
  | ["WR", r, v] => do return .wr (← regNamed r) (← immValue v)
  | ["RD", r, "->", _] => (regNamed r).map .rd
  | ["WRB", k, v] => do return .wrb (← fieldValue windowLineBound k) (BitVec.ofNat 8 (← fieldValue 256 v))
  | ["RDB", k, "->", _] => (fieldValue windowLineBound k).map .rdb
  | ["POLL", r, m, v] => do return .poll (← regNamed r) (← immValue m) (← immValue v)
  | ["fb_reset", w, h] => do return .fbReset (← immValue w) (← immValue h)
  | ["set_pixel", x, y, c] => do return .setPixel (← immValue x) (← immValue y) (← colorNamed c)
  | ["get_pixel", x, y, "->", _] => do return .getPixel (← immValue x) (← immValue y)
  | ["line", x0, y0, x1, y1, c] => do
    return .line (← immValue x0) (← immValue y0) (← immValue x1) (← immValue y1) (← colorNamed c)
  | ["rect", x0, y0, x1, y1, c] => do
    return .rect (← immValue x0) (← immValue y0) (← immValue x1) (← immValue y1) (← colorNamed c)
  | ["fill", x0, y0, x1, y1, c] => do
    return .fill (← immValue x0) (← immValue y0) (← immValue x1) (← immValue y1) (← colorNamed c)
  | ["img_bmp", x0, y0, w, h, sig, planes, bpp, comp, off] => do
    return .imgBmp (← immValue x0) (← immValue y0) (← immValue w) (← immValue h) (← immValue sig) (← immValue planes)
      (← immValue bpp) (← immValue comp) (← immValue off)
  | ["img_gen", x0, y0, w, h] => do
    return .imgGen (← immValue x0) (← immValue y0) (← immValue w) (← immValue h)
  | ["sfm", x, y, w, h] => do return .sfm (← immValue x) (← immValue y) (← immValue w) (← immValue h)
  | ["part", x, y, w, h] => do return .part (← immValue x) (← immValue y) (← immValue w) (← immValue h)
  | ["wait_idle"] => some .waitIdle
  | ws => (readCommand ws).map .command

/-- The host operations of one line of text: none for a blank or comment line, `none` where the line is no line of the
syntax (R114 to R116; log entry 13, DESIGN CHOICE). -/
def assembleLine (t : String) : Option (List HostOp) :=
  match lineWords t.toList with
  | [] => some []
  | ws => (readLine ws).map AsmLine.expand

/-- The host operations of a program, line by line (R114). -/
def assemble : List String → Option (List HostOp)
  | [] => some []
  | t :: ts =>
    match assembleLine t, assemble ts with
    | some a, some b => some (a ++ b)
    | _, _ => none

end Sys2Proof.Machine
end

