-- ==== Sys2Proof/Tests/Slice0.lean ====
section
/-! SUPPORT. The model's own tests: ill-formed terms refused, one written-out word decoded for every command, one-step
tests whose results are the examples and vectors of spec/ (named in each comment), and for every obligation with
hypotheses a concrete state that meets them all. -/

namespace Sys2Proof.Tests

open Sys2Proof.Machine

/-! ### Helpers -/

/-- The value of `f` in the next state, `none` where there is no next state. -/
def got {α : Type} (o : Host.Outcome State Fault Refusal) (f : State → α) : Option α :=
  match o with
  | .next t => some (f t)
  | .fault _ => none
  | .refused _ => none

/-- After reset with the panel idle. -/
def idle : State := { State.resetAt 0 with panelBusy := false }

/-- Argument registers holding `a` to `d`, and `e` to `h` above them. -/
def argList (a b c d : Word) (e f g h : Word) : Vector Word Config.narg := #v[a, b, c, d, e, f, g, h]

/-- `s` with ARG0 to ARG3 set and the rest 0. -/
def withArgs (s : State) (a b c d : Word) : State := { s with args := argList a b c d 0 0 0 0 }

/-- A store whose bytes from 0 are `bs`, all known; no byte of `bs` is 0. -/
def bytesStore (bs : List Byte) : Memory :=
  ⟨(List.range bs.length).zip bs, (List.range bs.length).map (fun k => (k, 0xFF))⟩

/-- "WHITE 16×2" of spec/95_test_vectors.md, panel idle. -/
def white16x2 : State := { idle with fbW := 16, fbH := 2, store := bytesStore [0xFF, 0xFF, 0xFF, 0xFF] }

/-- A WHITE 8×4 framebuffer, one byte per row. -/
def white8x4 : State := { idle with fbW := 8, fbH := 4, store := bytesStore [0xFF, 0xFF, 0xFF, 0xFF] }

/-- The base arguments of the IMG_BEGIN_BMP vectors, with origin (14, 0) (spec/42_thresholder.md R187, example). -/
def bmpReady : State := { white16x2 with args := argList 14 0 3 2 0x4D42 0x00180001 0 54 }

/-- The stream that R187's example opens. -/
def bmpOpen : State :=
  { bmpReady with
    imgActive := true, imgFlip := true, imgX0 := 14, imgSrcW := 3, imgSrcH := 2, imgW := 2, imgH := 2
    imgRowBytes := 12, imgPixOff := 54 }

/-- A generic stream of a 2×1 window at (0, 0) of a WHITE 16×2 framebuffer (spec/42_thresholder.md R190, example). -/
def genOpen : State :=
  { white16x2 with imgActive := true, imgMode := .generic, imgSrcW := 2, imgSrcH := 1, imgW := 2, imgH := 1 }

/-- INIT, waited, panel idle. -/
def initWaited : State := { white16x2 with dcState := .init, waited := true }

/-- ACTIVE, waited, BASE set, panel idle. -/
def activeBase : State :=
  { white16x2 with dcState := .active, waited := true, base := true, lastRefresh := some .full }

/-- A DC_WAIT_IDLE in progress, WAIT_CNT = 0. -/
def waiting : State := { idle with panelBusy := true, cmdBusy := true, dcState := .init }

/-- The known bytes below `n` of a store. -/
def dataBytes (m : Memory) (n : Nat) : List Byte := (List.range n).map (fun k => cellGet m.data k)

/-! ### Ill-formed terms are refused (R107, R108) -/

theorem test_wellformed_channels_at_their_limit : (Instr.imgPixelRgb 255 255 255).wellFormed = true := by decide
theorem test_ill_formed_r : (Instr.imgPixelRgb 256 0 0).wellFormed = false := by decide
theorem test_ill_formed_g : (Instr.imgPixelRgb 0 256 0).wellFormed = false := by decide
theorem test_ill_formed_b : (Instr.imgPixelRgb 0 0 256).wellFormed = false := by decide
theorem test_wellformed_value_at_its_limit : (Instr.imgPixel565 65535).wellFormed = true := by decide
theorem test_ill_formed_v : (Instr.imgPixel565 65536).wellFormed = false := by decide

/-! ### Words written out from R101 to R108: opcode byte, then the format's fields -/

theorem test_decode_fbReset : decode 0b00010000_00000000_00000000_00000000 = .ok .fbReset := by decide
theorem test_decode_fbClear : decode 0b00010001_00000000_00000000_00000001 = .ok (.fbClear .white) := by decide
theorem test_decode_fbSetPixel : decode 0b00010010_00000000_00000000_00000000 = .ok (.fbSetPixel .black) := by decide
theorem test_decode_fbGetPixel : decode 0b00010011_00000000_00000000_00000000 = .ok .fbGetPixel := by decide
theorem test_decode_fbRotate : decode 0b00010100_00000000_00000000_00000010 = .ok (.fbRotate .rot180) := by decide
theorem test_decode_fbDrawLine : decode 0b00010101_00000000_00000000_00000001 = .ok (.fbDrawLine .white) := by decide
theorem test_decode_fbDrawRect : decode 0b00010110_00000000_00000000_00000000 = .ok (.fbDrawRect .black) := by decide
theorem test_decode_fbFillRect : decode 0b00010111_00000000_00000000_00000001 = .ok (.fbFillRect .white) := by decide
theorem test_decode_imgBeginBmp : decode 0b00100000_00000000_00000000_00000000 = .ok .imgBeginBmp := by decide
theorem test_decode_imgBeginGen : decode 0b00100001_00000000_00000000_00000000 = .ok .imgBeginGen := by decide
theorem test_decode_imgPixelRgb : decode 0b00100010_00000001_00000010_00000011 = .ok (.imgPixelRgb 1 2 3) := by decide
theorem test_decode_imgPixel565 : decode 0b00100011_00000000_11111000_00000000 = .ok (.imgPixel565 0xF800) := by decide
theorem test_decode_imgAbort : decode 0b00100100_00000000_00000000_00000000 = .ok .imgAbort := by decide
theorem test_decode_dcInit : decode 0b00110000_00000000_00000000_00000001 = .ok (.dcInit .portrait) := by decide
theorem test_decode_dcWaitIdle : decode 0b00110001_00000000_00000000_00000000 = .ok .dcWaitIdle := by decide
theorem test_decode_dcWriteBase : decode 0b00110010_00000000_00000000_00000000 = .ok .dcWriteBase := by decide
theorem test_decode_dcSetFrameMemory : decode 0b00110011_00000000_00000000_00000000 = .ok .dcSetFrameMemory := by decide
theorem test_decode_dcDisplayFrame : decode 0b00110100_00000000_00000000_00000000 = .ok .dcDisplayFrame := by decide
theorem test_decode_dcDisplayPart : decode 0b00110101_00000000_00000000_00000001 = .ok (.dcDisplayPart .region) := by decide
theorem test_decode_dcSleep : decode 0b00110110_00000000_00000000_00000000 = .ok .dcSleep := by decide
theorem test_decode_dcClear : decode 0b00110111_00000000_00000000_00000000 = .ok .dcClear := by decide

/-- The illegal words of spec/95_test_vectors.md, Encoding. -/
theorem test_illegal_words :
    ([0x11000002, 0x14000004, 0x2301FFFF, 0x00000000, 0x18000000, 0x25000000, 0x38000000, 0xFF000000, 0x31000001].all
      (fun (w : Word) => match decode w with | .ok _ => false | .error _ => true)) = true := by decide

theorem test_illegal_reserved_bit_by_name : decode 0x11000002 = .error (.reservedBits "FB_CLEAR") := by decide
theorem test_illegal_opcode_by_name : decode 0x18000000 = .error (.unassignedOpcode 0x18) := by decide
theorem test_decodeTableWord : decodeTableWord 32 0x35000000 = some (.dcDisplayPart .whole) := by decide

/-! ### The parameters' own relations (R8) -/

theorem test_parameters_agree :
    Config.backingBytes = Config.panelW * Config.panelH / 8 ∧ Config.capBits = Config.backingBytes * 8
      ∧ Reg.offset (.arg (Fin.last (Config.narg - 1))) = 0x02C := by decide

/-! ### Steps -/

theorem test_step_runs_the_first_command :
    got (step (State.reset.withFetchWord 32 0x14000003)) (fun t => t.rot) = some .rot270 := by decide
theorem test_step_illegal_word :
    got (step (idle.withFetchWord 32 0)) (fun t => (t.err, t.stickyErr)) = some (.illegal, true) := by decide
theorem test_host_access_needs_power :
    step { idle with powered := false, program := [.access (.read 4 4)] } = .refused .unpowered := by rfl
theorem test_poll_waits_for_the_value :
    got (step { waiting with program := [.poll 4 1 0] }) (fun t => t.program.length) = some 1 := by decide

/-! ### Framebuffer commands (spec/40_framebuffer.md, examples; spec/95_test_vectors.md) -/

theorem test_fbReset_16x2 :
    got (exec .fbReset (withArgs idle 16 2 0 0)) (fun t => (readReg .fbDim t, t.err)) = some (0x00020010, .ok) := by decide
theorem test_fbReset_above_capacity :
    got (exec .fbReset (withArgs idle 256 157 0 0)) (fun t => (readReg .fbDim t, t.err))
      = some (0x00C800C8, .capacity) := by decide
theorem test_fbClear_white :
    got (exec (.fbClear .white) { idle with fbW := 16, fbH := 2 }) (fun t => (t.store.byteRead 3 0, t.store.bitRead 32))
      = some (0xFF, none) := by decide
theorem test_fbClear_writes_pad_bits :
    got (exec (.fbClear .black) { idle with fbW := 3, fbH := 3 }) (fun t => (t.store.bitRead 15, t.store.bitRead 16))
      = some (some .black, none) := by decide
theorem test_fbSetPixel_bit_25 :
    got (exec (.fbSetPixel .black) (withArgs white16x2 9 1 0 0)) (fun t => dataBytes t.store 4)
      = some [0xFF, 0xFF, 0xFF, 0xBF] := by decide
theorem test_fbSetPixel_negative_is_clipped :
    got (exec (.fbSetPixel .black) (withArgs white16x2 0xFFFFFFFF 0 0 0)) (fun t => (dataBytes t.store 4, t.err))
      = some ([0xFF, 0xFF, 0xFF, 0xFF], .ok) := by decide
theorem test_fbGetPixel_black :
    got (exec .fbGetPixel (withArgs { white16x2 with store := bytesStore [0xFF, 0xFF, 0xFF, 0xBF] } 9 1 0 0))
      (readReg .result) = some 2 := by decide
theorem test_fbGetPixel_out_of_bounds :
    got (exec .fbGetPixel (withArgs white16x2 16 0 0 0)) (readReg .result) = some 0 := by decide
theorem test_fbRotate_90_then_origin :
    got (exec (.fbRotate .rot90) white16x2)
      (fun t => got (exec (.fbSetPixel .black) t) (fun u => dataBytes u.store 4))
      = some (some [0xFF, 0xFE, 0xFF, 0xFF]) := by decide
theorem test_fbRotate_270_point :
    got (exec (.fbSetPixel .black) (withArgs { white16x2 with rot := .rot270 } 0 1 0 0)) (fun t => dataBytes t.store 4)
      = some [0xFF, 0xFF, 0xBF, 0xFF] := by decide

/-! ### Rasterizers (spec/95_test_vectors.md) -/

theorem test_line_is_directed :
    (Segment.linePoints ⟨2, 1, 0, 0⟩, Segment.linePoints ⟨0, 0, 2, 1⟩)
      = ([(2, 1), (1, 0), (0, 0)], [(0, 0), (1, 1), (2, 1)]) := by decide
theorem test_fbDrawLine_clipped :
    got (exec (.fbDrawLine .black) (withArgs white8x4 0xFFFE 0xFFFF 9 3)) (fun t => dataBytes t.store 4)
      = some [0x1F, 0xE7, 0xF8, 0xFF] := by decide
theorem test_fbDrawRect_corners_in_either_order :
    got (exec (.fbDrawRect .black) (withArgs white8x4 6 2 1 1)) (fun t => dataBytes t.store 4)
      = some [0xFF, 0x81, 0x81, 0xFF] := by decide
theorem test_fbDrawRect_clipped :
    got (exec (.fbDrawRect .black) (withArgs white8x4 0 0 9 5)) (fun t => dataBytes t.store 4)
      = some [0x00, 0x7F, 0x7F, 0x7F] := by decide
theorem test_fbFillRect :
    got (exec (.fbFillRect .black) (withArgs white8x4 2 1 5 2)) (fun t => dataBytes t.store 4)
      = some [0xFF, 0xC3, 0xC3, 0xFF] := by decide
theorem test_fbFillRect_clipped :
    got (exec (.fbFillRect .black) (withArgs white8x4 0xFFFE 0xFFFE 1 0)) (fun t => dataBytes t.store 4)
      = some [0x3F, 0xFF, 0xFF, 0xFF] := by decide

/-! ### Thresholder (spec/42_thresholder.md, examples; spec/95_test_vectors.md) -/

theorem test_imgBeginBmp_example :
    got (exec .imgBeginBmp bmpReady)
      (fun t => (readReg .imgDim t, readReg .imgCfg t, readReg .imgRowBytes t, readReg .imgRowOff t, t.imgActive))
      = some (0x00020002, 2, 12, 66, true) := by decide
theorem test_imgBeginBmp_bad_signature :
    got (exec .imgBeginBmp { white16x2 with args := argList 0 0 3 2 0x424D 0x00180001 0 54 })
      (fun t => (t.err, t.imgActive, dataBytes t.store 4)) = some (.format, false, [0xFF, 0xFF, 0xFF, 0xFF]) := by decide
theorem test_imgBeginGen_clips :
    got (exec .imgBeginGen (withArgs idle 0 190 320 40)) (fun t => (readReg .imgDim t, t.imgActive))
      = some (0x000A00C8, true) := by decide
theorem test_imgBeginGen_too_wide :
    got (exec .imgBeginGen (withArgs idle 0 0 321 1)) (fun t => (t.err, t.imgActive)) = some (.format, false) := by decide
theorem test_imgPixelRgb_black :
    got (exec (.imgPixelRgb 0 0 0) bmpOpen) (fun t => (dataBytes t.store 4, readReg .imgPos t))
      = some ([0xFF, 0xFD, 0xFF, 0xFF], 1) := by decide
theorem test_imgPixelRgb_in_the_other_path :
    got (exec (.imgPixelRgb 0 0 0) genOpen) (fun t => (t.err, readReg .imgPos t)) = some (.stream, 0) := by decide
theorem test_imgPixel565_black :
    got (exec (.imgPixel565 0) genOpen) (fun t => (dataBytes t.store 1, t.imgActive)) = some ([0x7F], true) := by decide
theorem test_imgPixel565_last_closes :
    got (exec (.imgPixel565 0xFFFF) { genOpen with imgCol := 1 }) (fun t => (t.imgActive, readReg .imgPos t))
      = some (false, 0x00010000) := by decide
theorem test_imgAbort_keeps_the_cursor :
    got (exec .imgAbort { genOpen with imgCol := 1 }) (fun t => (t.imgActive, readReg .imgPos t, t.err))
      = some (false, 1, .ok) := by decide
theorem test_stream_rejects_other_commands :
    got (exec (.fbClear .black) genOpen) (fun t => (t.err, dataBytes t.store 1)) = some (.streamActive, [0xFF]) := by decide

/-- The table of ThrBMP at BMP_T = 382. -/
theorem test_thrBmp_at_382 :
    (thrBmpAt 382 0 0 1, thrBmpAt 382 128 127 127, thrBmpAt 382 128 128 127, thrBmpAt 382 255 255 255)
      = (.black, .black, .white, .white) := by decide

/-- E18 on a 3×1 framebuffer, BLACK, WHITE, BLACK, at the largest BMP_T (R196). -/
theorem test_round_trip_at_764 :
    got (runAll (execAt 764)
        (.imgBeginBmp :: State.snapPushes { idle with fbW := 3, fbH := 1, store := ⟨[(0, 0x40)], [(0, 0xFF)]⟩ })
        { idle with fbW := 3, fbH := 1, args := argList 0 0 3 1 0x4D42 0x00180001 0 54 })
      (fun t => (t.err, t.imgActive, t.store.bitRead 0, t.store.bitRead 1, t.store.bitRead 2))
      = some (.ok, false, some .black, some .white, some .black) := by decide

/-! ### Display controller (spec/95_test_vectors.md, P4 and the check vectors) -/

theorem test_dcInit_status :
    got (exec (.dcInit .landscape) { idle with err := .state, stickyErr := true }) (readReg .status)
      = some 0x00021010 := by decide
theorem test_dcInit_cuts_off_a_refresh :
    got (exec (.dcInit .portrait)
      { activeBase with panelBusy := true, pend := some ⟨.allUnknown, .full⟩, displayed := bytesStore [0xFF] })
      (fun t => (t.displayed, t.pend, t.orient, t.base)) = some (.allUnknown, none, .portrait, false) := by decide
theorem test_dcWaitIdle_idle :
    got (exec .dcWaitIdle idle) (fun t => (t.cmdBusy, t.waited, t.dcState)) = some (false, true, .uninit) := by decide
theorem test_dcWaitIdle_busy :
    got (exec .dcWaitIdle { idle with panelBusy := true, waitCnt := 7 }) (fun t => (t.cmdBusy, t.waited, t.waitCnt))
      = some (true, false, 0) := by decide
theorem test_pollTick_times_out :
    (readReg .status (State.pollTick 3 { waiting with waitCnt := 2 })).getLsbD 0 = false
      ∧ (State.pollTick 3 { waiting with waitCnt := 2 }).err = .timeout := by decide
theorem test_dcWriteBase_status :
    got (exec .dcWriteBase { initWaited with stickyErr := true }) (readReg .status) = some 0x0006A010 := by decide
theorem test_dcWriteBase_needs_init : got (exec .dcWriteBase idle) (fun t => t.err) = some .state := by decide
theorem test_dcSetFrameMemory_status :
    got (exec .dcSetFrameMemory (withArgs { activeBase with stickyErr := true } 0 0 16 2)) (readReg .status)
      = some 0x0005A010 := by decide
theorem test_dcSetFrameMemory_misaligned :
    got (exec .dcSetFrameMemory (withArgs activeBase 4 0 8 2)) (fun t => t.err) = some .align := by decide
theorem test_load_rows_and_columns :
    ([200, 207, 208, 215, 216, 607, 608, 615, 616].map
      (loadedCell ⟨8, 1, 8, 5⟩ ⟨16, 2, .rot0⟩ white16x2.store .allUnknown))
      = [none, none, some .white, some .white, none, none, none, none, none] := by decide
theorem test_dcDisplayFrame_pends :
    got (exec .dcDisplayFrame { activeBase with pram := bytesStore [0x0F] }) (fun t => (t.pend, t.panelBusy, t.waited))
      = some (some ⟨bytesStore [0x0F], .full⟩, true, false) := by decide
theorem test_dcDisplayPart_no_base_before_align :
    got (exec (.dcDisplayPart .region) (withArgs initWaited 4 0 8 2)) (fun t => t.err) = some .noBase := by decide
theorem test_dcDisplayPart_status :
    got (exec (.dcDisplayPart .region) (withArgs { activeBase with stickyErr := true } 8 0 8 2)) (readReg .status)
      = some 0x000AA010 := by decide
theorem test_dcSleep_status :
    got (exec .dcSleep { activeBase with stickyErr := true, lastRefresh := some .part }) (readReg .status)
      = some 0x0008B010 := by decide
theorem test_dcClear_drops_base :
    got (exec .dcClear activeBase) (fun t => (t.base, t.lastRefresh, t.pram.bitRead 0))
      = some (false, some .full, some .white) := by decide
theorem test_busyFall_shows :
    (State.busyFall { activeBase with panelBusy := true, pend := some ⟨bytesStore [0x0F], .part⟩ }).displayed
      = bytesStore [0x0F] := by decide
theorem test_frameOp_needs_wait :
    got (exec (.dcDisplayPart .whole) { initWaited with waited := false }) (fun t => t.err) = some .noWait := by decide

/-! ### Bus (spec/95_test_vectors.md, Bus) -/

theorem test_read_unmapped : ((idle.busRead 0x054 4).busErr, (idle.busRead 0x054 4).busData) = (true, 0) := by decide
theorem test_read_misaligned : (idle.busRead 0x006 4).busErr = true := by decide
theorem test_read_window_wide : (idle.busRead 0x1000 4).busErr = true := by decide
theorem test_read_window_beyond : (idle.busRead 0x2388 1).busErr = true := by decide
theorem test_write_read_only :
    got (idle.busWrite 0x00C 4 0x00100010) (fun t => (t.busErr, readReg .fbDim t)) = some (true, 0x00C800C8) := by decide
theorem test_window_write_then_pixel :
    got (white16x2.busWrite 0x1000 1 0x7F) (fun t => got (exec .fbGetPixel t) (readReg .result)) = some (some 2) := by decide
theorem test_window_read : (white16x2.busRead 0x1003 1).busData = 0xFF := by decide

/-! ### Assembler (spec/30_encoding.md R114 to R116, examples) -/

theorem test_assemble_negative :
    assembleLine "WR ARG0, -1" = some [.access (.write 0x010 4 0xFFFFFFFF)] := by decide
theorem test_assemble_command :
    assembleLine "IMG_PIXEL_565 0xF800 ; red" = some [.access (.write 0 4 0x2300F800)] := by decide
theorem test_assemble_pseudo :
    assembleLine "set_pixel 9, 1, BLACK"
      = some [.access (.write 0x010 4 9), .access (.write 0x014 4 1), .access (.write 0 4 0x12000000)] := by decide
theorem test_assemble_wait :
    assembleLine "wait_idle" = some [.access (.write 0 4 0x31000000), .poll 4 1 0] := by decide

/-- The first offset beyond the window is an access, which the bus refuses (R74). -/
theorem test_assemble_beyond_the_window :
    assembleLine "WRB 5000, 1" = some [.access (.write 0x2388 1 1)] ∧ assembleLine "WRB 12288, 1" = none := by decide

/-! ### Witnesses: a concrete state and operands that meet the hypotheses of each obligation, clause by clause -/

theorem witness_DecodeOfEncodeIsTheInstruction :
    (Instr.imgPixelRgb 255 255 255).wellFormed = true ∧ (Instr.imgPixel565 65535).wellFormed = true := by decide

theorem witness_EncodeOfDecodeIsTheWord : decode 0x22FFFFFF = .ok (.imgPixelRgb 255 255 255) := by decide

theorem witness_RowMatchIsTheNamedCommand :
    ∃ r ∈ opcodeMap, r.opc = 0x37 ∧ 0x37000000#32 &&& r.mask = r.pat ∧ 0x37000001#32 &&& r.mask ≠ r.pat :=
  ⟨⟨0x37, "DC_CLEAR", 0xFFFFFFFF, 0x37000000, fun _ => .dcClear⟩, by simp [opcodeMap, displayRows], rfl, by decide,
    by decide⟩

theorem witness_IllegalWordsAreTheUnmatchedOnes :
    decode 0x2301FFFF = .error (.reservedBits "IMG_PIXEL_565") ∧ idle.cmdBusy = false := by decide

/-- A command, a read, a POLL line and an empty program. -/
theorem witness_StepRunsTheDecodedCommand :
    State.powered { idle with program := [.access (.write 0 4 0x14000003)] } = true
      ∧ State.nextTurn { idle with program := [.access (.write 0 4 0x14000003)] } = .host
      ∧ decode 0x14000003 = .ok (.fbRotate .rot270)
      ∧ State.program { idle with program := [.access (.read 4 4)] } = .access (.read 4 4) :: []
      ∧ State.program { idle with program := [.poll 4 1 0] } = .poll 4 1 0 :: [] ∧ idle.program = []
      ∧ idle.nextTurn = .host := by decide

theorem witness_TurnsOfEnginePanelAndPower :
    State.turns { idle with turns := [.engine] } = .engine :: [] ∧ State.turns { idle with turns := [.panel] } = .panel :: []
      ∧ State.panelBusy { waiting with turns := [.powerCut] } = true
      ∧ State.dcState { idle with turns := [.powerCut], dcState := .sleep } = .sleep ∧ idle.powered = true
      ∧ waiting.powered = true ∧ idle.panelBusy = false
      ∧ State.turns { idle with powered := false, turns := [.powerOn] } = .powerOn :: [] := by decide

theorem witness_PoweredMachineNeverStops : State.reset.powered = true := rfl

theorem witness_BusyBlockDropsCommandWrites : waiting.cmdBusy = true := rfl

theorem witness_OpenStreamFixesItsGeometry :
    genOpen.cmdBusy = false ∧ genOpen.imgActive = true ∧ isStreamCommand .fbReset = false
      ∧ ∃ t, exec (.imgPixel565 0) genOpen = .next t := ⟨rfl, rfl, rfl, _, rfl⟩

theorem witness_FailedCommandChangesOnlyErr :
    ∃ t, exec .fbReset (withArgs idle 256 157 0 0) = .next t ∧ t.cmdBusy = false ∧ t.err ≠ .ok :=
  ⟨_, rfl, by decide, by decide⟩

theorem witness_CommandsWriteOnlyTheirOwnFields :
    (∃ t, exec (.fbSetPixel .black) (withArgs white16x2 9 1 0 0) = .next t) ∧ (∃ t, exec .dcSleep activeBase = .next t)
      ∧ isDisplayCommand (.fbSetPixel .black) = false ∧ isImageCommand (.fbSetPixel .black) = false
      ∧ writesStore .dcSleep = false ∧ writesStore .fbReset = false := ⟨⟨_, rfl⟩, ⟨_, rfl⟩, rfl, rfl, rfl, rfl⟩

theorem witness_StickyBitsStayUntilReset :
    (∃ t, step (State.withFetchWord { idle with ovr := true, busErr := true, stickyErr := true } 32 0x11000001) = .next t)
      ∧ State.nextTurn (State.withFetchWord idle 32 0x11000001) ≠ .powerOn := ⟨⟨_, rfl⟩, by decide⟩

/-- Both outcomes at the capacity's edge: 40000 bits and one more. -/
theorem witness_FbResetSetsDimensionsOrRejects :
    State.ready (withArgs idle 40000 1 0 0) ∧ State.ready (withArgs idle 40001 1 0 0) := ⟨⟨rfl, rfl⟩, ⟨rfl, rfl⟩⟩

theorem witness_FbClearWritesTheFramebufferBytes : State.ready { idle with fbW := 3, fbH := 3 } := ⟨rfl, rfl⟩

/-- The last pixel of a 16×2 framebuffer, and a point outside. -/
theorem witness_FbSetPixelWritesOneBit :
    State.ready (withArgs white16x2 15 1 0 0) ∧ white16x2.geom.bitAt 15 1 = some 31 ∧ white16x2.rot = .rot0
      ∧ State.ready (withArgs white16x2 16 0 0 0)
      ∧ white16x2.geom.inBounds (State.coord (withArgs white16x2 16 0 0 0) 0) (State.coord (withArgs white16x2 16 0 0 0) 1)
        = false := ⟨⟨rfl, rfl⟩, by decide, rfl, ⟨rfl, rfl⟩, by decide⟩

/-- The corners of a rotated 16×2 framebuffer, in and out of bounds, and a physical pixel, the last one, whose bit is
known. -/
theorem witness_RotationMapsOntoThePhysicalPixels :
    (Geometry.mk 16 2 .rot90).inBounds 1 15 = true ∧ (Geometry.mk 16 2 .rot90).inBounds 2 0 = false
      ∧ ((0 : Int) ≤ 15 ∧ (15 : Int) < (16 : Nat)) ∧ (0 : Int) ≤ 1 ∧ (1 : Int) < (2 : Nat)
      ∧ white16x2.capacityKept ∧ 15 < white16x2.fbW.toNat ∧ 1 < white16x2.fbH.toNat
      ∧ white16x2.store.bitRead (white16x2.geom.index (15, 1)) = some .white := by
  unfold State.capacityKept; decide

theorem witness_FbGetPixelReportsTheBit :
    State.ready (withArgs white16x2 15 1 0 0) ∧ white16x2.geom.inBounds 16 1 = false
      ∧ white16x2.geom.bitAt 15 1 = some 31 ∧ white16x2.store.bitRead 31 = some .white :=
  ⟨⟨rfl, rfl⟩, by decide, by decide, by decide⟩

theorem witness_FbRotateChangesOnlyTheRotation : white16x2.ready := ⟨rfl, rfl⟩

/-- The last pixel of a 16×2 framebuffer read in an 8×4 one. -/
theorem witness_ReshapedFramebufferReadsTheSameBits :
    State.ready (withArgs white16x2 8 4 0 0)
      ∧ ∃ t, exec .fbReset (withArgs white16x2 8 4 0 0) = .next t ∧ t.err = .ok
        ∧ 15 < white16x2.fbW.toNat ∧ 1 < white16x2.fbH.toNat
        ∧ 1 * white16x2.fbW.toNat + 15 < t.fbW.toNat * t.fbH.toNat :=
  ⟨⟨rfl, rfl⟩, _, rfl, by decide, by decide, by decide, by decide⟩

theorem witness_FbDrawLinePlotsTheLoopsPoints :
    State.ready (withArgs white8x4 0xFFFE 0xFFFF 9 3) ∧ white8x4.geom.bitAt 7 2 = some 23
      ∧ white8x4.fbW.toNat * white8x4.fbH.toNat ≤ 32 := ⟨⟨rfl, rfl⟩, by decide, by decide⟩

/-- A corner of the outline, a point inside it and the first bit beyond the framebuffer. -/
theorem witness_FbDrawRectPlotsTheOutline :
    State.ready (withArgs white8x4 6 3 1 0) ∧ (1 : Int) = min 6 1 ∧ (6 : Int) = max 6 1
      ∧ (0 : Int) = min (State.coord (withArgs white8x4 6 3 1 0) 1) (State.coord (withArgs white8x4 6 3 1 0) 3)
      ∧ white8x4.geom.bitAt 1 0 = some 1 ∧ white8x4.geom.bitAt 2 1 = some 10
      ∧ white8x4.fbW.toNat * white8x4.fbH.toNat ≤ 32 :=
  ⟨⟨rfl, rfl⟩, by decide, by decide, by decide, by decide, by decide, by decide⟩

theorem witness_FbFillRectPlotsTheRectangle :
    State.ready (withArgs white8x4 0xFFFE 0xFFFE 1 0)
      ∧ (-2 : Int) = min (State.coord (withArgs white8x4 0xFFFE 0xFFFE 1 0) 0) (State.coord (withArgs white8x4 0xFFFE 0xFFFE 1 0) 2)
      ∧ white8x4.geom.bitAt 1 0 = some 1 ∧ white8x4.geom.bitAt 2 0 = some 2 :=
  ⟨⟨rfl, rfl⟩, by decide, by decide, by decide⟩

theorem witness_NoDrawingBeyondTheFramebuffer :
    (∀ c, Instr.fbFillRect .black ≠ .fbClear c)
      ∧ (∃ t, exec (.fbFillRect .black) (withArgs white8x4 0 0 9 9) = .next t)
      ∧ white8x4.fbW.toNat * white8x4.fbH.toNat ≤ 32 := ⟨fun c h => (by cases h), ⟨_, rfl⟩, by decide⟩

/-- The example of R187: a source three wide, clipped to two. -/
theorem witness_ImgBeginBmpOpensOrRejects :
    bmpReady.ready ∧ 14 = ((bmpReady.arg 0).extractLsb' 0 16).toNat ∧ 0 = ((bmpReady.arg 1).extractLsb' 0 16).toNat
      ∧ (3 : Int) = (bmpReady.arg 2).toInt ∧ (2 : Int) = (bmpReady.arg 3).toInt
      ∧ 2 = (if bmpReady.geom.logicalW ≤ 14 then 0 else min (3 : Int).toNat (bmpReady.geom.logicalW - 14))
      ∧ 2 = (if bmpReady.geom.logicalH ≤ 0 then 0 else min (2 : Int).natAbs (bmpReady.geom.logicalH - 0)) :=
  ⟨⟨rfl, rfl⟩, by decide, by decide, by decide, by decide, by decide, by decide⟩

/-- The widest scanline accepted, and one wider. -/
theorem witness_ImgBeginGenOpensOrRejects :
    State.ready (withArgs idle 0 190 320 40) ∧ State.ready (withArgs idle 0 190 321 40)
      ∧ 320 = (State.arg (withArgs idle 0 190 320 40) 2).toNat ∧ 321 = (State.arg (withArgs idle 0 190 321 40) 2).toNat
      ∧ 200 = (if idle.geom.logicalW ≤ 0 then 0 else min 320 (idle.geom.logicalW - 0))
      ∧ 10 = (if idle.geom.logicalH ≤ 190 then 0 else min 40 (idle.geom.logicalH - 190)) :=
  ⟨⟨rfl, rfl⟩, ⟨rfl, rfl⟩, by decide, by decide, by decide, by decide⟩

/-- A column before the window's last, and the last. -/
theorem witness_BitmapPushWritesAndAdvances :
    bmpOpen.cmdBusy = false ∧ bmpOpen.imgActive = true ∧ bmpOpen.imgMode = .bitmap ∧ bmpOpen.streamInWindow
      ∧ bmpOpen.imgCol.toNat + 1 < bmpOpen.imgW.toNat ∧ State.streamInWindow { bmpOpen with imgCol := 1, imgRow := 1 }
      ∧ (1 : Half).toNat + 1 = bmpOpen.imgW.toNat :=
  ⟨rfl, rfl, rfl, fun _ => by decide, by decide, fun _ => by decide, by decide⟩

theorem witness_GenericPushWritesAndAdvances :
    genOpen.cmdBusy = false ∧ genOpen.imgActive = true ∧ genOpen.imgMode = .generic ∧ genOpen.streamInWindow
      ∧ genOpen.imgCol.toNat + 1 < genOpen.imgW.toNat ∧ State.streamInWindow { genOpen with imgCol := 1 }
      ∧ (1 : Half).toNat + 1 = genOpen.imgW.toNat :=
  ⟨rfl, rfl, rfl, fun _ => by decide, by decide, fun _ => by decide, by decide⟩

theorem witness_PixelPushWithoutItsStreamFails :
    idle.cmdBusy = false ∧ idle.imgActive = false ∧ genOpen.cmdBusy = false ∧ genOpen.imgMode = .generic
      ∧ bmpOpen.cmdBusy = false ∧ bmpOpen.imgMode = .bitmap := by decide

theorem witness_ImgAbortClosesTheStream : genOpen.cmdBusy = false := rfl

/-- A bottom-up stream, a top-down one, a generic one and no stream. -/
theorem witness_RowOffsetAddressesTheStoredRow :
    bmpOpen.streamInWindow ∧ bmpOpen.imgActive = true ∧ bmpOpen.imgMode = .bitmap ∧ bmpOpen.imgFlip = true
      ∧ State.streamInWindow { bmpOpen with imgFlip := false, imgRow := 1 } ∧ genOpen.streamInWindow
      ∧ genOpen.imgMode = .generic ∧ idle.streamInWindow ∧ idle.imgActive = false :=
  ⟨fun _ => by decide, rfl, rfl, rfl, fun _ => by decide, fun _ => by decide, rfl, fun h => (by cases h), rfl⟩

theorem witness_GenericStreamFillsItsWindow :
    genOpen.cmdBusy = false ∧ genOpen.imgActive = true ∧ genOpen.imgMode = .generic ∧ genOpen.streamInWindow
      ∧ genOpen.imgCol = 0 ∧ genOpen.imgRow = 0 ∧ [0, 0xFFFF].length = genOpen.imgW.toNat * genOpen.imgH.toNat
      ∧ genOpen.geom.bitAt (genOpen.imgX0.toNat + (1 % genOpen.imgW.toNat : Nat))
          (genOpen.imgY0.toNat + (1 / genOpen.imgW.toNat : Nat)) = some 1
      ∧ ∀ n, n < 2 → genOpen.geom.bitAt (genOpen.imgX0.toNat + (n % genOpen.imgW.toNat : Nat))
          (genOpen.imgY0.toNat + (n / genOpen.imgW.toNat : Nat)) ≠ some 2 :=
  ⟨rfl, rfl, rfl, fun _ => by decide, rfl, rfl, by decide, by decide, by decide⟩

/-- The last pixel of stored row 0, and the padding byte of a framebuffer five pixels wide. -/
theorem witness_SnapshotHoldsThePixelsBottomUp :
    0 < white16x2.fbH.toNat ∧ 15 < white16x2.fbW.toNat
      ∧ white16x2.store.bitRead ((white16x2.fbH.toNat - 1 - 0) * white16x2.fbW.toNat + 15) = some .white
      ∧ 3 * (5 : Half).toNat ≤ 15 ∧ 15 < snapStride (5 : Half).toNat := by decide

theorem witness_SnapshotRoundTripReproducesThePixels :
    white16x2.rot = .rot0 ∧ 0 < white16x2.fbW.toNat ∧ 0 < white16x2.fbH.toNat
      ∧ (∀ i, i < white16x2.fbW.toNat * white16x2.fbH.toNat → (white16x2.store.bitRead i).isSome = true)
      ∧ State.ready { white16x2 with args := #v[0, 0, 16, 2, 0x4D42, 0x00180001, 0, 54] }
      ∧ 764 ≤ 764 ∧ (#v[0, 0, 16, 2, 0x4D42, 0x00180001, 0, 54] : Vector Word 8)
        = #v[0, 0, BitVec.setWidth 32 white16x2.fbW, BitVec.setWidth 32 white16x2.fbH, 0x4D42, 0x00180001, 0, 54] :=
  ⟨rfl, by decide, by decide, by decide, ⟨rfl, rfl⟩, by decide, by decide⟩

theorem witness_DcInitReinitialisesThePanel : activeBase.ready := ⟨rfl, rfl⟩

theorem witness_DcWaitIdleCompletesOrWaits :
    idle.ready ∧ idle.panelBusy = false ∧ State.ready { idle with panelBusy := true } := ⟨⟨rfl, rfl⟩, rfl, ⟨rfl, rfl⟩⟩

/-- The three outcomes of a tick with a bound of 3 (the panel idle, the last tick, a tick before it), and a whole wait. -/
theorem witness_WaitTimesOutAfterItsTicks :
    1 ≤ 3 ∧ 3 < 2 ^ 32 ∧ State.cmdBusy { waiting with panelBusy := false } = true ∧ waiting.cmdBusy = true
      ∧ waiting.panelBusy = true ∧ 3 ≤ (State.waitCnt { waiting with waitCnt := 2 }).toNat + 1
      ∧ (State.waitCnt { waiting with waitCnt := 1 }).toNat + 1 < 3 ∧ waiting.waitCnt = 0 := by decide

/-- Not initialised, not waited, and ready for a frame operation: the same three states serve every frame operation. -/
theorem witness_DcWriteBaseRefreshesWhiteAndSetsBase :
    idle.ready ∧ idle.dcState = .uninit ∧ State.ready { initWaited with waited := false }
      ∧ State.dcState { initWaited with waited := false } = .init ∧ initWaited.frameReady :=
  ⟨⟨rfl, rfl⟩, rfl, ⟨rfl, rfl⟩, rfl, ⟨⟨rfl, rfl⟩, .inl rfl, rfl⟩⟩

/-- Both clauses at the edges of alignment: x = 8, w = 16, and w one more. -/
theorem witness_DcSetFrameMemoryLoadsTheRegion :
    State.frameReady (withArgs activeBase 8 0 16 2) ∧ 16 = ((State.arg (withArgs activeBase 8 0 16 2) 2).extractLsb' 0 16).toNat
      ∧ State.frameReady (withArgs activeBase 8 0 17 2)
      ∧ 17 = ((State.arg (withArgs activeBase 8 0 17 2) 2).extractLsb' 0 16).toNat :=
  ⟨⟨⟨rfl, rfl⟩, .inr rfl, rfl⟩, by decide, ⟨⟨rfl, rfl⟩, .inr rfl, rfl⟩, by decide⟩

theorem witness_DcDisplayFrameTriggersAFullRefresh :
    State.ready { activeBase with dcState := .sleep } ∧ State.ready { activeBase with waited := false }
      ∧ activeBase.frameReady := ⟨⟨rfl, rfl⟩, ⟨rfl, rfl⟩, ⟨⟨rfl, rfl⟩, .inr rfl, rfl⟩⟩

/-- No base image; a base image and a region off the grid; a base image and an aligned region, given or whole. -/
theorem witness_DcDisplayPartLoadsAndTriggers :
    initWaited.frameReady ∧ initWaited.base = false ∧ State.frameReady (withArgs activeBase 4 0 8 2)
      ∧ activeBase.base = true ∧ ¬ (4 % 8 = 0 ∧ 8 % 8 = 0)
      ∧ 4 = ((State.arg (withArgs activeBase 4 0 8 2) 0).extractLsb' 0 16).toNat
      ∧ activeBase.frameReady ∧ 16 = activeBase.fbW.toNat ∧ 16 % 8 = 0 :=
  ⟨⟨⟨rfl, rfl⟩, .inl rfl, rfl⟩, rfl, ⟨⟨rfl, rfl⟩, .inr rfl, rfl⟩, rfl, by decide, by decide, ⟨⟨rfl, rfl⟩, .inr rfl, rfl⟩,
    by decide, by decide⟩

theorem witness_DcSleepLosesPanelMemoryOnly :
    State.ready { activeBase with dcState := .sleep } ∧ State.ready { activeBase with waited := false }
      ∧ activeBase.frameReady := ⟨⟨rfl, rfl⟩, ⟨rfl, rfl⟩, ⟨⟨rfl, rfl⟩, .inr rfl, rfl⟩⟩

theorem witness_DcClearRefreshesWhiteAndDropsBase :
    State.ready { activeBase with dcState := .sleep } ∧ State.ready { activeBase with waited := false }
      ∧ activeBase.frameReady := ⟨⟨rfl, rfl⟩, ⟨rfl, rfl⟩, ⟨⟨rfl, rfl⟩, .inr rfl, rfl⟩⟩

/-- Each clause: not initialised, not waited, no base image, a region off the grid. -/
theorem witness_FrameOperationChecksInOrder :
    isFrameOp .dcSetFrameMemory = true ∧ isFrameOp (.dcDisplayPart .region) = true ∧ idle.ready ∧ idle.dcState = .uninit
      ∧ State.ready { initWaited with waited := false } ∧ initWaited.ready ∧ initWaited.waited = true
      ∧ initWaited.base = false ∧ State.ready (withArgs activeBase 4 0 8 2)
      ∧ (State.partRegion .region (withArgs activeBase 4 0 8 2)).aligned = false
      ∧ (State.argRegion (withArgs activeBase 4 0 8 2)).aligned = false :=
  ⟨rfl, rfl, ⟨rfl, rfl⟩, rfl, ⟨rfl, rfl⟩, ⟨rfl, rfl⟩, rfl, rfl, ⟨rfl, rfl⟩, by decide, by decide⟩

theorem witness_DcStateFollowsItsTransitionTable :
    activeBase.cmdBusy = false ∧ (∃ t, exec .dcSleep activeBase = .next t ∧ t.err = .ok) ∧ idle.ready
      ∧ idle.dcState = .uninit ∧ isFrameOp .dcSleep = true := ⟨rfl, ⟨_, rfl, rfl⟩, ⟨rfl, rfl⟩, rfl, rfl⟩

theorem witness_BusyFallShowsThePendingImage :
    waiting.panelBusy = true ∧ waiting.pend = none
      ∧ State.pend { waiting with pend := some ⟨.allUnknown, .part⟩ } = some ⟨.allUnknown, .part⟩ := by decide

theorem witness_RefreshShowsTheImageOfItsTrigger :
    activeBase.frameReady ∧ (∀ i ∈ [Instr.fbClear .black, .fbSetPixel .white], isDisplayCommand i = false)
      ∧ ∃ t, exec .dcDisplayFrame activeBase = .next t
        ∧ ∃ u, execAll [.fbClear .black, .fbSetPixel .white] t = .next u :=
  ⟨⟨⟨rfl, rfl⟩, .inr rfl, rfl⟩, by decide, _, rfl, _, rfl⟩

/-- The three clauses with something to say: a partial refresh triggered, a base image written, one taken away. -/
theorem witness_PartialRefreshNeedsABaseImage :
    (∃ t, exec (.dcDisplayPart .whole) activeBase = .next t ∧ t.lastRefresh = some .part ∧ t.pend ≠ activeBase.pend
        ∧ (t.pend.map Pending.kind) = some .part)
      ∧ (∃ t, exec .dcWriteBase initWaited = .next t ∧ t.base = true)
      ∧ activeBase.cmdBusy = false ∧ ∃ t, exec .dcClear activeBase = .next t ∧ t.err = .ok :=
  ⟨⟨_, rfl, rfl, fun h => (by cases h), rfl⟩, ⟨_, rfl, rfl⟩, rfl, _, rfl, rfl⟩

theorem witness_FrameOperationNeedsAnIdlePanel :
    isFrameOp .dcDisplayFrame = true ∧ activeBase.waitedMeansIdle ∧ activeBase.cmdBusy = false
      ∧ ∃ t, exec .dcDisplayFrame activeBase = .next t ∧ t.err = .ok := ⟨rfl, fun _ => rfl, rfl, _, rfl, rfl⟩

theorem witness_WaitedImpliesIdlePanel :
    State.waitedMeansIdle (State.withFetchWord activeBase 32 0x34000000)
      ∧ ∃ t, step (State.withFetchWord activeBase 32 0x34000000) = .next t := ⟨fun _ => rfl, _, rfl⟩

theorem witness_DimensionsStayWithinCapacity :
    State.capacityKept (State.withFetchWord (withArgs idle 40000 1 0 0) 32 0x10000000)
      ∧ ∃ t, step (State.withFetchWord (withArgs idle 40000 1 0 0) 32 0x10000000) = .next t :=
  ⟨by unfold State.capacityKept; decide, _, rfl⟩

theorem witness_StreamCursorStaysInItsWindow :
    State.streamInWindow (State.withFetchWord genOpen 32 0x23000000) ∧ genOpen.imgActive = true
      ∧ ∃ t, step (State.withFetchWord genOpen 32 0x23000000) = .next t := ⟨fun _ => by decide, rfl, _, rfl⟩

/-- A state with an open stream and a known framebuffer, about to take a command. -/
theorem witness_EveryStepKeepsTheInvariant :
    State.Inv (State.withFetchWord genOpen 32 0x23000000)
      ∧ ∃ t, step (State.withFetchWord genOpen 32 0x23000000) = .next t := by
  refine ⟨⟨⟨by decide, by decide, by decide, fun _ h => (by cases h)⟩, ?_, fun _ => rfl, fun h => (by cases h),
    fun _ => by decide, fun h => (by cases h), ?_, fun h => absurd rfl h⟩, _, rfl⟩
  · unfold State.capacityKept; decide
  · exact ⟨fun _ => ⟨rfl, rfl, rfl, rfl⟩, fun h => (by cases h), fun h => (by cases h), fun h => (by cases h), fun _ h => (by cases h)⟩

/-- The map's last register, and two argument registers. -/
theorem witness_RegisterAccessesReadAndWrite :
    (Reg.waitCnt, 0x050#14) ∈ [(Reg.imgRowOff, 0x04C#14), (.waitCnt, 0x050)] ∧ (6 : Fin 8) ≠ 7 := by decide

/-- A register offset one byte off and the first unmapped one, the first offset beyond the window, and the read-only
registers next to the argument registers. -/
theorem witness_RefusedAccessesSetBuserrOnly :
    ¬ (0x001 : Offset).toNat % 4 = 0 ∧ ¬ (0x054 : Offset).toNat ≤ 0x050 ∧ ¬ (1 = 4) ∧ ¬ (0x2388 : Offset).toNat ≤ 0x2387
      ∧ ((0x00C : Offset).toNat % 4 = 0 ∧ (0x00C : Offset).toNat ≤ 0x050 ∧ (0x00C : Offset).toNat ≠ 0x000
        ∧ ¬ (0x010 ≤ (0x00C : Offset).toNat ∧ (0x00C : Offset).toNat ≤ 0x02C))
      ∧ ¬ (0x010 ≤ (0x030 : Offset).toNat ∧ (0x030 : Offset).toNat ≤ 0x02C) := by decide

/-- The window's last byte. -/
theorem witness_WindowBytesAreMsbFirst :
    4999 < 5000 ∧ white16x2.store.bitRead (8 * 3 + (7 - 0)) = some .white := by decide

theorem witness_ResetGivesTheTabledValues : State.reset = State.reset ∧ ∃ u : State, idle.powerOnReset = u.powerOnReset :=
  ⟨rfl, idle, rfl⟩

end Sys2Proof.Tests
end

section
/-! Whose turn it is and what each turn does (spec/00_scope.md R6), one rule per agent, so that a proof about a step cites
the turn taken and opens neither `step` nor `State.takeTurn`. -/

namespace Sys2Proof.Machine

/-! ### The turn taken -/

/-- A step takes the coming turn in the state without it. -/
theorem step_of_nextTurn {s : State} {t : Turn} (h : s.nextTurn = t) : step s = s.popTurn.takeTurn t := by
  unfold step State.oneTurn
  rw [h]

/-- A step with a turn listed takes that turn, with the others left to come. -/
theorem step_of_turns {s : State} {t : Turn} {ts : List Turn} (h : s.turns = t :: ts) :
    step s = State.takeTurn t { s with turns := ts } := by
  have hnext : s.nextTurn = t := by simp [State.nextTurn, h]
  have hpop : s.popTurn = { s with turns := ts } := by simp [State.popTurn, h]
  rw [step_of_nextTurn hnext, hpop]

/-! ### The host's turn, by its coming operation -/

theorem hostTurn_nil {s : State} (h : s.program = []) : s.hostTurn = .next s := by
  unfold State.hostTurn
  rw [h]

theorem hostTurn_access {s : State} {a : BusAccess} {rest : List HostOp} (hpow : s.powered = true)
    (h : s.program = .access a :: rest) : s.hostTurn = State.access a { s with program := rest } := by
  unfold State.hostTurn
  rw [h]
  exact if_pos hpow

/-- A POLL line reads once and leaves the program only where the value matches (spec/30_encoding.md R114). -/
theorem hostTurn_poll {s : State} {off : Offset} {mask value : Word} {rest : List HostOp} (hpow : s.powered = true)
    (h : s.program = .poll off mask value :: rest) :
    s.hostTurn = .next (if (s.busRead off 4).busData &&& mask = value then { s.busRead off 4 with program := rest }
      else s.busRead off 4) := by
  unfold State.hostTurn
  rw [h]
  simp [hpow]

/-- A legal word issued runs its command (spec/60_exceptions.md R274). -/
theorem issueWord_of_decode {w : Word} {i : Instr} (h : decode w = .ok i) (s : State) : issueWord w s = exec i s := by
  unfold issueWord
  rw [h]

/-- A CMD write of a legal word runs its command (spec/20_memory.md R76). -/
theorem access_cmd_of_decode {w : Word} {i : Instr} (h : decode w = .ok i) (s : State) :
    State.access (.write 0 4 w) s = exec i s :=
  calc State.access (.write 0 4 w) s
    _ = s.busWrite 0 4 w := rfl
    _ = issueWord w s := busWrite_cmd w s
    _ = exec i s := issueWord_of_decode h s

/-! ### The turns of the engine, the panel and the power -/

theorem engineTurn_of_powered {s : State} (hpow : s.powered = true) :
    s.engineTurn = s.pollTick Config.waitTimeoutTicks := if_pos hpow

theorem panelTurn_of_powered {s : State} (hpow : s.powered = true) : s.panelTurn = s.busyFall := if_pos hpow

/-- A cut during a refresh loses the glass (spec/70_reset_and_hazards.md R311). -/
theorem cutPower_of_busy {s : State} (hpow : s.powered = true) (hbusy : s.panelBusy = true) :
    s.cutPower = { s with powered := false, displayed := .allUnknown } := by
  simp [State.cutPower, hpow, hbusy]

/-- A cut after a completed DC_SLEEP keeps the glass (spec/60_exceptions.md R287). -/
theorem cutPower_of_asleep {s : State} (hpow : s.powered = true) (hidle : s.panelBusy = false)
    (hsleep : s.dcState = .sleep) : s.cutPower = { s with powered := false } := by
  simp [State.cutPower, hpow, hidle, hsleep]

/-! ### The statements -/

/-- Settles O6: the host's turn by its coming operation, in the state with that turn taken off. -/
theorem stepRunsTheDecodedCommand : Obligations.StepRunsTheDecodedCommand := by
  refine ⟨fun _ _ _ _ => ⟨rfl, rfl⟩, fun s hpow hhost => ?_⟩
  have hstep : step s = s.popTurn.hostTurn := step_of_nextTurn hhost
  have haccess : ∀ (a : BusAccess) (rest : List HostOp), s.program = .access a :: rest →
      step s = State.access a { s with turns := s.turns.tail, program := rest } := fun a rest hprog =>
    hstep.trans (hostTurn_access (s := s.popTurn) hpow hprog)
  refine ⟨haccess, fun w i rest hprog hdec => ?cmd, fun off mask value rest t hprog ht => ?poll, fun hprog => ?done⟩
  case cmd => exact (haccess _ rest hprog).trans (access_cmd_of_decode hdec _)
  case poll =>
    subst ht
    exact hstep.trans (hostTurn_poll (s := s.popTurn) hpow hprog)
  case done => exact hstep.trans (hostTurn_nil (s := s.popTurn) hprog)

/-- Settles O7: each turn is the agent's own rule, in the state with that turn taken off. -/
theorem turnsOfEnginePanelAndPower : Obligations.TurnsOfEnginePanelAndPower := by
  refine ⟨fun s ts hturn => step_of_turns hturn, fun s ts hpow => ?_⟩
  refine ⟨fun hturn => ?engine, fun hturn => ?panel, fun hturn hbusy => ?cutBusy, fun hturn hidle hsleep => ?cutAsleep⟩
  all_goals refine (step_of_turns hturn).trans (congrArg Host.Outcome.next ?_)
  case engine => exact engineTurn_of_powered (s := { s with turns := ts }) hpow
  case panel => exact panelTurn_of_powered (s := { s with turns := ts }) hpow
  case cutBusy => exact cutPower_of_busy (s := { s with turns := ts }) hpow hbusy
  case cutAsleep => exact cutPower_of_asleep (s := { s with turns := ts }) hpow hidle hsleep

end Sys2Proof.Machine
end

section
/-! What an accepted command does to the block, said once for all 21 (`CommandEffect`), with the cases of the engine's
and the panel's turns. The frame and the invariants are case analyses over these, and none unfolds a command. -/

namespace Sys2Proof.Machine

/-! ### The effects -/

/-- The coordinates and dimensions of a stream's frame fit the 16-bit descriptor registers
(spec/10_state.md R46 to R48). -/
structure ImgFrame.Fits (f : ImgFrame) : Prop where
  x0 : f.x0 < 65536
  y0 : f.y0 < 65536
  srcW : f.srcW < 65536
  srcH : f.srcH < 65536

/-- What the body of command `i` makes of a state: it is rejected with a code, or it has the command's effect, whose
premises are what the command's own checks have established. Commands with effects of one form share a constructor. -/
inductive CommandEffect (s : State) : Instr → State → Prop where
  | rejected {i : Instr} {code : StatusCode} (hcode : code ≠ .ok) : CommandEffect s i (s.complete code)
  | resized (hcap : s.dim 0 * s.dim 1 ≤ Config.capBits) :
      CommandEffect s .fbReset
        (State.complete .ok { s with fbW := BitVec.ofNat 16 (s.dim 0), fbH := BitVec.ofNat 16 (s.dim 1) })
  | rotated (r : Rotation) : CommandEffect s (.fbRotate r) (State.complete .ok { s with rot := r })
  | drawn {i : Instr} {m : Memory} (hi : writesStore i = true) (hwf : s.store.wf → s.capacityKept → m.wf) :
      CommandEffect s i (State.complete .ok { s with store := m })
  | peeked (v : Bool) (c : Color) :
      CommandEffect s .fbGetPixel
        (State.complete .ok { s with resultValid := v, resultColor := c, draws := s.draws + 1 })
  | opened {i : Instr} {f : ImgFrame} (hi : i = .imgBeginBmp ∨ i = .imgBeginGen) (hfits : f.Fits) :
      CommandEffect s i ((s.openStream f).complete .ok)
  | pushed {i : Instr} (c : Color) (hstore : writesStore i = true) (himg : isImageCommand i = true)
      (hopen : s.imgActive = true) : CommandEffect s i ((s.push c).complete .ok)
  | closed : CommandEffect s .imgAbort (State.complete .ok { s with imgActive := false })
  | initialised (o : Orientation) : CommandEffect s (.dcInit o) (dcInitBody o s)
  | waitStarted (hbusy : s.panelBusy = true) :
      CommandEffect s .dcWaitIdle { s with waitCnt := 0, cmdBusy := true }
  | waitDone (hidle : s.panelBusy = false) :
      CommandEffect s .dcWaitIdle (State.complete .ok { s with waitCnt := 0, waited := true })
  | loaded (r : Region) (hd : s.dcState = .init ∨ s.dcState = .active) :
      CommandEffect s .dcSetFrameMemory ((s.load r).complete .ok)
  | refreshed {i : Instr} {k : RefreshKind} {m : Memory} {b : Bool}
      (hi : i = .dcDisplayFrame ∧ m = s.pram ∧ b = s.base ∨ (∃ p, i = .dcDisplayPart p) ∧ b = s.base
        ∨ i = .dcWriteBase ∨ i = .dcClear)
      (hwf : s.pram.wf → m.wf) :
      CommandEffect s i (State.complete .ok { State.trigger k { s with pram := m } with base := b })
  | slept (hw : s.waited = true) : CommandEffect s .dcSleep (dcSleepBody s)

/-- The frame an accepted bitmap header gives fits the registers (spec/42_thresholder.md R187). -/
theorem bmpFrame_fits {s : State} (h : s.bmpHeader.rejected = false) : s.bmpHeader.frame.Fits := by
  obtain ⟨-, -, -, -, -, -, hw, -, hh⟩ := bmp_accepted h
  unfold Config.imgMaxDim at hw hh
  have hwidth : s.bmpHeader.w.toNat < 65536 := by omega
  exact ⟨dim_lt s 0, dim_lt s 1, hwidth, Nat.lt_succ_of_le hh⟩

/-- The frame accepted by IMG_BEGIN_GEN fits the registers (spec/42_thresholder.md R188). -/
theorem genFrame_fits {s : State} (h : s.genHeader.rejected = false) : s.genHeader.frame.Fits := by
  obtain ⟨-, hw, -, hh⟩ := gen_accepted h
  have hcap : Config.genRowCap < 65536 := by decide
  exact ⟨dim_lt s 0, dim_lt s 1, Nat.lt_of_le_of_lt hw hcap, Nat.lt_succ_of_le hh⟩

/-- A store drawn on by one of the point lists is canonical when the framebuffer fits the capacity. -/
theorem CommandEffect.plotted {s : State} {i : Instr} (hi : writesStore i = true) (c : Color)
    (pts : List (Int × Int)) :
    CommandEffect s i (State.complete .ok { s with store := s.store.plotAll s.geom c pts }) :=
  .drawn hi fun hwf hcap => wf_plotAll (g := s.geom) hwf hcap c pts

/-- A pixel push without a stream of its path is rejected; otherwise it is `State.push`. -/
theorem CommandEffect.pushPixel {s : State} {i : Instr} (hstore : writesStore i = true) (himg : isImageCommand i = true)
    (path : ImgPath) (c : Color) : CommandEffect s i (s.pushPixel path c) := by
  unfold State.pushPixel
  split
  · rename_i h
    exact .pushed c hstore himg ((Bool.and_eq_true_iff.1 h).1)
  · exact .rejected (by decide)

/-- A frame operation is rejected by its common checks, or has the effect of its body in a state that passes them. -/
theorem CommandEffect.frameOp {s : State} {i : Instr} {body : State → State}
    (h : s.dcState = .init ∨ s.dcState = .active → s.waited = true → CommandEffect s i (body s)) :
    CommandEffect s i (s.frameOp body) := by
  rcases frameOp_cases body s with ⟨_, h'⟩ | ⟨_, _, h'⟩ | ⟨hd, hw, h'⟩ <;> rw [h']
  · exact .rejected (by decide)
  · exact .rejected (by decide)
  · exact h hd hw

/-- DC_DISPLAY_PART's body is rejected, or loads a region and triggers a PARTIAL refresh
(spec/43_display_controller.md R232). -/
theorem CommandEffect.displayPart {s : State} (p : PartRegion) :
    CommandEffect s (.dcDisplayPart p) (dcDisplayPartBody p s) := by
  unfold dcDisplayPartBody
  split
  · exact .rejected (by decide)
  · split
    · exact .refreshed (.inr (.inl ⟨⟨p, rfl⟩, rfl⟩)) fun _ => wf_build _
    · exact .rejected (by decide)

/-- FB_RESET is rejected above the capacity (spec/40_framebuffer.md R136). -/
theorem CommandEffect.reset (s : State) : CommandEffect s .fbReset (fbResetBody s) := by
  unfold fbResetBody
  split
  · exact .rejected (by decide)
  · rename_i hcap
    exact .resized (Nat.le_of_not_gt hcap)

/-- IMG_BEGIN_BMP is rejected by its header or opens its frame (spec/42_thresholder.md R187). -/
theorem CommandEffect.beginBmp (s : State) : CommandEffect s .imgBeginBmp (imgBeginBmpBody s) := by
  unfold imgBeginBmpBody
  split
  · exact .rejected (by decide)
  · rename_i h
    exact .opened (.inl rfl) (bmpFrame_fits (Bool.not_eq_true _ ▸ h))

/-- IMG_BEGIN_GEN is rejected by its dimensions or opens its frame (spec/42_thresholder.md R188). -/
theorem CommandEffect.beginGen (s : State) : CommandEffect s .imgBeginGen (imgBeginGenBody s) := by
  unfold imgBeginGenBody
  split
  · exact .rejected (by decide)
  · rename_i h
    exact .opened (.inr rfl) (genFrame_fits (Bool.not_eq_true _ ▸ h))

/-- DC_WAIT_IDLE starts a wait on a busy panel and is done at once on an idle one
(spec/43_display_controller.md R227). -/
theorem CommandEffect.waitIdle (s : State) : CommandEffect s .dcWaitIdle (dcWaitIdleBody s) := by
  unfold dcWaitIdleBody
  split
  · rename_i hbusy
    exact .waitStarted hbusy
  · rename_i hidle
    exact .waitDone (Bool.not_eq_true _ ▸ hidle)

/-- DC_SET_FRAME_MEMORY's body loads an aligned region and rejects any other (spec/43_display_controller.md R230). -/
theorem CommandEffect.setFrameMemory {s : State} (hd : s.dcState = .init ∨ s.dcState = .active) :
    CommandEffect s .dcSetFrameMemory (dcSetFrameMemoryBody s) := by
  unfold dcSetFrameMemoryBody
  split
  · exact .loaded _ hd
  · exact .rejected (by decide)

/-- Every command's body has one of the effects. -/
theorem bodyOf_effect (i : Instr) (s : State) : CommandEffect s i (bodyOf i s) := by
  cases i with
  | fbReset => exact .reset s
  | fbClear c => exact .drawn rfl fun hwf hcap => wf_fillBytes hwf (bytes_le (g := s.geom) hcap) c
  | fbSetPixel c => exact .plotted rfl c [(s.coord 0, s.coord 1)]
  | fbGetPixel => exact .peeked _ _
  | fbRotate r => exact .rotated r
  | fbDrawLine c => exact .plotted rfl c _
  | fbDrawRect c => exact .plotted rfl c _
  | fbFillRect c => exact .plotted rfl c _
  | imgBeginBmp => exact .beginBmp s
  | imgBeginGen => exact .beginGen s
  | imgPixelRgb r g b => exact .pushPixel rfl rfl _ _
  | imgPixel565 v => exact .pushPixel rfl rfl _ _
  | imgAbort => exact .closed
  | dcInit o => exact .initialised o
  | dcWaitIdle => exact .waitIdle s
  | dcWriteBase => exact .frameOp fun _ _ => .refreshed (.inr (.inr (.inl rfl))) fun _ => wf_allWhite
  | dcSetFrameMemory => exact .frameOp fun hd _ => .setFrameMemory hd
  | dcDisplayFrame => exact .frameOp fun _ _ => .refreshed (.inl ⟨rfl, rfl, rfl⟩) id
  | dcDisplayPart p => exact .frameOp fun _ _ => .displayPart p
  | dcSleep => exact .frameOp fun _ hw => .slept hw
  | dcClear => exact .frameOp fun _ _ => .refreshed (.inr (.inr (.inr rfl))) fun _ => wf_allWhite

/-- What a command can do: its write is dropped, an open stream rejects it, or it has its effect. -/
theorem exec_cases {i : Instr} {s t : State} (h : exec i s = .next t) :
    t = s.dropCommand ∨ CommandEffect s i t := by
  rw [exec_eq] at h
  cases h
  rcases issue_cases (exemptOf i) (bodyOf i) s with ⟨_, h⟩ | ⟨_, _, _, h⟩ | ⟨_, _, h⟩ <;> rw [h]
  · exact .inl rfl
  · exact .inr (.rejected (by decide))
  · exact .inr (bodyOf_effect i s)

/-! ### The turns of the engine and the panel -/

/-- What a poll tick can do (spec/43_display_controller.md R228): nothing, an end of the wait with OK or TIMEOUT, or one
more tick counted below the bound. -/
theorem pollTick_cases (limit : Nat) (s : State) :
    s.pollTick limit = s ∨
    (s.panelBusy = false ∧ s.pollTick limit = State.complete .ok { s with cmdBusy := false, waited := true }) ∨
    s.pollTick limit = State.complete .timeout { s with waitCnt := s.waitCnt + 1, cmdBusy := false } ∨
    (s.cmdBusy = true ∧ s.waitCnt.toNat + 1 < limit ∧ s.pollTick limit = { s with waitCnt := s.waitCnt + 1 }) := by
  unfold State.pollTick
  split
  · exact .inl rfl
  · rename_i hcmd
    split
    · rename_i hidle
      exact .inr (.inl ⟨by simpa using hidle, rfl⟩)
    · split
      · exact .inr (.inr (.inl rfl))
      · rename_i hbelow
        exact .inr (.inr (.inr ⟨by simpa using hcmd, Nat.lt_of_not_ge hbelow, rfl⟩))

/-- What the busy fall can do (spec/43_display_controller.md R240): nothing, the pending image shown, or the end of a
busy time with no image pending. -/
theorem busyFall_cases (s : State) :
    s.busyFall = s ∨
    (∃ p, s.pend = some p ∧ s.busyFall = { s with panelBusy := false, displayed := p.image, pend := none }) ∨
    (s.pend = none ∧ s.busyFall = { s with panelBusy := false }) := by
  unfold State.busyFall
  split
  · exact .inl rfl
  · split
    · rename_i p hp
      exact .inr (.inl ⟨p, hp, rfl⟩)
    · rename_i hp
      exact .inr (.inr ⟨hp, rfl⟩)

/-- What a power cut can do (spec/70_reset_and_hazards.md R311): nothing where the power is off already, else the glass
keeps its image or loses it. -/
theorem cutPower_cases (s : State) :
    s.cutPower = s ∨ s.cutPower = { s with powered := false } ∨
    s.cutPower = { s with powered := false, displayed := .allUnknown } := by
  unfold State.cutPower
  split
  · split
    · exact .inr (.inl rfl)
    · exact .inr (.inr rfl)
  · exact .inl rfl

end Sys2Proof.Machine
end

section
/-! The machine's invariants (spec/10_state.md R62 to R64; Safety.lean). Each has a lemma for reset, for a command's
effect, and for the turns of the engine, the panel and the power; `step_keeps` joins them into the statements about
every step. -/

namespace Sys2Proof.Machine

/-! ### Reset -/

theorem reset_controllerConsistent (n : Nat) : (State.resetAt n).controllerConsistent :=
  ⟨fun _ => ⟨rfl, rfl, rfl, rfl⟩, nofun, nofun, nofun, nofun⟩

/-- A power-on reset gives a state with the invariant, whatever PANEL_BUSY then is
(spec/70_reset_and_hazards.md R301). -/
theorem reset_inv (n : Nat) : (State.resetAt n).Inv where
  memories := ⟨wf_allUnknown, wf_allUnknown, wf_allUnknown, nofun⟩
  capacity := by
    show (BitVec.ofNat 16 Config.panelW).toNat * (BitVec.ofNat 16 Config.panelH).toNat ≤ Config.capBits
    decide
  waited := nofun
  pending := nofun
  stream := nofun
  wait := nofun
  controller := reset_controllerConsistent n
  errors := fun h => absurd rfl h

/-! ### Canonical stores -/

theorem CommandEffect.memoriesCanonical {i : Instr} {s t : State} (h : CommandEffect s i t)
    (hs : s.memoriesCanonical) (hcap : s.capacityKept) : t.memoriesCanonical := by
  obtain ⟨hstore, hpram, hdisp, hpend⟩ := hs
  cases h with
  | drawn _ hwf => exact ⟨hwf hstore hcap, hpram, hdisp, hpend⟩
  | pushed c =>
    have hplot := wf_plot (g := s.geom) hstore hcap c s.pushPoint.1 s.pushPoint.2
    simpa [State.memoriesCanonical] using ⟨hplot, hpram, hdisp, hpend⟩
  | initialised =>
    refine ⟨hstore, wf_allUnknown, ?_, nofun⟩
    show (if s.pend.isSome then Memory.allUnknown else s.displayed).wf = true
    split
    · exact wf_allUnknown
    · exact hdisp
  | loaded r => exact ⟨hstore, wf_build _, hdisp, hpend⟩
  | refreshed _ hwf =>
    refine ⟨hstore, hwf hpram, hdisp, fun p hp => ?_⟩
    cases hp
    exact hwf hpram
  | slept => exact ⟨hstore, wf_allUnknown, hdisp, hpend⟩
  | _ => exact ⟨hstore, hpram, hdisp, hpend⟩

theorem busyFall_memoriesCanonical {s : State} (hs : s.memoriesCanonical) : s.busyFall.memoriesCanonical := by
  obtain ⟨hstore, hpram, hdisp, hpend⟩ := hs
  rcases busyFall_cases s with h | ⟨p, hp, h⟩ | ⟨_, h⟩ <;> rw [h]
  · exact ⟨hstore, hpram, hdisp, hpend⟩
  · exact ⟨hstore, hpram, hpend p hp, nofun⟩
  · exact ⟨hstore, hpram, hdisp, hpend⟩

/-! ### The capacity (R63) -/

theorem CommandEffect.capacityKept {i : Instr} {s t : State} (h : CommandEffect s i t) (hs : s.capacityKept) :
    t.capacityKept := by
  cases h with
  | resized hcap =>
    show (BitVec.ofNat 16 (s.dim 0)).toNat * (BitVec.ofNat 16 (s.dim 1)).toNat ≤ Config.capBits
    rwa [toNat_ofNat16 (dim_lt s 0), toNat_ofNat16 (dim_lt s 1)]
  | pushed => simpa [State.capacityKept] using hs
  | _ => exact hs

theorem pollTick_capacityKept (limit : Nat) {s : State} (hs : s.capacityKept) : (s.pollTick limit).capacityKept := by
  simpa [State.capacityKept] using hs

theorem busyFall_capacityKept {s : State} (hs : s.capacityKept) : s.busyFall.capacityKept := by
  simpa [State.capacityKept] using hs

/-! ### WAITED and the idle panel (R62) -/

theorem CommandEffect.waitedMeansIdle {i : Instr} {s t : State} (h : CommandEffect s i t) (hs : s.waitedMeansIdle) :
    t.waitedMeansIdle := by
  cases h with
  | initialised | refreshed | slept => exact nofun
  | waitDone hidle => exact fun _ => hidle
  | pushed => simpa [State.waitedMeansIdle] using hs
  | _ => exact hs

theorem pollTick_waitedMeansIdle (limit : Nat) {s : State} (hs : s.waitedMeansIdle) :
    (s.pollTick limit).waitedMeansIdle := by
  rcases pollTick_cases limit s with h | ⟨hidle, h⟩ | h | ⟨_, _, h⟩ <;> rw [h]
  · exact hs
  · exact fun _ => hidle
  · exact hs
  · exact hs

theorem busyFall_waitedMeansIdle {s : State} (hs : s.waitedMeansIdle) : s.busyFall.waitedMeansIdle := by
  rcases busyFall_cases s with h | ⟨_, _, h⟩ | ⟨_, h⟩ <;> rw [h]
  · exact hs
  · exact fun _ => rfl
  · exact fun _ => rfl

/-! ### A pending refresh and the busy panel -/

theorem CommandEffect.pendingMeansBusy {i : Instr} {s t : State} (h : CommandEffect s i t) (hs : s.pendingMeansBusy) :
    t.pendingMeansBusy := by
  cases h with
  | initialised | refreshed => exact fun _ => rfl
  | pushed => simpa [State.pendingMeansBusy] using hs
  | _ => exact hs

theorem busyFall_pendingMeansBusy {s : State} (hs : s.pendingMeansBusy) : s.busyFall.pendingMeansBusy := by
  rcases busyFall_cases s with h | ⟨_, _, h⟩ | ⟨hnone, h⟩ <;> rw [h]
  · exact hs
  · exact nofun
  · exact fun hp => absurd hp (by simp [hnone])

/-! ### The cursor of an open stream (R64) -/

/-- A stream that opens has its cursor at the window's first point and its window where the clip put it
(spec/42_thresholder.md R182). -/
theorem openStream_streamInWindow {f : ImgFrame} (hf : f.Fits) (s : State) : (s.openStream f).streamInWindow := by
  intro hactive
  obtain ⟨hw, hh⟩ : 0 < f.windowW s.geom ∧ 0 < f.windowH s.geom := by simpa using hactive
  have hgeom : (s.openStream f).geom = s.geom := rfl
  simp only [openStream_imgCol, openStream_imgRow, openStream_imgW, openStream_imgH, openStream_imgX0,
    openStream_imgY0, openStream_imgSrcW, openStream_imgSrcH, hgeom, toNat_ofNat16 (windowW_lt f s),
    toNat_ofNat16 (windowH_lt f s), toNat_ofNat16 hf.x0, toNat_ofNat16 hf.y0, toNat_ofNat16 hf.srcW,
    toNat_ofNat16 hf.srcH]
  exact ⟨hw, hh, clipDim_end hw, clipDim_end hh, (clipDim_le _ _ _).1, (clipDim_le _ _ _).1⟩

/-- The cursor's advance stays in the window or closes the stream (spec/42_thresholder.md R192). -/
theorem advanceCursor_streamInWindow {s : State} (hs : s.streamInWindow) : s.advanceCursor.streamInWindow := by
  unfold State.advanceCursor
  split
  · rename_i hlast
    intro hactive
    obtain ⟨hopen, hmore⟩ : s.imgActive = true ∧ s.imgRow.toNat + 1 ≠ s.imgH.toNat := by simpa using hactive
    obtain ⟨hcol, hrow, hrest⟩ := hs hopen
    refine ⟨?_, ?_, hrest⟩
    · show (0 : Half).toNat < s.imgW.toNat
      exact Nat.lt_of_le_of_lt (Nat.zero_le _) hcol
    · show (s.imgRow + 1).toNat < s.imgH.toNat
      have hH := s.imgH.isLt
      rw [BitVec.toNat_add_of_lt] <;> simp <;> omega
  · rename_i hmore
    intro hopen
    obtain ⟨hcol, hrow, hrest⟩ := hs hopen
    refine ⟨?_, hrow, hrest⟩
    show (s.imgCol + 1).toNat < s.imgW.toNat
    have hW := s.imgW.isLt
    rw [BitVec.toNat_add_of_lt] <;> simp <;> omega

/-- The geometry a stream was clipped to stays while it is open, since FB_RESET and FB_ROTATE are then rejected
(spec/42_thresholder.md R197). -/
theorem CommandEffect.streamInWindow {i : Instr} {s t : State} (h : CommandEffect s i t)
    (hexempt : s.imgActive = true → exemptOf i = true) (hs : s.streamInWindow) : t.streamInWindow := by
  cases h with
  | resized => exact fun hopen => Bool.noConfusion (hexempt hopen)
  | rotated => exact fun hopen => Bool.noConfusion (hexempt hopen)
  | opened _ hfits => exact openStream_streamInWindow hfits s
  | pushed c => exact advanceCursor_streamInWindow (s := { s with store := s.store.plot s.geom c _ _ }) hs
  | closed => exact nofun
  | _ => exact hs

theorem pollTick_streamInWindow (limit : Nat) {s : State} (hs : s.streamInWindow) :
    (s.pollTick limit).streamInWindow := by
  simpa [State.streamInWindow, State.geom] using hs

theorem busyFall_streamInWindow {s : State} (hs : s.streamInWindow) : s.busyFall.streamInWindow := by
  simpa [State.streamInWindow, State.geom] using hs

/-! ### A wait in progress -/

/-- A wait starts on a busy panel, so with WAITED = 0, and with no tick counted (spec/43_display_controller.md R227). -/
theorem CommandEffect.waitInProgress {i : Instr} {s t : State} (h : CommandEffect s i t) (hcmd : s.cmdBusy = false)
    (hexempt : s.imgActive = true → exemptOf i = true) (hidle : s.waitedMeansIdle) : t.waitInProgress := by
  cases h with
  | waitStarted hbusy =>
    have hwaited : s.waited = false := by
      by_contra hw
      exact Bool.noConfusion (hbusy.symm.trans (hidle (Bool.not_eq_false _ ▸ hw)))
    have hclosed : s.imgActive = false := by
      by_contra hopen
      exact Bool.noConfusion (hexempt (Bool.not_eq_false _ ▸ hopen))
    exact fun _ => ⟨hwaited, hclosed, Nat.succ_pos _⟩
  | pushed => simp [State.waitInProgress, hcmd]
  | _ => exact fun hbusy => Bool.noConfusion (hcmd.symm.trans hbusy)

/-- A tick ends the wait or leaves the count below the bound (spec/43_display_controller.md R228). -/
theorem pollTick_waitInProgress {s : State} (hs : s.waitInProgress) :
    (s.pollTick Config.waitTimeoutTicks).waitInProgress := by
  rcases pollTick_cases Config.waitTimeoutTicks s with h | ⟨_, h⟩ | h | ⟨hcmd, hlt, h⟩ <;> rw [h]
  · exact hs
  · exact nofun
  · exact nofun
  · obtain ⟨hwaited, hclosed, -⟩ := hs hcmd
    refine fun _ => ⟨hwaited, hclosed, Nat.lt_of_le_of_lt ?_ hlt⟩
    show (s.waitCnt + 1).toNat ≤ s.waitCnt.toNat + 1
    rw [BitVec.toNat_add]
    exact Nat.mod_le _ _

theorem busyFall_waitInProgress {s : State} (hs : s.waitInProgress) : s.busyFall.waitInProgress := by
  simpa [State.waitInProgress] using hs

/-! ### The controller -/

/-- DC_SLEEP passes its checks with WAITED = 1 only, so on an idle panel with nothing pending
(spec/43_display_controller.md R223, R233). -/
theorem CommandEffect.controllerConsistent {i : Instr} {s t : State} (h : CommandEffect s i t)
    (hs : s.controllerConsistent) (hidle : s.waitedMeansIdle) (hpending : s.pendingMeansBusy) :
    t.controllerConsistent := by
  obtain ⟨huninit, hinit, hactive, hsleep, hkind⟩ := hs
  cases h with
  | initialised => exact ⟨nofun, fun _ => ⟨rfl, rfl⟩, nofun, nofun, nofun⟩
  | refreshed =>
    refine ⟨nofun, nofun, fun _ => nofun, nofun, fun p hp => ?_⟩
    cases hp
    rfl
  | loaded r hd =>
    refine ⟨fun h => ?_, hinit, hactive, fun h => ?_, hkind⟩
    · rcases hd with hd | hd <;> cases hd.symm.trans h
    · rcases hd with hd | hd <;> cases hd.symm.trans h
  | slept hw =>
    have hpanel : s.panelBusy = false := hidle hw
    have hnone : s.pend = none := by
      by_contra hp
      exact Bool.noConfusion (hpanel.symm.trans (hpending (Option.isSome_iff_ne_none.2 hp)))
    exact ⟨nofun, nofun, nofun, fun _ => ⟨hnone, hpanel, rfl⟩, hkind⟩
  | pushed => simpa [State.controllerConsistent] using ⟨huninit, hinit, hactive, hsleep, hkind⟩
  | _ => exact ⟨huninit, hinit, hactive, hsleep, hkind⟩

theorem busyFall_controllerConsistent {s : State} (hs : s.controllerConsistent) : s.busyFall.controllerConsistent := by
  obtain ⟨huninit, hinit, hactive, hsleep, hkind⟩ := hs
  rcases busyFall_cases s with h | ⟨_, _, h⟩ | ⟨hnone, h⟩ <;> rw [h]
  case inl => exact ⟨huninit, hinit, hactive, hsleep, hkind⟩
  case inr.inl =>
    refine ⟨fun hd => ?uninit, fun hd => ?init, hactive, fun hd => ?sleep, nofun⟩
    case uninit =>
      obtain ⟨hbase, hlast, -, hpram⟩ := huninit hd
      exact ⟨hbase, hlast, rfl, hpram⟩
    case init =>
      obtain ⟨hbase, -⟩ := hinit hd
      exact ⟨hbase, rfl⟩
    case sleep =>
      obtain ⟨-, -, hpram⟩ := hsleep hd
      exact ⟨rfl, rfl, hpram⟩
  case inr.inr =>
    refine ⟨huninit, hinit, hactive, fun hd => ?_, hkind⟩
    obtain ⟨-, -, hpram⟩ := hsleep hd
    exact ⟨hnone, rfl, hpram⟩

/-! ### Sticky errors -/

/-- Every completion sets STICKY_ERR with the code it writes (spec/60_exceptions.md R271). -/
theorem complete_errorsSticky (code : StatusCode) (s : State) : (s.complete code).errorsSticky := by
  intro hcode
  simp_all

theorem CommandEffect.errorsSticky {i : Instr} {s t : State} (h : CommandEffect s i t) (hs : s.errorsSticky) :
    t.errorsSticky := by
  cases h with
  | waitStarted => exact hs
  | _ => exact complete_errorsSticky _ _

theorem pollTick_errorsSticky (limit : Nat) {s : State} (hs : s.errorsSticky) : (s.pollTick limit).errorsSticky := by
  rcases pollTick_cases limit s with h | ⟨_, h⟩ | h | ⟨_, _, h⟩ <;> rw [h]
  · exact hs
  · exact complete_errorsSticky _ _
  · exact complete_errorsSticky _ _
  · exact hs

/-! ### The whole invariant, operation by operation -/

theorem CommandEffect.inv {i : Instr} {s t : State} (h : CommandEffect s i t) (hcmd : s.cmdBusy = false)
    (hexempt : s.imgActive = true → exemptOf i = true) (hs : s.Inv) : t.Inv where
  memories := h.memoriesCanonical hs.memories hs.capacity
  capacity := h.capacityKept hs.capacity
  waited := h.waitedMeansIdle hs.waited
  pending := h.pendingMeansBusy hs.pending
  stream := h.streamInWindow hexempt hs.stream
  wait := h.waitInProgress hcmd hexempt hs.waited
  controller := h.controllerConsistent hs.controller hs.waited hs.pending
  errors := h.errorsSticky hs.errors

theorem pollTick_inv {s : State} (hs : s.Inv) : (s.pollTick Config.waitTimeoutTicks).Inv where
  memories := by simpa [State.memoriesCanonical] using hs.memories
  capacity := pollTick_capacityKept _ hs.capacity
  waited := pollTick_waitedMeansIdle _ hs.waited
  pending := by simpa [State.pendingMeansBusy] using hs.pending
  stream := pollTick_streamInWindow _ hs.stream
  wait := pollTick_waitInProgress hs.wait
  controller := by simpa [State.controllerConsistent] using hs.controller
  errors := pollTick_errorsSticky _ hs.errors

theorem busyFall_inv {s : State} (hs : s.Inv) : s.busyFall.Inv where
  memories := busyFall_memoriesCanonical hs.memories
  capacity := busyFall_capacityKept hs.capacity
  waited := busyFall_waitedMeansIdle hs.waited
  pending := busyFall_pendingMeansBusy hs.pending
  stream := busyFall_streamInWindow hs.stream
  wait := busyFall_waitInProgress hs.wait
  controller := busyFall_controllerConsistent hs.controller
  errors := by simpa [State.errorsSticky] using hs.errors

theorem cutPower_inv {s : State} (hs : s.Inv) : s.cutPower.Inv := by
  obtain ⟨hstore, hpram, hdisp, hpend⟩ := hs.memories
  rcases cutPower_cases s with h | h | h <;> rw [h]
  · exact hs
  · exact { hs with }
  · exact { hs with memories := ⟨hstore, hpram, wf_allUnknown, hpend⟩ }

theorem writeWindow_inv {s : State} {k : Nat} (hk : k < Config.backingBytes) (v : Byte) (hs : s.Inv) :
    (s.writeWindow k v).Inv := by
  obtain ⟨hstore, hrest⟩ := hs.memories
  exact { hs with memories := ⟨wf_byteWrite hstore hk v, hrest⟩ }

/-! ### Every step -/

/-- `u` is `s` but for the host's data and inputs, the stores a window write and a power cut reach, the bits an error or
a refusal sets, and the power. -/
def State.sameCore (s u : State) : Prop :=
  u = { s with
    program := u.program, turns := u.turns, busData := u.busData, draws := u.draws, args := u.args, store := u.store
    displayed := u.displayed, ovr := u.ovr, busErr := u.busErr, err := u.err, stickyErr := u.stickyErr
    powered := u.powered }

/-- A power cut keeps the core of the block. -/
theorem cutPower_sameCore (s : State) : s.sameCore s.cutPower := by
  rcases cutPower_cases s with h | h | h <;> rw [h] <;> rfl

/-- A property of the block's core that reset, each command's effect, the poll tick and the busy fall keep is kept by
every step. -/
theorem step_keeps_core {I : State → Prop}
    (core : ∀ s u, s.sameCore u → I s → I u)
    (effect : ∀ i s t, CommandEffect s i t → (s.imgActive = true → exemptOf i = true) → I s → I t)
    (tick : ∀ s, I s → I (s.pollTick Config.waitTimeoutTicks))
    (fall : ∀ s, I s → I s.busyFall)
    (reset : ∀ n, I (State.resetAt n))
    {s t : State} (hs : I s) (h : step s = .next t) : I t :=
  step_keeps (I := I)
    (inputs := fun s _ _ _ _ => core s _ rfl)
    (complete := fun s _ hs _ => core s _ rfl hs)
    (drop := fun s => core s _ rfl)
    (refuse := fun s => core s _ rfl)
    (setArg := fun s _ _ => core s _ rfl)
    (window := fun s _ _ _ => core s _ rfl)
    (body := fun i s hs _ hexempt => effect i s _ (bodyOf_effect i s) hexempt hs)
    (tick := tick)
    (fall := fall)
    (cut := fun s => core s _ (cutPower_sameCore s))
    (reset := fun s _ => core _ _ rfl (reset s.draws))
    hs h

/-! ### The statements -/

/-- Settles O54. -/
theorem invariantHoldsAtReset : Obligations.InvariantHoldsAtReset := reset_inv 0

/-- Settles O55: `step_keeps` at the whole invariant. -/
theorem everyStepKeepsTheInvariant : Obligations.EveryStepKeepsTheInvariant := fun _ _ hs h =>
  step_keeps (I := State.Inv)
    (inputs := fun _ _ _ _ _ hs => { hs with })
    (complete := fun s code hs _ => { hs with errors := complete_errorsSticky code s })
    (drop := fun _ hs => { hs with })
    (refuse := fun _ hs => { hs with })
    (setArg := fun _ _ _ hs => { hs with })
    (window := fun _ _ v hk hs => writeWindow_inv hk v hs)
    (body := fun i s hs hcmd hexempt => (bodyOf_effect i s).inv hcmd hexempt hs)
    (tick := fun _ => pollTick_inv)
    (fall := fun _ => busyFall_inv)
    (cut := fun _ => cutPower_inv)
    (reset := fun s _ => { reset_inv s.draws with })
    hs h

/-- Settles O51. -/
theorem waitedImpliesIdlePanel : Obligations.WaitedImpliesIdlePanel :=
  ⟨(reset_inv 0).waited, fun _ _ => step_keeps_core
    (core := fun _ _ hu hs => by rw [hu]; exact hs)
    (effect := fun _ _ _ h _ => h.waitedMeansIdle)
    (tick := fun _ => pollTick_waitedMeansIdle _)
    (fall := fun _ => busyFall_waitedMeansIdle)
    (reset := fun n => (reset_inv n).waited)⟩

/-- Settles O52. -/
theorem dimensionsStayWithinCapacity : Obligations.DimensionsStayWithinCapacity :=
  ⟨(reset_inv 0).capacity, fun _ _ => step_keeps_core
    (core := fun _ _ hu hs => by rw [hu]; exact hs)
    (effect := fun _ _ _ h _ => h.capacityKept)
    (tick := fun _ => pollTick_capacityKept _)
    (fall := fun _ => busyFall_capacityKept)
    (reset := fun n => (reset_inv n).capacity)⟩

/-- Settles O53; the bounds of R64 are read off the invariant. -/
theorem streamCursorStaysInItsWindow : Obligations.StreamCursorStaysInItsWindow := by
  refine ⟨(reset_inv 0).stream, fun _ _ hs h => ?step, fun s hs hopen => ?bounds⟩
  case step =>
    exact step_keeps_core
      (core := fun _ _ hu hs => by rw [hu]; exact hs)
      (effect := fun _ _ _ h hexempt => h.streamInWindow hexempt)
      (tick := fun _ => pollTick_streamInWindow _)
      (fall := fun _ => busyFall_streamInWindow)
      (reset := fun n => (reset_inv n).stream)
      hs h
  case bounds =>
    obtain ⟨hcol, hrow, -⟩ := hs hopen
    exact ⟨hrow, hcol, Nat.lt_of_le_of_lt (Nat.zero_le _) hcol, Nat.lt_of_le_of_lt (Nat.zero_le _) hrow⟩

end Sys2Proof.Machine
end

section
/-! Which fields a command may write (spec/10_state.md R65), read off its effect, and that no access, command or turn
clears a sticky bit (R32). -/

namespace Sys2Proof.Machine

/-! ### The fields a command writes -/

/-- Settles O12: a dropped write sets OVR only, and each effect names all the fields it writes. -/
theorem commandsWriteOnlyTheirOwnFields : Obligations.CommandsWriteOnlyTheirOwnFields := by
  intro i s t h
  rcases exec_cases h with rfl | heffect
  case inl => simp
  cases heffect with
  | rejected => simp
  | resized => simp
  | rotated => simp
  | drawn hstore => simp [hstore]
  | peeked => simp
  | opened hi => rcases hi with rfl | rfl <;> simp [isImageCommand]
  | pushed c hstore himg => simp [hstore, himg]
  | closed => simp [isImageCommand, isStreamCommand]
  | initialised o => simp [dcInitBody, isDisplayCommand]
  | waitStarted => simp [isDisplayCommand]
  | waitDone => simp [isDisplayCommand]
  | loaded => simp [isDisplayCommand, isFrameOp]
  | refreshed hi =>
    rcases hi with ⟨rfl, rfl, rfl⟩ | ⟨⟨p, rfl⟩, rfl⟩ | rfl | rfl <;> simp [isDisplayCommand, isFrameOp]
  | slept => simp [dcSleepBody, isDisplayCommand, isFrameOp]

/-! ### Sticky bits -/

/-- Every sticky bit that is 1 in `s` is 1 in `t`. -/
structure State.KeepsSticky (s t : State) : Prop where
  ovr : s.ovr = true → t.ovr = true
  busErr : s.busErr = true → t.busErr = true
  stickyErr : s.stickyErr = true → t.stickyErr = true

theorem keepsSticky_of_eq {s t : State} (hovr : t.ovr = s.ovr) (hbus : t.busErr = s.busErr)
    (herr : t.stickyErr = s.stickyErr) : s.KeepsSticky t :=
  ⟨fun h => hovr.trans h, fun h => hbus.trans h, fun h => herr.trans h⟩

theorem complete_keepsSticky (code : StatusCode) {s t : State} (h : s.KeepsSticky t) :
    s.KeepsSticky (t.complete code) :=
  ⟨h.ovr, h.busErr, fun hs => by simp [h.stickyErr hs]⟩

theorem dropCommand_keepsSticky (s : State) : s.KeepsSticky s.dropCommand := ⟨fun _ => rfl, id, id⟩

theorem CommandEffect.keepsSticky {i : Instr} {s t : State} (h : CommandEffect s i t) : s.KeepsSticky t := by
  cases h with
  | waitStarted => exact ⟨id, id, id⟩
  | pushed c => exact complete_keepsSticky _ (keepsSticky_of_eq (by simp) (by simp) (by simp))
  | _ => exact complete_keepsSticky _ ⟨id, id, id⟩

theorem exec_keepsSticky {i : Instr} {s t : State} (h : exec i s = .next t) : s.KeepsSticky t := by
  rcases exec_cases h with rfl | heffect
  · exact dropCommand_keepsSticky s
  · exact heffect.keepsSticky

theorem issueIllegal_keepsSticky (s : State) : s.KeepsSticky s.issueIllegal := by
  unfold State.issueIllegal
  split
  · exact dropCommand_keepsSticky s
  · exact complete_keepsSticky _ ⟨id, id, id⟩

theorem busRead_keepsSticky (off : Offset) (n : Nat) (s : State) : s.KeepsSticky (s.busRead off n) := by
  rcases busRead_cases off n s with ⟨r, h⟩ | ⟨k, _, h⟩ | h <;> rw [h]
  · exact ⟨id, id, id⟩
  · exact ⟨id, id, id⟩
  · exact ⟨id, fun _ => rfl, id⟩

theorem busWrite_keepsSticky {off : Offset} {n : Nat} {v : Word} {s t : State} (h : s.busWrite off n v = .next t) :
    s.KeepsSticky t := by
  rcases busWrite_cases off n v s with ⟨i, h'⟩ | h' | ⟨i, h'⟩ | ⟨k, b, _, h'⟩ | h' <;> rw [h'] at h
  · exact exec_keepsSticky h
  · cases h; exact issueIllegal_keepsSticky s
  · cases h; exact ⟨id, id, id⟩
  · cases h; exact ⟨id, id, id⟩
  · cases h; exact ⟨id, fun _ => rfl, id⟩

theorem hostTurn_keepsSticky {s t : State} (h : s.hostTurn = .next t) : s.KeepsSticky t := by
  unfold State.hostTurn at h
  split at h
  · cases h
    exact ⟨id, id, id⟩
  · rename_i a rest _
    split at h
    · have hrest : ∀ {u}, State.KeepsSticky { s with program := rest } u → s.KeepsSticky u :=
        fun hu => ⟨hu.ovr, hu.busErr, hu.stickyErr⟩
      cases a with
      | read off n => cases h; exact hrest (busRead_keepsSticky off n _)
      | write off n v => exact hrest (busWrite_keepsSticky h)
    · cases h
  · rename_i off mask value rest _
    split at h
    · obtain ⟨hovr, hbus, herr⟩ := busRead_keepsSticky off 4 s
      cases h
      split
      · exact ⟨hovr, hbus, herr⟩
      · exact ⟨hovr, hbus, herr⟩
    · cases h

theorem engineTurn_keepsSticky (s : State) : s.KeepsSticky s.engineTurn := by
  unfold State.engineTurn
  split
  · rcases pollTick_cases Config.waitTimeoutTicks s with h | ⟨_, h⟩ | h | ⟨_, _, h⟩ <;> rw [h]
    · exact ⟨id, id, id⟩
    · exact complete_keepsSticky _ ⟨id, id, id⟩
    · exact complete_keepsSticky _ ⟨id, id, id⟩
    · exact ⟨id, id, id⟩
  · exact ⟨id, id, id⟩

theorem panelTurn_keepsSticky (s : State) : s.KeepsSticky s.panelTurn := by
  unfold State.panelTurn
  split
  · exact keepsSticky_of_eq (by simp) (by simp) (by simp)
  · exact ⟨id, id, id⟩

/-- Settles O13: every turn but the return of power keeps the sticky bits. -/
theorem stickyBitsStayUntilReset : Obligations.StickyBitsStayUntilReset := by
  intro s t h hturn
  have hkeeps : s.popTurn.KeepsSticky t := by
    rw [step_of_nextTurn rfl] at h
    cases hnext : s.nextTurn with
    | host => rw [hnext] at h; exact hostTurn_keepsSticky h
    | engine => rw [hnext] at h; cases h; exact engineTurn_keepsSticky _
    | panel => rw [hnext] at h; cases h; exact panelTurn_keepsSticky _
    | powerCut => rw [hnext] at h; cases h; exact keepsSticky_of_eq (by simp) (by simp) (by simp)
    | powerOn => exact absurd hnext hturn
  exact ⟨hkeeps.ovr, hkeeps.busErr, hkeeps.stickyErr⟩

end Sys2Proof.Machine
end

section
/-! What the host reads and writes through the registers: the layout of STATUS (spec/10_state.md R32), the other
registers field by field (R39 to R50), and the accesses that reach them (spec/20_memory.md R71, R72, R76). -/

namespace Sys2Proof.Machine

/-! ### Fields of a word -/

/-- A field that holds a number it has room for reads as that number. -/
theorem bitField_of_extract {w : Word} {lo len n : Nat} (h : w.extractLsb' lo len = BitVec.ofNat len n)
    (hn : n < 2 ^ len) : bitField w lo len = n := by
  unfold bitField
  rw [h, BitVec.toNat_ofNat, Nat.mod_eq_of_lt hn]

theorem statusCode_lt (c : StatusCode) : c.code < 2 ^ 4 := by cases c <;> decide

theorem dcStateCode_lt (d : DcState) : d.code < 2 ^ 2 := by cases d <;> decide

theorem lastRefreshCode_lt (k : Option RefreshKind) : lastRefreshCode k < 2 ^ 2 := by
  rcases k with _ | _ | _ <;> decide

theorem rotationCode_lt (r : Rotation) : r.code < 2 ^ 2 := by cases r <;> decide

theorem colorBit_eq (c : Color) : c.toBit = decide (c = .white) := by cases c <;> rfl

theorem imgPathBit_eq (p : ImgPath) : p.toBit = decide (p = .generic) := by cases p <;> rfl

/-! ### STATUS -/

/-- The one-bit fields of STATUS (spec/10_state.md R32). -/
theorem statusWord_flags (s : State) :
    (statusWord s).getLsbD 0 = s.cmdBusy ∧ (statusWord s).getLsbD 1 = s.imgActive ∧ (statusWord s).getLsbD 2 = s.ovr
    ∧ (statusWord s).getLsbD 3 = s.busErr ∧ (statusWord s).getLsbD 4 = s.stickyErr
    ∧ (statusWord s).getLsbD 14 = s.orient.toBit ∧ (statusWord s).getLsbD 15 = s.base
    ∧ (statusWord s).getLsbD 16 = s.waited ∧ (statusWord s).getLsbD 17 = s.panelBusy := by
  simp only [statusWord, BitVec.getLsbD_append]
  simp

/-- The wider fields of STATUS, the reserved ones included (spec/10_state.md R32). -/
theorem statusWord_fields (s : State) :
    (statusWord s).extractLsb' 5 3 = BitVec.ofNat 3 0 ∧ (statusWord s).extractLsb' 8 4 = BitVec.ofNat 4 s.err.code
    ∧ (statusWord s).extractLsb' 12 2 = BitVec.ofNat 2 s.dcState.code
    ∧ (statusWord s).extractLsb' 18 2 = BitVec.ofNat 2 (lastRefreshCode s.lastRefresh)
    ∧ (statusWord s).extractLsb' 20 2 = BitVec.ofNat 2 s.rot.code
    ∧ (statusWord s).extractLsb' 22 10 = BitVec.ofNat 10 0 := by
  simp (disch := decide) only [statusWord, BitVec.extractLsb'_append_eq_of_le,
    BitVec.extractLsb'_append_eq_of_add_le, BitVec.extractLsb'_eq_self, Nat.reduceSub, and_self]

/-- Settles O59. -/
theorem statusWordHasItsLayout : Obligations.StatusWordHasItsLayout := by
  refine ⟨rfl, rfl, rfl, rfl, fun s => ?_⟩
  obtain ⟨hcmd, himg, hovr, hbus, hsticky, horient, hbase, hwaited, hpanel⟩ := statusWord_flags s
  obtain ⟨hlow, herr, hdc, hlast, hrot, hhigh⟩ := statusWord_fields s
  exact ⟨hcmd, himg, hovr, hbus, hsticky, bitField_of_extract hlow (by decide),
    bitField_of_extract herr (statusCode_lt _), bitField_of_extract hdc (dcStateCode_lt _), horient, hbase, hwaited,
    hpanel, bitField_of_extract hlast (lastRefreshCode_lt _), bitField_of_extract hrot (rotationCode_lt _),
    bitField_of_extract hhigh (by decide)⟩

/-! ### The other registers -/

/-- A word of two flags above 30 reserved bits that read 0: the layout of RESULT and IMG_CFG
(spec/10_state.md R39, R45). -/
theorem twoFlags_bits (hi lo : Bool) :
    ((0#30 ++ BitVec.ofBool hi ++ BitVec.ofBool lo : BitVec (30 + 1 + 1)) : Word).getLsbD 0 = lo
    ∧ ((0#30 ++ BitVec.ofBool hi ++ BitVec.ofBool lo : BitVec (30 + 1 + 1)) : Word).getLsbD 1 = hi
    ∧ ((0#30 ++ BitVec.ofBool hi ++ BitVec.ofBool lo : BitVec (30 + 1 + 1)) : Word).extractLsb' 2 30 = 0 := by
  cases hi <;> cases lo <;> decide

theorem resultWord_bits (s : State) :
    (resultWord s).getLsbD 0 = decide (s.resultColor = .white) ∧ (resultWord s).getLsbD 1 = s.resultValid
    ∧ (resultWord s).extractLsb' 2 30 = 0 := by
  rw [← colorBit_eq]
  exact twoFlags_bits _ _

theorem imgCfgWord_bits (s : State) :
    (imgCfgWord s).getLsbD 0 = decide (s.imgMode = .generic) ∧ (imgCfgWord s).getLsbD 1 = s.imgFlip
    ∧ (imgCfgWord s).extractLsb' 2 30 = 0 := by
  rw [← imgPathBit_eq]
  exact twoFlags_bits _ _

/-! ### Accesses -/

/-- A 32-bit read at a register's offset reads that register (spec/20_memory.md R72). -/
theorem busRead_register (r : Reg) (s : State) : s.busRead (BitVec.ofNat 14 r.offset) 4 = s.readRegister r := by
  unfold State.busRead
  rw [if_pos rfl, regAt_offset]

/-- A 32-bit write at an argument register's offset sets that register (spec/10_state.md R40). -/
theorem busWrite_arg (i : Fin Config.narg) (v : Word) (s : State) :
    s.busWrite (BitVec.ofNat 14 (0x010 + 4 * i.val)) 4 v = .next (s.setArg i v) := by
  have h : regAt (BitVec.ofNat 14 (0x010 + 4 * i.val)) = some (.arg i) := regAt_offset (.arg i)
  unfold State.busWrite
  rw [if_pos rfl, h]
  rfl

theorem arg_setArg_same (i : Fin Config.narg) (v : Word) (s : State) : (s.setArg i v).arg i = v := by
  simp [State.arg]

theorem arg_setArg_of_ne {i j : Fin Config.narg} (h : j ≠ i) (v : Word) (s : State) :
    (s.setArg i v).arg j = s.arg j := by
  have hval : i.val ≠ j.val := fun he => h (Fin.ext he.symm)
  simp [State.arg, hval]

/-- Settles O56. -/
theorem registerAccessesReadAndWrite : Obligations.RegisterAccessesReadAndWrite := by
  refine ⟨fun r off s hmap => ?reads, fun s => ?values, busWrite_cmd, fun i v s => ?args⟩
  case reads =>
    have hoff : off = BitVec.ofNat 14 r.offset := by
      refine (show ∀ entry ∈ _, entry.2 = BitVec.ofNat 14 entry.1.offset from ?_) (r, off) hmap
      decide
    rw [hoff]
    exact busRead_register r s
  case values =>
    obtain ⟨hcolor, hvalid, hresult⟩ := resultWord_bits s
    obtain ⟨hmode, hflip, hcfg⟩ := imgCfgWord_bits s
    exact ⟨rfl, rfl, fun _ => rfl, hcolor, hvalid, hresult, low_half _ _, high_half _ _, hmode, hflip, hcfg,
      low_half _ _, high_half _ _, low_half _ _, high_half _ _, low_half _ _, high_half _ _, low_half _ _,
      high_half _ _, rfl, rfl, rfl⟩
  case args =>
    exact ⟨s.setArg i v, busWrite_arg i v s, rfl, arg_setArg_same i v s, fun _ hj => arg_setArg_of_ne hj v s⟩

end Sys2Proof.Machine
end

section
/-! Which accesses the map refuses (spec/20_memory.md R74, R75), and how the framebuffer window is read and written
(R78, R79). -/

namespace Sys2Proof.Machine

/-! ### Offsets outside the map -/

/-- No register starts at an unaligned offset or above the last register (spec/20_memory.md R71). -/
theorem regAt_eq_none_of_unmapped {off : Offset} (h : ¬ (off.toNat % 4 = 0 ∧ off.toNat ≤ 0x050)) :
    regAt off = none :=
  regAt_eq_none fun r hr => h (hr ▸ offset_aligned r)

/-- No window byte lies outside 0x1000 to 0x2387 (spec/20_memory.md R73). -/
theorem windowByteAt_eq_none {off : Offset} (h : ¬ (0x1000 ≤ off.toNat ∧ off.toNat ≤ 0x2387)) :
    windowByteAt off = none :=
  if_neg (by unfold Config.fbWindowBase Config.backingBytes; omega)

/-! ### Refused accesses -/

/-- A read that neither a register nor a window byte answers is refused (spec/20_memory.md R74). -/
theorem busRead_refused {off : Offset} {n : Nat} (hreg : n = 4 → regAt off = none)
    (hwin : n = 1 → windowByteAt off = none) (s : State) : s.busRead off n = s.refuseRead := by
  unfold State.busRead
  split
  case isTrue h4 => rw [hreg h4]
  case isFalse =>
    split
    case isTrue h1 => rw [hwin h1]
    case isFalse => rfl

/-- A write that neither a register nor a window byte takes is refused (spec/20_memory.md R74). -/
theorem busWrite_refused {off : Offset} {n : Nat} (hreg : n = 4 → regAt off = none)
    (hwin : n = 1 → windowByteAt off = none) (v : Word) (s : State) : s.busWrite off n v = .next s.refuseWrite := by
  unfold State.busWrite
  split
  case isTrue h4 => rw [hreg h4]
  case isFalse =>
    split
    case isTrue h1 => rw [hwin h1]
    case isFalse => rfl

/-- Every register but CMD and the argument registers is read-only (spec/20_memory.md R75). -/
theorem writeRegister_readOnly {r : Reg} (hcmd : r ≠ .cmd) (harg : ∀ i, r ≠ .arg i) (v : Word) (s : State) :
    s.writeRegister r v = .next s.refuseWrite := by
  cases r with
  | cmd => exact absurd rfl hcmd
  | arg i => exact absurd rfl (harg i)
  | _ => rfl

/-- A 32-bit write at an offset that is neither CMD's nor an argument register's is refused, whether or not a register
stands there (spec/20_memory.md R74, R75). -/
theorem busWrite_readOnly {off : Offset} (hcmd : off.toNat ≠ 0x000)
    (harg : ¬ (0x010 ≤ off.toNat ∧ off.toNat ≤ 0x02C)) (v : Word) (s : State) :
    s.busWrite off 4 v = .next s.refuseWrite := by
  cases hreg : regAt off with
  | none => exact busWrite_refused (fun _ => hreg) (fun h => absurd h (by decide)) v s
  | some r =>
    have hoff : r.offset = off.toNat := offset_of_regAt hreg
    have hwrite : s.busWrite off 4 v = s.writeRegister r v := by
      unfold State.busWrite
      rw [if_pos rfl, hreg]
    rw [hwrite]
    refine writeRegister_readOnly (fun h => ?cmd) (fun i h => ?arg) v s
    case cmd => exact hcmd (by rw [← hoff, h]; rfl)
    case arg =>
      have hlt := argNumber_lt i
      have harg_offset : off.toNat = 0x010 + 4 * i.val := by rw [← hoff, h]; rfl
      exact harg (by omega)

/-- Settles O57: an access outside the map finds neither a register nor a window byte; at a read-only register's offset
a write finds one that takes no value. -/
theorem refusedAccessesSetBuserrOnly : Obligations.RefusedAccessesSetBuserrOnly := by
  refine ⟨fun off n s hnotReg hnotWin => ?unmapped, fun off v s _ _ hcmd harg => busWrite_readOnly hcmd harg v s⟩
  have hreg : n = 4 → regAt off = none := fun h4 => regAt_eq_none_of_unmapped fun h => hnotReg ⟨h4, h⟩
  have hwin : n = 1 → windowByteAt off = none := fun h1 => windowByteAt_eq_none fun h => hnotWin ⟨h1, h⟩
  exact ⟨busRead_refused hreg hwin s, fun v => busWrite_refused hreg hwin v s⟩

/-! ### The framebuffer window -/

/-- A one-byte read in the window is a window read (spec/20_memory.md R73). -/
theorem busRead_window {k : Nat} (hk : k < Config.backingBytes) (s : State) :
    s.busRead (BitVec.ofNat 14 (Config.fbWindowBase + k)) 1 = s.readWindow k := by
  unfold State.busRead
  rw [if_neg (by decide), if_pos rfl, windowByteAt_offset hk]

/-- A one-byte write in the window writes the low byte of its value (spec/20_memory.md R73; log entry 10). -/
theorem busWrite_window {k : Nat} (hk : k < Config.backingBytes) (v : Word) (s : State) :
    s.busWrite (BitVec.ofNat 14 (Config.fbWindowBase + k)) 1 v = .next (s.writeWindow k (BitVec.setWidth 8 v)) := by
  unfold State.busWrite
  rw [if_neg (by decide), if_pos rfl, windowByteAt_offset hk]

/-- A known bit of a window byte is read as its colour, MSB first (spec/20_memory.md R78). -/
theorem readWindow_bit {k b : Nat} {c : Color} {s : State} (hb : b < 8)
    (hc : s.store.bitRead (8 * k + (7 - b)) = some c) : (s.readWindow k).busData.getLsbD b = decide (c = .white) := by
  have hb32 : b < 32 := Nat.lt_trans hb (by decide)
  calc (s.readWindow k).busData.getLsbD b
    _ = (s.store.byteRead k s.draws).getLsbD b := by simp [hb32]
    _ = c.toBit := by rw [getLsbD_byteRead _ _ _ _ hb, hc]; rfl
    _ = decide (c = .white) := colorBit_eq c

/-- The bits above a window byte read 0 (log entry 9). -/
theorem readWindow_high {b : Nat} (hb : 8 ≤ b) (k : Nat) (s : State) : (s.readWindow k).busData.getLsbD b = false := by
  simp [BitVec.getLsbD_of_ge _ b hb]

/-- The store after a window write: the byte's eight bits are known colours, MSB first (spec/20_memory.md R79). -/
theorem writeWindow_bitRead (k i : Nat) (v : Word) (s : State) :
    (s.writeWindow k (BitVec.setWidth 8 v)).store.bitRead i =
      if i / 8 = k then some (if v.getLsbD (7 - i % 8) then .white else .black) else s.store.bitRead i := by
  have hbit : (BitVec.setWidth 8 v).getLsbD (bitOf i) = v.getLsbD (7 - i % 8) := by
    rw [BitVec.getLsbD_setWidth, decide_eq_true (bitOf_lt i)]
    rfl
  rw [writeWindow_store, bitRead_byteWrite, hbit]
  rfl

/-- Settles O58: both accesses reach the window byte `k`, whose bits are read and written MSB first. -/
theorem windowBytesAreMsbFirst : Obligations.WindowBytesAreMsbFirst := by
  intro k s hk
  refine ⟨?read, fun v => ?write⟩
  case read =>
    exact ⟨s.readWindow k, (busRead_window hk s).symm, rfl, fun _ _ hb hc => readWindow_bit hb hc,
      fun _ hb => readWindow_high hb k s⟩
  case write =>
    exact ⟨s.writeWindow k (BitVec.setWidth 8 v), busWrite_window hk v s, rfl, fun i => writeWindow_bitRead k i v s⟩

end Sys2Proof.Machine
end

section
/-! That a refresh under way shows the image of its trigger (spec/20_memory.md R90; spec/43_display_controller.md R225,
R231, R240): no command of another family touches the panel's busy signal or the pending image. -/

namespace Sys2Proof.Machine

/-! ### Runs of commands -/

/-- A run of commands that starts with `i` is `i` and then the rest. -/
theorem execAll_cons {i : Instr} {is : List Instr} {s u : State} (h : execAll (i :: is) s = .next u) :
    ∃ t, exec i s = .next t ∧ execAll is t = .next u := by
  refine ⟨s.issue (exemptOf i) (bodyOf i), exec_eq i s, ?_⟩
  simpa only [execAll, runAll, exec_eq] using h

/-- What each command of a run keeps, the run keeps. -/
theorem execAll_keeps {P : State → Prop} {is : List Instr}
    (hkeeps : ∀ i ∈ is, ∀ s t, exec i s = .next t → P s → P t) {s u : State} (h : execAll is s = .next u)
    (hs : P s) : P u := by
  induction is generalizing s with
  | nil => cases h; exact hs
  | cons i is ih =>
    obtain ⟨t, hi, hrest⟩ := execAll_cons h
    have ht : P t := hkeeps i List.mem_cons_self s t hi hs
    exact ih (fun j hj => hkeeps j (List.mem_cons_of_mem i hj)) hrest ht

/-! ### A refresh under way -/

/-- The panel is busy with the refresh `p` (spec/10_state.md R54, R55). -/
structure State.Refreshing (p : Pending) (s : State) : Prop where
  busy : s.panelBusy = true
  pending : s.pend = some p

/-- The busy fall shows the image of the refresh under way (spec/43_display_controller.md R240). -/
theorem busyFall_of_refreshing {p : Pending} {s : State} (h : s.Refreshing p) :
    s.busyFall = { s with panelBusy := false, displayed := p.image, pend := none } := by
  unfold State.busyFall
  simp [h.busy, h.pending]

/-- A command that is not of the display controller leaves the refresh under way (spec/10_state.md R65). -/
theorem exec_keeps_refreshing {p : Pending} {i : Instr} {s t : State} (hi : isDisplayCommand i = false)
    (h : exec i s = .next t) (hs : s.Refreshing p) : t.Refreshing p := by
  obtain ⟨-, -, -, -, -, -, -, -, -, -, -, -, -, -, -, -, -, -, -, -, hpanel⟩ :=
    commandsWriteOnlyTheirOwnFields i s t h
  obtain ⟨-, -, -, -, -, hpend, hbusy⟩ := hpanel hi
  exact ⟨hbusy.trans hs.busy, hpend.trans hs.pending⟩

/-- An accepted DC_DISPLAY_FRAME starts a FULL refresh of panel memory as it stands
(spec/43_display_controller.md R225, R231). -/
theorem refreshing_of_dcDisplayFrame {s t : State} (hready : s.frameReady) (h : exec .dcDisplayFrame s = .next t) :
    t.Refreshing ⟨s.pram, .full⟩ := by
  obtain ⟨⟨hcmd, himg⟩, hstate, hwaited⟩ := hready
  rw [exec_of_accepted hcmd (.inl himg)] at h
  cases h
  have hbody : bodyOf .dcDisplayFrame s = dcDisplayFrameBody s := frameOp_of_ready hstate hwaited
  rw [hbody]
  exact ⟨rfl, rfl⟩

/-- Settles O48: the trigger starts the refresh, every command of the run leaves it under way, and the busy fall shows
its image. -/
theorem refreshShowsTheImageOfItsTrigger : Obligations.RefreshShowsTheImageOfItsTrigger := by
  intro s t u is hready htrigger hother hrun
  have hu : u.Refreshing ⟨s.pram, .full⟩ :=
    execAll_keeps (fun i hi _ _ h => exec_keeps_refreshing (hother i hi) h) hrun
      (refreshing_of_dcDisplayFrame hready htrigger)
  rw [busyFall_of_refreshing hu]
  exact ⟨rfl, rfl, rfl⟩

end Sys2Proof.Machine
end

section
/-! The formats of the command word (spec/30_encoding.md R101 to R108): what a row of each format reads of a word. Every
row of the opcode map has one of them, so that a fact about all rows is proved once for each format. -/

namespace Sys2Proof

/-! ### Flags and the rotation -/

/-- Bit 0 of a word, put back as a one-bit field. -/
theorem bitWord_getLsbD_zero (w : Word) : bitWord (w.getLsbD 0) = w &&& 1#32 := by
  rw [BitVec.and_one_eq_setWidth_ofBool_getLsbD]
  cases w.getLsbD 0 <;> rfl

theorem Color.toBit_ofBit (b : Bool) : (Color.ofBit b).toBit = b := by cases b <;> rfl

theorem Orientation.toBit_ofBit (b : Bool) : (Orientation.ofBit b).toBit = b := by cases b <;> rfl

theorem PartRegion.toBit_ofBit (b : Bool) : (PartRegion.ofBit b).toBit = b := by cases b <;> rfl

theorem Color.ofBit_bitWord (c : Color) : Color.ofBit ((bitWord c.toBit).getLsbD 0) = c := by cases c <;> rfl

theorem Orientation.ofBit_bitWord (o : Orientation) : Orientation.ofBit ((bitWord o.toBit).getLsbD 0) = o := by
  cases o <;> rfl

theorem PartRegion.ofBit_bitWord (p : PartRegion) : PartRegion.ofBit ((bitWord p.toBit).getLsbD 0) = p := by
  cases p <;> rfl

theorem Rotation.ofField_code (r : Rotation) :
    Rotation.ofField ((BitVec.ofNat 32 r.code).getLsbD 1) ((BitVec.ofNat 32 r.code).getLsbD 0) = r := by
  cases r <;> rfl

/-- The rotation read of a word has the ROT field as its code (spec/30_encoding.md R104). -/
theorem Rotation.code_ofField (w : Word) :
    (Rotation.ofField (w.getLsbD 1) (w.getLsbD 0)).code = bitField w 0 2 := by
  have hfield : ∀ f : BitVec 2, (Rotation.ofField (f.getLsbD 1) (f.getLsbD 0)).code = f.toNat := by decide
  simpa [bitField] using hfield (w.extractLsb' 0 2)

/-! ### Wider fields -/

theorem bitField_lt (w : Word) (lo len : Nat) : bitField w lo len < 2 ^ len := (w.extractLsb' lo len).isLt

/-- A mask that covers a field changes nothing of what is read there. -/
theorem bitField_and_of_covered {m : Word} {lo len : Nat} (h : m.extractLsb' lo len = BitVec.allOnes len) (w : Word) :
    bitField (w &&& m) lo len = bitField w lo len := by
  rw [bitField, BitVec.extractLsb'_and, h, BitVec.and_allOnes, bitField]

/-- A field's number put back at the field's place is the word without its other bits. -/
theorem ofNat_bitField_shiftLeft {m : Word} {lo len : Nat}
    (h : (BitVec.allOnes len).setWidth 32 <<< lo = m) (w : Word) :
    BitVec.ofNat 32 (bitField w lo len) <<< lo = w &&& m := by
  rw [bitField, BitVec.ofNat_toNat, ← h]
  ext i hi
  by_cases hlo : i < lo
  · simp [hlo]
  · simp [hlo, Nat.add_sub_cancel' (Nat.le_of_not_lt hlo), hi, Bool.and_comm]

theorem ofNat_bitField {m : Word} {len : Nat} (h : (BitVec.allOnes len).setWidth 32 = m) (w : Word) :
    BitVec.ofNat 32 (bitField w 0 len) = w &&& m := by
  simpa using ofNat_bitField_shiftLeft (lo := 0) (by simpa using h) w

/-! ### Formats -/

/-- The formats of the command word (spec/30_encoding.md R102 to R108): the mask of a row, which covers OPC and the
format's reserved bits, with what the row builds of a word. Formats C, O and P have one form: a flag in bit 0. -/
inductive Format : Word → (Word → Instr) → Prop where
  | none (i : Instr) (hfields : i.fields = 0) (hwf : i.wellFormed = true) : Format 0xFFFFFFFF (fun _ => i)
  | flag (f : Bool → Instr) (hfields : ∀ b, (f b).fields = bitWord b) (hwf : ∀ b, (f b).wellFormed = true) :
      Format 0xFFFFFFFE (fun w => f (w.getLsbD 0))
  | rotation : Format 0xFFFFFFFC (fun w => .fbRotate (Rotation.ofField (w.getLsbD 1) (w.getLsbD 0)))
  | rgb : Format 0xFF000000 (fun w => .imgPixelRgb (bitField w 16 8) (bitField w 8 8) (bitField w 0 8))
  | value : Format 0xFFFF0000 (fun w => .imgPixel565 (bitField w 0 16))

/-- Format C (spec/30_encoding.md R103). -/
theorem Format.color (f : Color → Instr) (hfields : ∀ c, (f c).fields = bitWord c.toBit)
    (hwf : ∀ c, (f c).wellFormed = true) : Format 0xFFFFFFFE (fun w => f (Color.ofBit (w.getLsbD 0))) :=
  .flag (fun b => f (Color.ofBit b)) (fun b => by rw [hfields, Color.toBit_ofBit]) (fun _ => hwf _)

/-- Format O (spec/30_encoding.md R105). -/
theorem Format.orientation : Format 0xFFFFFFFE (fun w => .dcInit (Orientation.ofBit (w.getLsbD 0))) :=
  .flag (fun b => .dcInit (Orientation.ofBit b)) (fun b => congrArg bitWord (Orientation.toBit_ofBit b)) (fun _ => rfl)

/-- Format P (spec/30_encoding.md R106). -/
theorem Format.region : Format 0xFFFFFFFE (fun w => .dcDisplayPart (PartRegion.ofBit (w.getLsbD 0))) :=
  .flag (fun b => .dcDisplayPart (PartRegion.ofBit b)) (fun b => congrArg bitWord (PartRegion.toBit_ofBit b))
    (fun _ => rfl)

theorem format_of_framebufferRows : ∀ r ∈ framebufferRows, Format r.mask r.build := by
  simp only [framebufferRows, List.forall_mem_cons]
  exact ⟨.none .fbReset rfl rfl, .color .fbClear (fun _ => rfl) (fun _ => rfl),
    .color .fbSetPixel (fun _ => rfl) (fun _ => rfl), .none .fbGetPixel rfl rfl, .rotation,
    .color .fbDrawLine (fun _ => rfl) (fun _ => rfl), .color .fbDrawRect (fun _ => rfl) (fun _ => rfl),
    .color .fbFillRect (fun _ => rfl) (fun _ => rfl), List.forall_mem_nil _⟩

theorem format_of_thresholderRows : ∀ r ∈ thresholderRows, Format r.mask r.build := by
  simp only [thresholderRows, List.forall_mem_cons]
  exact ⟨.none .imgBeginBmp rfl rfl, .none .imgBeginGen rfl rfl, .rgb, .value, .none .imgAbort rfl rfl,
    List.forall_mem_nil _⟩

theorem format_of_displayRows : ∀ r ∈ displayRows, Format r.mask r.build := by
  simp only [displayRows, List.forall_mem_cons]
  exact ⟨.orientation, .none .dcWaitIdle rfl rfl, .none .dcWriteBase rfl rfl, .none .dcSetFrameMemory rfl rfl,
    .none .dcDisplayFrame rfl rfl, .region, .none .dcSleep rfl rfl, .none .dcClear rfl rfl, List.forall_mem_nil _⟩

/-- Every row of the opcode map has one of the formats. -/
theorem format_of_mem {r : OpRow} (hr : r ∈ opcodeMap) : Format r.mask r.build :=
  List.forall_mem_append.2 ⟨List.forall_mem_append.2 ⟨format_of_framebufferRows, format_of_thresholderRows⟩,
    format_of_displayRows⟩ r hr

/-- The command a format builds of a word is one the format's fields can spell. -/
theorem Format.wellFormed_build {m : Word} {build : Word → Instr} (h : Format m build) (w : Word) :
    (build w).wellFormed = true := by
  cases h with
  | none i _ hwf => exact hwf
  | flag f _ hwf => exact hwf _
  | rotation => rfl
  | rgb =>
    simp only [Instr.wellFormed, Bool.and_eq_true, decide_eq_true_eq]
    exact ⟨⟨bitField_lt w 16 8, bitField_lt w 8 8⟩, bitField_lt w 0 8⟩
  | value => exact decide_eq_true (bitField_lt w 0 16)

/-- The fields of the command built are the word's bits outside the mask: none is dropped. -/
theorem Format.fields_build {m : Word} {build : Word → Instr} (h : Format m build) (w : Word) :
    (build w).fields = w &&& ~~~m := by
  cases h with
  | none i hfields _ => exact hfields.trans BitVec.and_zero.symm
  | flag f hfields _ => exact (hfields _).trans (bitWord_getLsbD_zero w)
  | rotation => exact (congrArg (BitVec.ofNat 32) (Rotation.code_ofField w)).trans (ofNat_bitField (by decide) w)
  | rgb =>
    have hr := ofNat_bitField_shiftLeft (m := 0x00FF0000) (lo := 16) (len := 8) (by decide) w
    have hg := ofNat_bitField_shiftLeft (m := 0x0000FF00) (lo := 8) (len := 8) (by decide) w
    have hb := ofNat_bitField (m := 0x000000FF) (len := 8) (by decide) w
    rw [Instr.fields, hr, hg, hb, ← BitVec.and_or_distrib_left, ← BitVec.and_or_distrib_left]
    rfl
  | value => exact ofNat_bitField (by decide) w

/-- A format reads nothing of a word under its mask. -/
theorem Format.build_and {m : Word} {build : Word → Instr} (h : Format m build) (w : Word) :
    build (w &&& ~~~m) = build w := by
  cases h with
  | none i _ _ => rfl
  | flag f _ _ => simp
  | rotation => simp
  | rgb => simp (disch := decide) only [bitField_and_of_covered]
  | value => simp (disch := decide) only [bitField_and_of_covered]

end Sys2Proof
end

section
/-! The rows of the opcode map against the encoder (spec/30_encoding.md R111, R117): a row's pattern and its command's
immediates make up the command's word, and every well-formed command has a row that builds it. -/

namespace Sys2Proof

/-! ### Rows -/

theorem hits_iff_and_mask {r : OpRow} {w : Word} : r.hits w = true ↔ w &&& r.mask = r.pat := beq_iff_eq

/-- A row's pattern lies under its mask (spec/30_encoding.md R111). -/
theorem pat_and_mask {r : OpRow} (hr : r ∈ opcodeMap) : r.pat &&& r.mask = r.pat := by
  have h : ∀ r ∈ opcodeMap, r.pat &&& r.mask = r.pat := by decide
  exact h r hr

/-- The word of a command that a row builds is the row's pattern with the immediates of the word it was built of
(spec/30_encoding.md R117). -/
theorem encode_build {r : OpRow} (hr : r ∈ opcodeMap) (w : Word) :
    encode (r.build w) = r.pat ||| (w &&& ~~~r.mask) := by
  obtain ⟨-, -, hpat⟩ := row_shape hr
  rw [encode, opcode_build hr, ← hpat, (format_of_mem hr).fields_build]

/-- The command of a word that matches the row encodes to that word. -/
theorem encode_build_of_hits {r : OpRow} (hr : r ∈ opcodeMap) {w : Word} (h : r.hits w = true) :
    encode (r.build w) = w := by
  have hw : w &&& r.mask = r.pat := hits_iff_and_mask.1 h
  rw [encode_build hr, ← hw, ← BitVec.and_or_distrib_left, BitVec.or_not_self, BitVec.and_allOnes]

/-- The word of a row's command matches the row. -/
theorem hits_encode_build {r : OpRow} (hr : r ∈ opcodeMap) (w : Word) : r.hits (encode (r.build w)) = true := by
  have hw : encode (r.build w) &&& r.mask = r.pat := by
    rw [encode_build hr, BitVec.and_or_distrib_right, pat_and_mask hr, BitVec.and_assoc]
    simp
  exact hits_iff_and_mask.2 hw

/-- A row reads the same command of the word that command encodes to. -/
theorem build_encode_build {r : OpRow} (hr : r ∈ opcodeMap) (w : Word) : r.build (encode (r.build w)) = r.build w := by
  have hw : encode (r.build w) &&& ~~~r.mask = w &&& ~~~r.mask := by
    rw [encode_build hr, BitVec.and_or_distrib_right, ← pat_and_mask hr, BitVec.and_assoc, BitVec.and_assoc]
    simp
  rw [← (format_of_mem hr).build_and (encode _), hw, (format_of_mem hr).build_and w]

/-- What a row builds is what its word decodes to. -/
theorem decode_encode_build {r : OpRow} (hr : r ∈ opcodeMap) (w : Word) :
    decode (encode (r.build w)) = .ok (r.build w) :=
  decode_ok_iff.2 ⟨r, hr, hits_encode_build hr w, build_encode_build hr w⟩

/-! ### The row of a command -/

/-- A row of the map builds the command of some word. -/
def Instr.Buildable (i : Instr) : Prop := ∃ r ∈ opcodeMap, ∃ w, r.build w = i

/-- The row found at a command's opcode is the one to build it. -/
theorem Instr.buildable_of_find {i : Instr} {w : Word}
    (h : (opcodeMap.find? (fun r => r.opc == i.opcode)).map (fun r => r.build w) = some i) : i.Buildable := by
  obtain ⟨r, hfind, hbuild⟩ := Option.map_eq_some_iff.1 h
  exact ⟨r, List.mem_of_find?_eq_some hfind, w, hbuild⟩

/-- The word of three channels at their places in format RGB (spec/30_encoding.md R107). -/
def channelWord (r g b : Nat) : Word :=
  (0#8 ++ BitVec.ofNat 8 r ++ BitVec.ofNat 8 g ++ BitVec.ofNat 8 b : BitVec (8 + 8 + 8 + 8))

theorem extractLsb'_channelWord (r g b : Nat) :
    (channelWord r g b).extractLsb' 16 8 = BitVec.ofNat 8 r ∧ (channelWord r g b).extractLsb' 8 8 = BitVec.ofNat 8 g
    ∧ (channelWord r g b).extractLsb' 0 8 = BitVec.ofNat 8 b := by
  simp (disch := decide) only [channelWord, BitVec.extractLsb'_append_eq_of_le,
    BitVec.extractLsb'_append_eq_of_add_le, BitVec.extractLsb'_eq_self, Nat.reduceSub, and_self]

/-- Channels of 8 bits are read back from the word that holds them (spec/30_encoding.md R107). -/
theorem buildable_imgPixelRgb {r g b : Nat} (hr : r < 256) (hg : g < 256) (hb : b < 256) :
    (Instr.imgPixelRgb r g b).Buildable := by
  obtain ⟨er, eg, eb⟩ := extractLsb'_channelWord r g b
  have hbuild : Instr.imgPixelRgb (bitField (channelWord r g b) 16 8) (bitField (channelWord r g b) 8 8)
      (bitField (channelWord r g b) 0 8) = .imgPixelRgb r g b := by
    rw [Machine.bitField_of_extract er hr, Machine.bitField_of_extract eg hg, Machine.bitField_of_extract eb hb]
  exact Instr.buildable_of_find (congrArg some hbuild)

/-- A value of 16 bits is read back from the word that holds it (spec/30_encoding.md R108). -/
theorem buildable_imgPixel565 {v : Nat} (hv : v < 65536) : (Instr.imgPixel565 v).Buildable := by
  have hfield : bitField (BitVec.ofNat 32 v) 0 16 = v := by
    rw [bitField, BitVec.extractLsb'_toNat, BitVec.toNat_ofNat, Nat.shiftRight_zero]
    omega
  exact Instr.buildable_of_find (congrArg (some ∘ Instr.imgPixel565) hfield)

/-- Every well-formed command is built by its row of the map. -/
theorem buildable_of_wellFormed {i : Instr} (h : i.wellFormed = true) : i.Buildable := by
  cases i with
  | fbClear c => exact Instr.buildable_of_find (congrArg (some ∘ Instr.fbClear) c.ofBit_bitWord)
  | fbSetPixel c => exact Instr.buildable_of_find (congrArg (some ∘ Instr.fbSetPixel) c.ofBit_bitWord)
  | fbRotate r => exact Instr.buildable_of_find (congrArg (some ∘ Instr.fbRotate) r.ofField_code)
  | fbDrawLine c => exact Instr.buildable_of_find (congrArg (some ∘ Instr.fbDrawLine) c.ofBit_bitWord)
  | fbDrawRect c => exact Instr.buildable_of_find (congrArg (some ∘ Instr.fbDrawRect) c.ofBit_bitWord)
  | fbFillRect c => exact Instr.buildable_of_find (congrArg (some ∘ Instr.fbFillRect) c.ofBit_bitWord)
  | dcInit o => exact Instr.buildable_of_find (congrArg (some ∘ Instr.dcInit) o.ofBit_bitWord)
  | dcDisplayPart p => exact Instr.buildable_of_find (congrArg (some ∘ Instr.dcDisplayPart) p.ofBit_bitWord)
  | imgPixelRgb r g b =>
    simp only [Instr.wellFormed, Bool.and_eq_true, decide_eq_true_eq] at h
    obtain ⟨⟨hr, hg⟩, hb⟩ := h
    exact buildable_imgPixelRgb hr hg hb
  | imgPixel565 v => exact buildable_imgPixel565 (of_decide_eq_true h)
  -- The commands of format N: their rows build them of any word.
  | _ => exact Instr.buildable_of_find (w := 0) rfl

end Sys2Proof
end

section
/-! The encoder, the decoder and the opcode map agree (spec/30_encoding.md R111, R112, R117). -/

namespace Sys2Proof.Machine

/-- Settles O1: a well-formed command is what a row of the map builds of some word, and what a row builds is what its
word decodes to. -/
theorem decodeOfEncodeIsTheInstruction : Obligations.DecodeOfEncodeIsTheInstruction := by
  intro i hwf
  obtain ⟨r, hr, w, rfl⟩ := buildable_of_wellFormed hwf
  exact decode_encode_build hr w

/-- Settles O2: the word decodes through a row it matches, and that row drops no bit of it. -/
theorem encodeOfDecodeIsTheWord : Obligations.EncodeOfDecodeIsTheWord := by
  intro w i hdec
  obtain ⟨r, hr, hhits, rfl⟩ := decode_ok_iff.1 hdec
  exact ⟨encode_build_of_hits hr hhits, (format_of_mem hr).wellFormed_build w⟩

/-- Settles O3: the row a word decodes through is the one with the command's opcode. -/
theorem rowMatchIsTheNamedCommand : Obligations.RowMatchIsTheNamedCommand := by
  refine ⟨rfl, fun w r hr => ⟨fun hmatch => ?decodes, fun ⟨hdec, _⟩ => ?isMatch⟩⟩
  case decodes => exact ⟨decode_ok_iff.2 ⟨r, hr, hits_iff_and_mask.2 hmatch, rfl⟩, opcode_build hr w⟩
  case isMatch =>
    obtain ⟨q, hq, hhits, hbuild⟩ := decode_ok_iff.1 hdec
    have hopc : q.opc = r.opc := by rw [← opcode_build hq w, hbuild, opcode_build hr w]
    obtain rfl := row_eq_of_opc_eq hq hr hopc
    exact hits_iff_and_mask.1 hhits

/-- A word that no row matches has no row's opcode, or a reserved bit of its opcode's row is 1
(spec/30_encoding.md R112). -/
theorem no_row_hits_iff (w : Word) :
    (∀ r ∈ opcodeMap, r.hits w = false) ↔ ((∀ r ∈ opcodeMap, r.opc ≠ opcodeOf w)
      ∨ ∃ r ∈ opcodeMap, r.opc = opcodeOf w ∧ w &&& r.mask &&& 0x00FFFFFF#32 ≠ 0) := by
  constructor
  · intro hnone
    by_cases hopc : ∃ r ∈ opcodeMap, r.opc = opcodeOf w
    · obtain ⟨r, hr, hopc⟩ := hopc
      have hmiss : ¬ r.hits w = true := by simp [hnone r hr]
      exact .inr ⟨r, hr, hopc, fun hzero => hmiss ((hits_iff hr w).2 ⟨hopc.symm, hzero⟩)⟩
    · exact .inl fun r hr h => hopc ⟨r, hr, h⟩
  · intro hill q hq
    refine Bool.eq_false_iff.2 fun hhits => ?_
    obtain ⟨hopc, hzero⟩ := (hits_iff hq w).1 hhits
    rcases hill with hunassigned | ⟨r, hr, hropc, hreserved⟩
    · exact hunassigned q hq hopc.symm
    · obtain rfl := row_eq_of_opc_eq hr hq (hropc.trans hopc)
      exact hreserved hzero

/-- An illegal word issued with no command in progress fails with ILLEGAL (spec/60_exceptions.md R274). -/
theorem issueWord_of_illegal {w : Word} {e : IllegalWord} {s : State} (hdec : decode w = .error e)
    (hcmd : s.cmdBusy = false) : issueWord w s = .next (s.failed .illegal) := by
  unfold issueWord State.issueIllegal
  rw [hdec, hcmd, ← complete_error (by decide)]
  rfl

/-- Settles O4. -/
theorem illegalWordsAreTheUnmatchedOnes : Obligations.IllegalWordsAreTheUnmatchedOnes :=
  ⟨fun w => decode_error_iff.trans (no_row_hits_iff w), fun _ _ _ => issueWord_of_illegal, _, rfl⟩

/-- Settles O5: each word is the encoding of the command it names, which it decodes to by O1. -/
theorem writtenOutWordsDecode : Obligations.WrittenOutWordsDecode :=
  have h := decodeOfEncodeIsTheInstruction
  ⟨h (.fbClear .white) rfl, h (.fbRotate .rot270) rfl, h (.imgPixelRgb 1 2 3) rfl, h (.imgPixel565 0xF800) rfl,
    h (.dcInit .portrait) rfl, h (.dcDisplayPart .region) rfl⟩

end Sys2Proof.Machine
end

section
/-! The framebuffer commands (spec/40_framebuffer.md R136 to R140): the whole effect of each on a block that accepts it,
by way of what FB_CLEAR's bytes, a Plot and a Peek do to the bits. -/

namespace Sys2Proof.Machine

/-! ### Operands and results -/

/-- A block with no command in progress and no stream open runs any command's body (spec/60_exceptions.md R274). -/
theorem exec_of_ready {s : State} (h : s.ready) (i : Instr) : exec i s = .next (bodyOf i s) :=
  exec_of_accepted h.1 (.inl h.2)

/-- A dimension held in 16 bits is the low half of its argument register (spec/30_encoding.md R110). -/
theorem ofNat_dim (s : State) (i : Fin Config.narg) :
    BitVec.ofNat 16 (s.dim i) = (s.arg i).extractLsb' 0 16 := by
  unfold State.dim u16
  rw [BitVec.ofNat_toNat, BitVec.setWidth_eq]

/-- FB_RESET's two outcomes (spec/40_framebuffer.md R136). -/
theorem fbResetBody_eq (s : State) :
    fbResetBody s = if s.dim 0 * s.dim 1 > Config.capBits then s.failed .capacity
      else { s with fbW := (s.arg 0).extractLsb' 0 16, fbH := (s.arg 1).extractLsb' 0 16, err := .ok } := by
  unfold fbResetBody
  rw [complete_error (by decide), complete_ok, ofNat_dim, ofNat_dim]

/-- The bytes of the framebuffer hold its first 8*NB bits (spec/40_framebuffer.md R131). -/
theorem byteOf_lt_bytes_iff (g : Geometry) (i : Nat) : byteOf i < g.bytes ↔ i < 8 * ((g.w * g.h + 7) / 8) := by
  unfold byteOf Geometry.bytes
  omega

/-- A Peek out of bounds sees no pixel (spec/40_framebuffer.md R134). -/
theorem peek_of_not_inBounds (m : Memory) {g : Geometry} {x y : Int} (h : g.inBounds x y = false) (n : Nat) :
    m.peek g x y n = none := by
  unfold Memory.peek
  rw [bitAt_eq_none.2 h, Option.map_none]

/-- A Peek sees a pixel exactly in bounds (spec/40_framebuffer.md R134). -/
theorem isSome_peek (m : Memory) (g : Geometry) (x y : Int) (n : Nat) :
    (m.peek g x y n).isSome = g.inBounds x y := by
  unfold Memory.peek Geometry.bitAt
  cases g.inBounds x y <;> rfl

/-- A Peek of a known pixel sees its colour (spec/40_framebuffer.md R134). -/
theorem peek_of_known {m : Memory} {g : Geometry} {x y : Int} {i : Nat} {c : Color} (hi : g.bitAt x y = some i)
    (hc : m.bitRead i = some c) (n : Nat) : m.peek g x y n = some c := by
  unfold Memory.peek
  rw [hi, Option.map_some, hc]
  rfl

/-- RESULT's two flags, as the number they make (spec/10_state.md R39). -/
theorem resultFlags_eq (p : Option Color) :
    ((0#30 ++ BitVec.ofBool p.isSome ++ BitVec.ofBool (p.getD .black).toBit : BitVec (30 + 1 + 1)) : Word) =
      p.elim 0 (fun c => if c = .white then 3 else 2) := by
  cases p with
  | none => decide
  | some c => cases c <;> decide

/-- RESULT after FB_GET_PIXEL, by what the Peek at its point sees (spec/40_framebuffer.md R139). -/
theorem resultWord_fbGetPixelBody (s : State) :
    resultWord (fbGetPixelBody s) =
      (s.store.peek s.geom (s.coord 0) (s.coord 1) s.draws).elim 0 (fun c => if c = .white then 3 else 2) :=
  resultFlags_eq _

/-! ### The statements -/

/-- Settles O14. -/
theorem fbResetSetsDimensionsOrRejects : Obligations.FbResetSetsDimensionsOrRejects :=
  ⟨rfl, fun s hready => (exec_of_ready hready .fbReset).trans (congrArg _ (fbResetBody_eq s))⟩

/-- Settles O15: the fill reaches the bits of the first NB bytes. -/
theorem fbClearWritesTheFramebufferBytes : Obligations.FbClearWritesTheFramebufferBytes := by
  refine ⟨rfl, rfl, fun c s hready => ⟨_, exec_of_ready hready (.fbClear c), complete_ok _, fun i => ?_⟩⟩
  calc (s.store.fillBytes s.geom.bytes c).bitRead i
    _ = if byteOf i < s.geom.bytes then some c else s.store.bitRead i := bitRead_fillBytes _ _ _ _
    _ = _ := if_congr (byteOf_lt_bytes_iff s.geom i) rfl rfl

/-- Settles O16. -/
theorem fbSetPixelWritesOneBit : Obligations.FbSetPixelWritesOneBit := by
  refine ⟨rfl, rfl, fun _ _ => rfl, fun c s hready => ⟨_, exec_of_ready hready (.fbSetPixel c), complete_ok _,
    fun i => ?bit, fun hout => ?clipped, fun hrot => ?rectangle⟩⟩
  case bit => exact bitRead_plot s.store s.geom c _ _ i
  case clipped => exact plot_of_not_inBounds s.store c hout
  case rectangle =>
    rw [inBounds_iff, and_assoc]
    simp only [Geometry.logicalW, Geometry.logicalH, State.geom, hrot]

/-- Settles O17: RESULT is read off what the Peek sees. -/
theorem fbGetPixelReportsTheBit : Obligations.FbGetPixelReportsTheBit := by
  refine ⟨rfl, fun s hready => ?_⟩
  have hsome := isSome_peek s.store s.geom (s.coord 0) (s.coord 1) s.draws
  have hresult : readReg .result (fbGetPixelBody s) = _ := resultWord_fbGetPixelBody s
  refine ⟨fbGetPixelBody s, exec_of_ready hready .fbGetPixel, ?frame, fun hout => ?outside, fun hin => ?inside,
    fun i c hi hc => ?known⟩
  case frame =>
    rw [← hsome]
    exact complete_ok _
  case outside => rw [hresult, peek_of_not_inBounds _ hout, Option.elim_none]
  case inside =>
    obtain ⟨c, hc⟩ := Option.isSome_iff_exists.1 (hsome.trans hin)
    rw [hresult, hc, Option.elim_some]
    cases c
    case black => exact .inl rfl
    case white => exact .inr rfl
  case known => rw [hresult, peek_of_known hi hc, Option.elim_some]

/-- Settles O18. -/
theorem fbRotateChangesOnlyTheRotation : Obligations.FbRotateChangesOnlyTheRotation := by
  refine ⟨rfl, rfl, rfl, rfl, fun r s hready => ⟨?state, ?logical⟩⟩
  case state => exact (exec_of_ready hready (.fbRotate r)).trans (congrArg _ (complete_ok _))
  case logical => cases r <;> exact ⟨rfl, rfl⟩

end Sys2Proof.Machine
end

section
/-! The framebuffer's geometry (spec/40_framebuffer.md R130, R132): where a physical pixel's bit is read in the window,
that a reshaped framebuffer reads the same bits (R141), and that what a command draws stays inside it (R143). -/

namespace Sys2Proof.Machine

/-! ### Rotation and the pixel index -/

/-- A bit of the backing store is read in the window at bit `bitOf i` of byte `byteOf i`
(spec/20_memory.md R73, R78). -/
theorem busRead_bit {s : State} {i : Nat} {c : Color} (hi : i < Config.capBits) (hc : s.store.bitRead i = some c) :
    (s.busRead (BitVec.ofNat 14 (Config.fbWindowBase + byteOf i)) 1).busData.getLsbD (bitOf i)
      = decide (c = .white) := by
  rw [busRead_window (byteOf_lt hi)]
  refine readWindow_bit (bitOf_lt i) ?_
  have hbit : 8 * byteOf i + (7 - bitOf i) = i := by
    unfold byteOf bitOf
    omega
  rw [hbit, hc]

/-- Settles O19. -/
theorem rotationMapsOntoThePhysicalPixels : Obligations.RotationMapsOntoThePhysicalPixels := by
  refine ⟨fun _ _ _ _ => ⟨rfl, rfl, rfl, rfl⟩, fun _ _ => ⟨rfl, rfl, rfl, rfl, rfl, rfl, rfl, rfl⟩,
    fun g => ⟨fun x y => ?bounds, fun x y hin => ?range, fun x y x' y' _ _ => phys_inj, fun px py h => ?onto⟩,
    fun _ _ _ => rfl, fun s => ⟨rfl, fun px py hcap hx hy => ?pixel⟩⟩
  case bounds => rw [inBounds_iff, and_assoc]
  case range =>
    obtain ⟨hx, hx', hy⟩ := phys_range hin
    exact ⟨⟨hx, hx'⟩, hy⟩
  case onto =>
    obtain ⟨⟨hx, hx'⟩, hy, hy'⟩ := h
    exact phys_surj g hx hx' hy hy'
  case pixel =>
    have hlt : s.geom.index (px, py) < s.fbW.toNat * s.fbH.toNat :=
      index_lt (g := s.geom) (Int.natCast_nonneg px) (Int.ofNat_lt.2 hx) (Int.natCast_nonneg py) (Int.ofNat_lt.2 hy)
    exact ⟨index_natCast s.geom px py, hlt, hcap, fun c hc => busRead_bit (Nat.lt_of_lt_of_le hlt hcap) hc⟩

/-- The pixel at index `i` of a framebuffer of width `g.w` (spec/40_framebuffer.md R130). -/
theorem index_mod_div (g : Geometry) (i : Nat) : g.index ((i % g.w : Nat), (i / g.w : Nat)) = i := by
  rw [index_natCast, Nat.mul_comm, Nat.div_add_mod]

/-- FB_RESET moves no bit (spec/40_framebuffer.md R136). -/
theorem store_fbResetBody (s : State) : (fbResetBody s).store = s.store := by
  unfold fbResetBody
  split <;> rfl

/-- Settles O20: the store is unchanged, and under the new width the same index is that of the new coordinates. -/
theorem reshapedFramebufferReadsTheSameBits : Obligations.ReshapedFramebufferReadsTheSameBits := by
  intro s t px py hready h _ _ _ hlt
  have hstore : t.store = s.store := by
    rw [exec_of_ready hready] at h
    cases h
    exact store_fbResetBody s
  generalize hi : py * s.fbW.toNat + px = i at hlt ⊢
  have hw : 0 < t.fbW.toNat := Nat.pos_of_mul_pos_right (Nat.zero_lt_of_lt hlt)
  refine ⟨Nat.mod_lt i hw, Nat.div_lt_of_lt_mul hlt, ?_, hstore⟩
  calc t.geom.index ((i % t.fbW.toNat : Nat), (i / t.fbW.toNat : Nat))
    _ = i := index_mod_div t.geom i
    _ = s.geom.index (px, py) := hi.symm.trans (index_natCast s.geom px py).symm

/-! ### What a command draws -/

/-- A command that is not one of those that write the backing store leaves it (spec/10_state.md R44). -/
theorem exec_store_of_not_writesStore {i : Instr} {s t : State} (hi : writesStore i = false) (h : exec i s = .next t) :
    t.store = s.store := by
  obtain ⟨-, -, -, -, -, -, -, -, -, -, -, -, -, -, -, -, -, -, -, hstore, -⟩ :=
    commandsWriteOnlyTheirOwnFields i s t h
  exact hstore hi

/-- What a pixel push draws: one point, or nothing where it is rejected (spec/42_thresholder.md R192). -/
theorem pushPixel_store (path : ImgPath) (c : Color) (s : State) :
    ∃ pts, (s.pushPixel path c).store = s.store.plotAll s.geom c pts := by
  unfold State.pushPixel
  split
  · exact ⟨[s.pushPoint], push_store c s⟩
  · exact ⟨[], rfl⟩

/-- Every command but FB_CLEAR writes the backing store by Plots in one colour only (spec/40_framebuffer.md R143). -/
theorem exec_store_eq_plotAll {i : Instr} {s t : State} (hi : ∀ c, i ≠ .fbClear c) (h : exec i s = .next t) :
    ∃ c pts, t.store = s.store.plotAll s.geom c pts := by
  cases hw : writesStore i
  case false => exact ⟨.black, [], exec_store_of_not_writesStore hw h⟩
  case true =>
    rw [exec_eq] at h
    cases h
    rcases issue_cases (exemptOf i) (bodyOf i) s with ⟨_, h⟩ | ⟨_, _, _, h⟩ | ⟨_, _, h⟩ <;> rw [h]
    · exact ⟨.black, [], rfl⟩
    · exact ⟨.black, [], rfl⟩
    · cases i with
      | fbClear c => exact absurd rfl (hi c)
      | fbSetPixel c => exact ⟨c, [(s.coord 0, s.coord 1)], rfl⟩
      | fbDrawLine c => exact ⟨c, s.segment.linePoints, rfl⟩
      | fbDrawRect c => exact ⟨c, s.segment.outlinePoints s.geom, rfl⟩
      | fbFillRect c => exact ⟨c, s.segment.fillPoints s.geom, rfl⟩
      | imgPixelRgb r g b => exact ⟨thrBmp r g b, pushPixel_store .bitmap _ s⟩
      | imgPixel565 v => exact ⟨thrGen v, pushPixel_store .generic _ s⟩
      | _ => exact Bool.noConfusion hw

/-- Settles O25: a Plot reaches no bit at or beyond the area. -/
theorem noDrawingBeyondTheFramebuffer : Obligations.NoDrawingBeyondTheFramebuffer := by
  intro i s t k hi h hk
  obtain ⟨c, pts, hstore⟩ := exec_store_eq_plotAll hi h
  rw [hstore]
  exact bitRead_plotAll_of_ge (g := s.geom) hk

end Sys2Proof.Machine
end

section
/-! The snapshot view (spec/40_framebuffer.md R150 to R153): SnapData byte by byte, in stored rows and in framebuffer
coordinates. -/

namespace Sys2Proof.Machine

/-! ### The bytes of a stored row -/

/-- The snapshot's stride is RowBytes of the bitmap path (spec/40_framebuffer.md R150; spec/42_thresholder.md R185). -/
theorem snapStride_spec (w : Nat) : snapStride w % 4 = 0 ∧ 3 * w ≤ snapStride w := by
  obtain ⟨hmul, hle, -⟩ := rowBytes_spec w
  exact ⟨hmul, hle⟩

/-- Byte `k` of stored row `row` is a pixel's, or padding (spec/40_framebuffer.md R152). -/
theorem snapByte_row (s : State) (row : Nat) {k : Nat} (hk : k < snapStride s.fbW.toNat) :
    s.snapByte (row * snapStride s.fbW.toNat + k) =
      if k < 3 * s.fbW.toNat then snapExpand (s.snapPixel (k / 3) (s.fbH.toNat - 1 - row)) else 0x00 := by
  unfold State.snapByte
  simp only [Nat.mul_comm row, Nat.mul_add_mod, Nat.mod_eq_of_lt hk, Nat.mul_add_div (Nat.zero_lt_of_lt hk),
    Nat.div_eq_of_lt hk, Nat.add_zero]

/-- SnapData holds the bytes of its stored rows in order (spec/40_framebuffer.md R152). -/
theorem snapData_row {s : State} {row k : Nat} (hrow : row < s.fbH.toNat) (hk : k < snapStride s.fbW.toNat) :
    s.snapData[row * snapStride s.fbW.toNat + k]? = some (s.snapByte (row * snapStride s.fbW.toNat + k)) := by
  have hlt : row * snapStride s.fbW.toNat + k < s.fbH.toNat * snapStride s.fbW.toNat :=
    calc row * snapStride s.fbW.toNat + k
      _ < row * snapStride s.fbW.toNat + snapStride s.fbW.toNat := Nat.add_lt_add_left hk _
      _ = (row + 1) * snapStride s.fbW.toNat := (Nat.succ_mul _ _).symm
      _ ≤ s.fbH.toNat * snapStride s.fbW.toNat := Nat.mul_le_mul_right _ hrow
  unfold State.snapData
  rw [List.getElem?_map, List.getElem?_range hlt, Option.map_some]

/-- The three bytes of a stored row's pixel (spec/40_framebuffer.md R151, R152). -/
theorem snapData_pixel {s : State} {row px j : Nat} (hrow : row < s.fbH.toNat) (hpx : px < s.fbW.toNat) (hj : j < 3) :
    s.snapData[row * snapStride s.fbW.toNat + 3 * px + j]? =
      some (snapExpand (s.snapPixel px (s.fbH.toNat - 1 - row))) := by
  have hpixel : 3 * px + j < 3 * s.fbW.toNat := by omega
  have hstride : 3 * px + j < snapStride s.fbW.toNat := Nat.lt_of_lt_of_le hpixel (snapStride_spec _).2
  have hdiv : (3 * px + j) / 3 = px := by omega
  rw [Nat.add_assoc, snapData_row hrow hstride, snapByte_row s row hstride, if_pos hpixel, hdiv]

/-- The padding of a stored row (spec/40_framebuffer.md R152). -/
theorem snapData_padding {s : State} {row k : Nat} (hrow : row < s.fbH.toNat) (hpad : 3 * s.fbW.toNat ≤ k)
    (hk : k < snapStride s.fbW.toNat) : s.snapData[row * snapStride s.fbW.toNat + k]? = some 0x00 := by
  rw [snapData_row hrow hk, snapByte_row s row hk, if_neg (Nat.not_lt.2 hpad)]

/-- The view gives a known pixel its colour (spec/40_framebuffer.md R151). -/
theorem snapPixel_of_known {s : State} {px py : Nat} {c : Color}
    (hc : s.store.bitRead (py * s.fbW.toNat + px) = some c) : s.snapPixel px py = c := by
  have hbit : s.store.bitRead (s.geom.index (px, py)) = some c := (congrArg _ (index_natCast s.geom px py)).trans hc
  unfold State.snapPixel
  simp only [hbit]

theorem snapExpand_eq (c : Color) : snapExpand c = if c = .white then 0xFF else 0x00 := by cases c <;> rfl

/-! ### The statement -/

/-- Settles O34. -/
theorem snapshotHoldsThePixelsBottomUp : Obligations.SnapshotHoldsThePixelsBottomUp := by
  intro s
  refine ⟨(snapStride_spec s.fbW.toNat).1, ?length, rfl, fun row px j c hrow hpx hj hc => ?pixel,
    fun row k => snapData_padding⟩
  case length =>
    unfold State.snapData
    rw [List.length_map, List.length_range]
  case pixel => rw [snapData_pixel hrow hpx hj, snapPixel_of_known hc, snapExpand_eq]

end Sys2Proof.Machine
end

section
/-! Streaming a window's pixels (spec/42_thresholder.md R192, R194): a run of pushes moves the cursor through the window
in row order and closes the stream after its last pixel. -/

namespace Sys2Proof.Machine

/-! ### Runs of commands -/

theorem runAll_cons {run : Instr → State → Host.Outcome State Fault Refusal} {i : Instr} {s t : State}
    (h : run i s = .next t) (is : List Instr) : runAll run (i :: is) s = runAll run is t := by
  simp only [runAll, h]

/-- A run goes on after its first part. -/
theorem runAll_append {run : Instr → State → Host.Outcome State Fault Refusal} {is : List Instr} {s t : State}
    (h : runAll run is s = .next t) (js : List Instr) : runAll run (is ++ js) s = runAll run js t := by
  induction is generalizing s with
  | nil => cases h; rfl
  | cons i is ih =>
    cases hi : run i s with
    | next u =>
      rw [List.cons_append, runAll_cons hi]
      exact ih ((runAll_cons hi is).symm.trans h)
    | fault r => cases r
    | refused r => simp [runAll, hi] at h

/-- What each command of a numbered run makes of its number, the run makes of its length. -/
theorem runAll_range {run : Instr → State → Host.Outcome State Fault Refusal} {f : Nat → Instr}
    {P : Nat → State → Prop} {N : Nat} {s : State} (hstart : P 0 s)
    (hstep : ∀ n < N, ∀ u, P n u → ∃ v, run (f n) u = .next v ∧ P (n + 1) v) :
    ∃ t, runAll run ((List.range N).map f) s = .next t ∧ P N t := by
  induction N with
  | zero => exact ⟨s, rfl, hstart⟩
  | succ N ih =>
    obtain ⟨u, hrun, hu⟩ := ih fun n hn => hstep n (Nat.lt_succ_of_lt hn)
    obtain ⟨v, hlast, hv⟩ := hstep N (Nat.lt_succ_self N) u hu
    refine ⟨v, ?_, hv⟩
    rw [List.range_succ, List.map_append, runAll_append hrun]
    exact runAll_cons hlast []

/-! ### The cursor -/

/-- The cursor stands at pixel `n` of the window in row order, and the stream is open while the window has that pixel
(spec/10_state.md R49; spec/42_thresholder.md R192). -/
structure State.AtPixel (n : Nat) (s : State) : Prop where
  col : s.imgCol.toNat = n % s.imgW.toNat
  row : s.imgRow.toNat = n / s.imgW.toNat
  active : s.imgActive = decide (n < s.imgW.toNat * s.imgH.toNat)

/-- After a pixel before the row's last one the next pixel is in the same row. -/
theorem succ_of_mid_row {w n : Nat} (h : n % w + 1 < w) : (n + 1) % w = n % w + 1 ∧ (n + 1) / w = n / w := by
  have hn : n + 1 = w * (n / w) + (n % w + 1) := by rw [← Nat.add_assoc, Nat.div_add_mod]
  constructor
  · rw [hn, Nat.mul_add_mod, Nat.mod_eq_of_lt h]
  · rw [hn, Nat.mul_add_div (Nat.zero_lt_of_lt h), Nat.div_eq_of_lt h, Nat.add_zero]

/-- After a row's last pixel the next pixel is the first of the next row. -/
theorem succ_of_row_end {w n : Nat} (h : n % w + 1 = w) : n + 1 = w * (n / w + 1) := by
  calc n + 1
    _ = w * (n / w) + (n % w + 1) := by rw [← Nat.add_assoc, Nat.div_add_mod]
    _ = w * (n / w + 1) := by rw [h, Nat.mul_succ]

/-- A position in a window counts up without wrapping (log entry 15). -/
theorem toNat_succ_of_lt {a b : Half} (h : a.toNat < b.toNat) : (a + 1).toNat = a.toNat + 1 :=
  BitVec.toNat_add_of_lt (Nat.lt_of_le_of_lt h b.isLt)

theorem advanceCursor_of_row_end {s : State} (h : s.imgCol.toNat + 1 = s.imgW.toNat) :
    s.advanceCursor = { s with
      imgCol := 0
      imgRow := s.imgRow + 1
      imgActive := s.imgActive && !decide (s.imgRow.toNat + 1 = s.imgH.toNat) } := if_pos h

theorem advanceCursor_of_mid_row {s : State} (h : s.imgCol.toNat + 1 ≠ s.imgW.toNat) :
    s.advanceCursor = { s with imgCol := s.imgCol + 1 } := if_neg h

/-- The cursor's advance goes to the next pixel (spec/42_thresholder.md R192). -/
theorem advanceCursor_atPixel {n : Nat} {s : State} (h : s.AtPixel n) (hn : n < s.imgW.toNat * s.imgH.toNat) :
    s.advanceCursor.AtPixel (n + 1) := by
  have hw : 0 < s.imgW.toNat := Nat.pos_of_mul_pos_right (Nat.zero_lt_of_lt hn)
  have hcol : s.imgCol.toNat < s.imgW.toNat := h.col ▸ Nat.mod_lt n hw
  have hrow : s.imgRow.toNat < s.imgH.toNat := h.row ▸ Nat.div_lt_of_lt_mul hn
  have hopen : s.imgActive = true := h.active.trans (decide_eq_true hn)
  by_cases hend : s.imgCol.toNat + 1 = s.imgW.toNat
  case pos =>
    have hnext : n + 1 = s.imgW.toNat * (s.imgRow.toNat + 1) := h.row ▸ succ_of_row_end (h.col ▸ hend)
    rw [advanceCursor_of_row_end hend, hnext]
    refine ⟨(Nat.mul_mod_right _ _).symm, ?row, ?active⟩
    case row => exact (toNat_succ_of_lt hrow).trans (Nat.mul_div_cancel_left _ hw).symm
    case active =>
      have hmore : ¬ s.imgRow.toNat + 1 = s.imgH.toNat ↔ s.imgRow.toNat + 1 < s.imgH.toNat := by omega
      simp [hopen, hmore, hw, ← decide_not]
  case neg =>
    obtain ⟨hcolNext, hrowNext⟩ := succ_of_mid_row (w := s.imgW.toNat) (n := n) (by rw [← h.col]; omega)
    rw [advanceCursor_of_mid_row hend]
    refine ⟨?col, h.row.trans hrowNext.symm, ?active⟩
    case col => rw [hcolNext, ← h.col]; exact toNat_succ_of_lt hcol
    case active =>
      have hnext : n + 1 < s.imgW.toNat * s.imgH.toNat := by
        rw [Nat.mul_comm, ← Nat.div_lt_iff_lt_mul hw, hrowNext, ← h.row]
        exact hrow
      exact hopen.trans (decide_eq_true hnext).symm

/-- A push goes to the next pixel (spec/42_thresholder.md R192). -/
theorem push_atPixel {n : Nat} {s : State} (h : s.AtPixel n) (hn : n < s.imgW.toNat * s.imgH.toNat) (c : Color) :
    (s.push c).AtPixel (n + 1) :=
  advanceCursor_atPixel (s := { s with store := s.store.plot s.geom c s.pushPoint.1 s.pushPoint.2 })
    ⟨h.col, h.row, h.active⟩ hn

/-- IMG_PIXEL_RGB in an open bitmap stream, at any BMP_T (spec/42_thresholder.md R189). -/
theorem imgPixelRgbAt_of_open {s : State} (hcmd : s.cmdBusy = false) (hopen : s.imgActive = true)
    (hmode : s.imgMode = .bitmap) (t r g b : Nat) :
    imgPixelRgbAt t r g b s = .next ((s.push (thrBmpAt t r g b)).complete .ok) := by
  simp [imgPixelRgbAt, State.issue, State.pushPixel, hcmd, hopen, hmode]

end Sys2Proof.Machine
end

section
/-! The round trip of a snapshot through the bitmap path (spec/42_thresholder.md R196): after `n` pushes the cursor
stands at window pixel `n`, and the first `n` bits of the framebuffer are those of the snapshot's. -/

namespace Sys2Proof.Machine

/-! ### The snapshot's pushes -/

/-- The push of a pixel the snapshot expanded (spec/40_framebuffer.md R151). -/
def expandedPush (c : Color) : Instr :=
  .imgPixelRgb (snapExpand c).toNat (snapExpand c).toNat (snapExpand c).toNat

/-- Up to 764, any threshold gives an expanded pixel its colour back (spec/42_thresholder.md R183, R196). -/
theorem thrBmpAt_snapExpand {t : Nat} (ht : t ≤ 764) (c : Color) :
    thrBmpAt t (snapExpand c).toNat (snapExpand c).toNat (snapExpand c).toNat = c := by
  cases c with
  | black => exact if_neg (Nat.not_lt_zero t)
  | white => exact if_pos (Nat.lt_succ_of_le ht)

/-- The stored row of a physical row, and back: the bottom-up order is its own inverse (spec/40_framebuffer.md R152). -/
theorem storedRow_involutive {h row : Nat} (hrow : row < h) : h - 1 - row < h ∧ h - 1 - (h - 1 - row) = row := by
  omega

/-- Push `n` carries the pixel at index `n` of the snapshot's framebuffer: reading the stored rows from the last one up
undoes their bottom-up order (spec/40_framebuffer.md R152; spec/42_thresholder.md R194). -/
theorem snapPushes_eq (f : State) :
    f.snapPushes = (List.range (f.fbW.toNat * f.fbH.toNat)).map
      (fun n => expandedPush (f.snapPixel (n % f.fbW.toNat) (n / f.fbW.toNat))) := by
  refine List.map_congr_left fun n hmem => ?_
  have hn := List.mem_range.1 hmem
  have hcol : n % f.fbW.toNat < f.fbW.toNat := Nat.mod_lt n (Nat.pos_of_mul_pos_right (Nat.zero_lt_of_lt hn))
  have hrow : n / f.fbW.toNat < f.fbH.toNat := Nat.div_lt_of_lt_mul hn
  obtain ⟨hstored, hback⟩ := storedRow_involutive hrow
  have hbyte : ∀ j < 3, f.snapData.getD ((f.fbH.toNat - 1 - n / f.fbW.toNat) * snapStride f.fbW.toNat
      + 3 * (n % f.fbW.toNat) + j) 0 = snapExpand (f.snapPixel (n % f.fbW.toNat) (n / f.fbW.toNat)) := fun j hj => by
    rw [List.getD_eq_getElem?_getD, snapData_pixel hstored hcol hj, Option.getD_some, hback]
  have hzero := hbyte 0 (by decide)
  rw [Nat.add_zero] at hzero
  simp only [hzero, hbyte 1 (by decide), hbyte 2 (by decide), expandedPush]

/-! ### Opening the stream -/

/-- The header fields of the snapshot of `f`, at the origin (spec/40_framebuffer.md R153;
spec/42_thresholder.md R187). -/
def State.snapHeader (f : State) : BmpHeader where
  x0 := 0
  y0 := 0
  w := f.fbW.toNat
  h := f.fbH.toNat
  sig0 := 0x42
  sig1 := 0x4D
  planes := 1
  bpp := 24
  comp := 0
  off := 54

/-- A dimension passed in 32 bits keeps its value, read as a signed number (spec/30_encoding.md R110). -/
theorem s32_setWidth (a : Half) : s32 (BitVec.setWidth 32 a) = a.toNat := by
  have hnat : (BitVec.setWidth 32 a).toNat = a.toNat := BitVec.toNat_setWidth_of_le (by decide)
  have hpos : 2 * (BitVec.setWidth 32 a).toNat < 2 ^ 32 := by omega
  rw [s32, BitVec.toInt_eq_toNat_of_lt hpos, hnat]

theorem bmpHeader_of_snapArgs {f s : State}
    (hargs : s.args = #v[0, 0, BitVec.setWidth 32 f.fbW, BitVec.setWidth 32 f.fbH, 0x4D42, 0x00180001, 0, 54]) :
    s.bmpHeader = f.snapHeader := by
  have harg : ∀ i : Fin Config.narg, s.arg i =
      #v[0, 0, BitVec.setWidth 32 f.fbW, BitVec.setWidth 32 f.fbH, 0x4D42, 0x00180001, 0, 54][i] :=
    fun i => by unfold State.arg; rw [hargs]
  unfold State.bmpHeader State.dim State.snapHeader
  simp only [harg, BmpHeader.mk.injEq]
  have hsig : sigFirst 0x4D42 = 0x42 ∧ sigSecond 0x4D42 = 0x4D := by decide
  have hformat : u16 0x00180001 = 1 ∧ u16High 0x00180001 = 24 := by decide
  exact ⟨rfl, rfl, s32_setWidth _, s32_setWidth _, hsig.1, hsig.2, hformat.1, hformat.2, rfl, rfl⟩

/-- A snapshot's header passes every check of R187 unless a dimension is 0. -/
theorem snapHeader_accepted {f : State} (hw : 0 < f.fbW.toNat) (hh : 0 < f.fbH.toNat) :
    f.snapHeader.rejected = false := by
  have hwMax : f.fbW.toNat ≤ Config.imgMaxDim := Nat.le_of_lt_succ f.fbW.isLt
  have hhMax : f.fbH.toNat ≤ Config.imgMaxDim := Nat.le_of_lt_succ f.fbH.isLt
  simp [BmpHeader.rejected, State.snapHeader, hw.ne', hh.ne', hwMax, hhMax]

/-- A source of the framebuffer's own size, at the origin, is not clipped (spec/42_thresholder.md R182). -/
theorem clipDim_self {n : Nat} (h : 0 < n) : clipDim 0 n n = n := by
  rw [clipDim, if_neg (Nat.not_le.2 h), Nat.sub_zero, min_self]

/-! ### The stream under way -/

/-- The snapshot of `f` is being streamed into `u`, and `n` pixels of it are there. -/
structure State.Restoring (f : State) (n : Nat) (u : State) : Prop where
  cmd : u.cmdBusy = false
  mode : u.imgMode = .bitmap
  err : u.err = .ok
  geom : u.geom = f.geom
  x0 : u.imgX0 = 0
  y0 : u.imgY0 = 0
  width : u.imgW = f.fbW
  height : u.imgH = f.fbH
  cursor : u.AtPixel n
  pixels : ∀ i < n, u.store.bitRead i = f.store.bitRead i

/-- IMG_BEGIN_BMP opens the stream of a snapshot (spec/42_thresholder.md R187). -/
theorem restoring_of_begin {f s : State} (hrot : f.rot = .rot0) (hw : 0 < f.fbW.toNat) (hh : 0 < f.fbH.toNat)
    (hready : s.ready) (hgeom : s.geom = f.geom) (hhead : s.bmpHeader = f.snapHeader) :
    ∃ u, exec .imgBeginBmp s = .next u ∧ f.Restoring 0 u := by
  have hbody : bodyOf .imgBeginBmp s = (s.openStream f.snapHeader.frame).complete .ok := by
    simp [bodyOf, imgBeginBmpBody, hhead, snapHeader_accepted hw hh]
  obtain ⟨hwidth, hheight⟩ :
      f.snapHeader.frame.windowW s.geom = f.fbW.toNat ∧ f.snapHeader.frame.windowH s.geom = f.fbH.toNat := by
    rw [hgeom]
    simp only [ImgFrame.windowW, ImgFrame.windowH, Geometry.logicalW, Geometry.logicalH, State.geom, hrot]
    exact ⟨clipDim_self hw, clipDim_self hh⟩
  have himgW : (s.openStream f.snapHeader.frame).imgW = f.fbW := by simp [hwidth]
  have himgH : (s.openStream f.snapHeader.frame).imgH = f.fbH := by simp [hheight]
  refine ⟨_, (exec_of_ready hready .imgBeginBmp).trans (congrArg _ hbody), ?_⟩
  exact {
    cmd := hready.1
    mode := rfl
    err := rfl
    geom := hgeom
    x0 := rfl
    y0 := rfl
    width := himgW
    height := himgH
    cursor := {
      col := (Nat.zero_mod _).symm
      row := (Nat.zero_div _).symm
      active := by simp [hwidth, hheight, hw, hh] }
    pixels := fun i hi => absurd hi (Nat.not_lt_zero i) }

/-- The point of a framebuffer pixel, unrotated (spec/40_framebuffer.md R132). -/
theorem bitAt_mod_div {g : Geometry} (hrot : g.rot = .rot0) {n : Nat} (hn : n < g.w * g.h) :
    g.bitAt (n % g.w : Nat) (n / g.w : Nat) = some n := by
  have hcol : n % g.w < g.w := Nat.mod_lt n (Nat.pos_of_mul_pos_right (Nat.zero_lt_of_lt hn))
  have hrow : n / g.w < g.h := Nat.div_lt_of_lt_mul hn
  refine bitAt_eq_some.2 ⟨?inside, ?index⟩
  case inside =>
    rw [inBounds_iff]
    simp only [Geometry.logicalW, Geometry.logicalH, hrot]
    exact ⟨Int.natCast_nonneg _, Int.ofNat_lt.2 hcol, Int.natCast_nonneg _, Int.ofNat_lt.2 hrow⟩
  case index =>
    simp only [Geometry.phys, hrot]
    exact index_mod_div g n

/-- Pixel `n` of the stream is pushed to bit `n` (spec/42_thresholder.md R181). -/
theorem State.Restoring.bitAt_pushPoint {f u : State} {n : Nat} (h : f.Restoring n u) (hrot : f.rot = .rot0)
    (hn : n < f.fbW.toNat * f.fbH.toNat) : u.geom.bitAt u.pushPoint.1 u.pushPoint.2 = some n := by
  have hpoint : u.pushPoint = (((n % f.fbW.toNat : Nat) : Int), ((n / f.fbW.toNat : Nat) : Int)) := by
    unfold State.pushPoint
    rw [h.x0, h.y0, h.cursor.col, h.cursor.row, h.width]
    simp
  rw [hpoint, h.geom]
  exact bitAt_mod_div (g := f.geom) hrot hn

/-- The push of pixel `n` adds it to those restored. -/
theorem State.Restoring.push {f u : State} {n t : Nat} {c : Color} (h : f.Restoring n u) (ht : t ≤ 764)
    (hrot : f.rot = .rot0) (hn : n < f.fbW.toNat * f.fbH.toNat) (hc : f.store.bitRead n = some c) :
    ∃ v, execAt t (expandedPush c) u = .next v ∧ f.Restoring (n + 1) v := by
  have hin : n < u.imgW.toNat * u.imgH.toNat := by rwa [h.width, h.height]
  have hrun : execAt t (expandedPush c) u = .next ((u.push c).complete .ok) := by
    have hpush := imgPixelRgbAt_of_open h.cmd (h.cursor.active.trans (decide_eq_true hin)) h.mode t
      (snapExpand c).toNat (snapExpand c).toNat (snapExpand c).toNat
    rwa [thrBmpAt_snapExpand ht] at hpush
  have hcursor := push_atPixel h.cursor hin c
  have hgeom : (u.push c).geom = u.geom := by simp [State.geom]
  refine ⟨_, hrun, ?_⟩
  exact {
    cmd := by simp [h.cmd]
    mode := by simp [h.mode]
    err := rfl
    geom := hgeom.trans h.geom
    x0 := by simp [h.x0]
    y0 := by simp [h.y0]
    width := by simp [h.width]
    height := by simp [h.height]
    cursor := ⟨hcursor.col, hcursor.row, hcursor.active⟩
    pixels := fun i hi => by
      have hread : (u.push c).store.bitRead i = if some n = some i then some c else u.store.bitRead i := by
        rw [push_store, bitRead_plot, h.bitAt_pushPoint hrot hn]
      refine hread.trans ?_
      split
      case isTrue heq => cases heq; exact hc.symm
      case isFalse hne => exact h.pixels i (Nat.lt_of_le_of_ne (Nat.le_of_lt_succ hi) fun heq => hne (heq ▸ rfl)) }

/-! ### The statement -/

/-- Settles O35. -/
theorem snapshotRoundTripReproducesThePixels : Obligations.SnapshotRoundTripReproducesThePixels := by
  refine ⟨execAt_bmpT, fun t ht f s hrot hw hh hknown hready hsrot hsw hsh hargs => ?_⟩
  have hgeom : s.geom = f.geom := by
    unfold State.geom
    rw [hsrot, hrot, hsw, hsh]
  obtain ⟨u, hbegin, hu⟩ := restoring_of_begin hrot hw hh hready hgeom (bmpHeader_of_snapArgs hargs)
  obtain ⟨v, hpushes, hv⟩ := runAll_range (run := execAt t)
    (f := fun n => expandedPush (f.snapPixel (n % f.fbW.toNat) (n / f.fbW.toNat))) hu fun n hn v hv => by
      obtain ⟨c, hc⟩ := Option.isSome_iff_exists.1 (hknown n hn)
      have hpixel : f.snapPixel (n % f.fbW.toNat) (n / f.fbW.toNat) = c :=
        snapPixel_of_known (by rwa [Nat.mul_comm, Nat.div_add_mod])
      rw [hpixel]
      exact hv.push ht hrot hn hc
  refine ⟨v, ?run, hv.err, ?closed, hv.pixels⟩
  case run =>
    have hfirst : execAt t .imgBeginBmp s = .next u := hbegin
    rw [runAll_cons hfirst, snapPushes_eq]
    exact hpushes
  case closed =>
    rw [hv.cursor.active, hv.width, hv.height]
    exact decide_eq_false (Nat.lt_irrefl _)

end Sys2Proof.Machine
end

section
/-! The rectangle commands (spec/41_rasterizers.md R163, R164): what each plots on a block that accepts it. -/

namespace Sys2Proof.Machine

/-- Settles O23: the listed points are the in-bounds points of the outline. -/
theorem fbDrawRectPlotsTheOutline : Obligations.FbDrawRectPlotsTheOutline := by
  refine ⟨rfl, rfl, ?_⟩
  rintro c s _ _ _ _ hready rfl rfl rfl rfl
  exact ⟨_, exec_of_ready hready (.fbDrawRect c), complete_ok _,
    fun _ _ _ hi => bitRead_outline s.store s.segment s.geom c hi, fun _ hi => bitRead_plotAll_of_ge (g := s.geom) hi⟩

/-- Settles O24: the listed points are the in-bounds points of the rectangle. -/
theorem fbFillRectPlotsTheRectangle : Obligations.FbFillRectPlotsTheRectangle := by
  refine ⟨rfl, rfl, ?_⟩
  rintro c s _ _ _ _ hready rfl rfl rfl rfl
  exact ⟨_, exec_of_ready hready (.fbFillRect c), complete_ok _,
    fun _ _ _ hi => bitRead_fill s.store s.segment s.geom c hi, fun _ hi => bitRead_plotAll_of_ge (g := s.geom) hi⟩

end Sys2Proof.Machine
end

section
/-! One turn of FB_DRAW_LINE's loop (spec/41_rasterizers.md R161): how it moves the point, and what follows of any run of
the loop from that alone, its length apart. -/

namespace Sys2Proof.Machine

/-! ### The turn -/

theorem dx_nonneg (g : Segment) : 0 ≤ g.dx := abs_nonneg _

theorem dy_nonpos (g : Segment) : g.dy ≤ 0 := neg_nonpos.2 (abs_nonneg _)

theorem sx_eq_or (g : Segment) : g.sx = 1 ∨ g.sx = -1 := by
  unfold Segment.sx
  split <;> simp

theorem sy_eq_or (g : Segment) : g.sy = 1 ∨ g.sy = -1 := by
  unfold Segment.sy
  split <;> simp

theorem lineNext_x (g : Segment) (p : LinePos) :
    (g.lineNext p).x = if g.dy ≤ 2 * p.err then p.x + g.sx else p.x := by
  unfold Segment.lineNext
  dsimp only
  split_ifs <;> rfl

theorem lineNext_y (g : Segment) (p : LinePos) :
    (g.lineNext p).y = if 2 * p.err ≤ g.dx then p.y + g.sy else p.y := by
  unfold Segment.lineNext
  dsimp only
  split_ifs <;> rfl

/-- A turn moves the point by at most 1 in each coordinate (spec/41_rasterizers.md R162). -/
theorem lineNext_near (g : Segment) (p : LinePos) : |(g.lineNext p).x - p.x| ≤ 1 ∧ |(g.lineNext p).y - p.y| ≤ 1 := by
  rw [lineNext_x, lineNext_y, abs_le, abs_le]
  have hx := sx_eq_or g
  have hy := sy_eq_or g
  constructor <;> split <;> omega

/-- How far a point lies in the line's direction. -/
def Segment.progress (g : Segment) (q : Int × Int) : Int := g.sx * q.1 + g.sy * q.2

/-- A turn moves the point in the line's direction: as `dy ≤ 0 ≤ dx`, one of the two updates is made. -/
theorem progress_lineNext (g : Segment) (p : LinePos) :
    g.progress (p.x, p.y) < g.progress ((g.lineNext p).x, (g.lineNext p).y) := by
  have hdx := dx_nonneg g
  have hdy := dy_nonpos g
  unfold Segment.progress
  rw [lineNext_x, lineNext_y]
  rcases sx_eq_or g with hx | hx <;> rcases sy_eq_or g with hy | hy <;> rw [hx, hy] <;> split_ifs <;> omega

/-! ### Any run of the loop -/

/-- The first point plotted is the one the run starts at (spec/41_rasterizers.md R162). -/
theorem LineRun.head?_eq {g : Segment} {p : LinePos} {pts : List (Int × Int)} (h : LineRun g p pts) :
    pts.head? = some (p.x, p.y) := by
  cases h <;> rfl

/-- A run ends at the line's end point (spec/41_rasterizers.md R162). -/
theorem LineRun.getLast?_eq {g : Segment} {p : LinePos} {pts : List (Int × Int)} (h : LineRun g p pts) :
    pts.getLast? = some (g.x1, g.y1) := by
  induction h with
  | last hend =>
    obtain ⟨hx, hy⟩ := hend
    rw [hx, hy, List.getLast?_singleton]
  | more _ _ ih => rw [List.getLast?_cons, ih, Option.getD_some]

/-- What every turn keeps between a point and the next one holds along the points of a run. -/
theorem LineRun.isChain {g : Segment} {R : Int × Int → Int × Int → Prop}
    (hR : ∀ p : LinePos, R (p.x, p.y) ((g.lineNext p).x, (g.lineNext p).y)) {p : LinePos} {pts : List (Int × Int)}
    (h : LineRun g p pts) : List.IsChain R pts := by
  induction h with
  | last _ => exact .singleton _
  | @more p _ _ rest ih =>
    refine List.isChain_cons.2 ⟨fun q hq => ?_, ih⟩
    rw [rest.head?_eq] at hq
    cases hq
    exact hR p

/-- No point is plotted twice: each lies further along the line than those before it. -/
theorem LineRun.nodup {g : Segment} {p : LinePos} {pts : List (Int × Int)} (h : LineRun g p pts) : pts.Nodup := by
  have hchain : List.IsChain (fun q r => g.progress q < g.progress r) pts := h.isChain (progress_lineNext g)
  have : IsTrans (Int × Int) (fun q r => g.progress q < g.progress r) := ⟨fun _ _ _ => lt_trans⟩
  exact hchain.pairwise.imp fun hlt heq => hlt.ne (congrArg g.progress heq)

end Sys2Proof.Machine
end

section
/-! FB_DRAW_LINE's loop ends (spec/41_rasterizers.md R161, R162). After `n` turns the point has moved `n` steps along the
longer axis, and as many along the shorter one as keep it within half a step of the line. -/

namespace Sys2Proof.Machine

/-! ### The point after `n` turns -/

/-- The loop variables after `u` updates of `x` and `v` updates of `y`. -/
def Segment.posAt (g : Segment) (u v : Int) : LinePos :=
  ⟨g.x0 + u * g.sx, g.y0 + v * g.sy, g.dx + g.dy + (u * g.dy + v * g.dx)⟩

theorem lineStart_eq_posAt (g : Segment) : g.lineStart = g.posAt 0 0 := by
  simp [Segment.lineStart, Segment.posAt]

theorem lineNext_posAt (g : Segment) (u v : Int) :
    g.lineNext (g.posAt u v) =
      g.posAt (u + if g.dy ≤ 2 * (g.posAt u v).err then 1 else 0) (v + if 2 * (g.posAt u v).err ≤ g.dx then 1 else 0) := by
  unfold Segment.lineNext
  dsimp only
  split_ifs <;> simp only [Segment.posAt, LinePos.mk.injEq] <;> refine ⟨?_, ?_, ?_⟩ <;> ring

/-- The number of turns after which the loop ends (spec/41_rasterizers.md R162). -/
def Segment.lineSteps (g : Segment) : Nat := max (g.x1 - g.x0).natAbs (g.y1 - g.y0).natAbs

theorem natCast_lineSteps (g : Segment) : (g.lineSteps : Int) = max g.dx (-g.dy) := by
  simp [Segment.lineSteps, Segment.dx, Segment.dy]

/-- What `n` turns have made of the point: on the longer axis every turn is a step, on the shorter one the steps taken
differ from the line by at most half a step. -/
structure Segment.Tracks (g : Segment) (n : Nat) (u v : Int) : Prop where
  xMajor : -g.dy ≤ g.dx → u = n
  yMajor : g.dx ≤ -g.dy → v = n
  near : |2 * (u * g.dy + v * g.dx)| ≤ max g.dx (-g.dy)

/-- The point is one the loop comes to after `n` turns. -/
def Segment.Reaches (g : Segment) (n : Nat) (p : LinePos) : Prop := ∃ u v, p = g.posAt u v ∧ g.Tracks n u v

theorem reaches_lineStart (g : Segment) : g.Reaches 0 g.lineStart :=
  ⟨0, 0, lineStart_eq_posAt g, fun _ => rfl, fun _ => rfl, by simp [dx_nonneg g]⟩

/-- A turn goes from `n` to `n + 1`: the longer axis is always stepped, and the shorter one when that brings the point
nearer to the line. -/
theorem Segment.Reaches.lineNext {g : Segment} {n : Nat} {p : LinePos} (h : g.Reaches n p) :
    g.Reaches (n + 1) (g.lineNext p) := by
  obtain ⟨u, v, rfl, hx, hy, hnear⟩ := h
  have herr : (g.posAt u v).err = g.dx + g.dy + (u * g.dy + v * g.dx) := rfl
  have hdx := dx_nonneg g
  have hdy := dy_nonpos g
  rw [abs_le] at hnear
  refine ⟨_, _, lineNext_posAt g u v, fun hle => ?xMajor, fun hle => ?yMajor, ?near⟩
  case xMajor =>
    have hstep : g.dy ≤ 2 * (g.posAt u v).err := by omega
    rw [if_pos hstep, hx hle, Nat.cast_succ]
  case yMajor =>
    have hstep : 2 * (g.posAt u v).err ≤ g.dx := by omega
    rw [if_pos hstep, hy hle, Nat.cast_succ]
  case near =>
    rw [herr, add_mul, add_mul, abs_le]
    split_ifs <;> omega

/-! ### Where the line ends -/

/-- On the shorter axis, of length `b`, the point stays between the end points, and it is at the end when the longer
axis, of length `a`, is. -/
theorem minor_steps {a b n v : Int} (hb : 0 ≤ b) (hba : b ≤ a) (hn : 0 ≤ n) (hna : n ≤ a) (hdiag : a = b → v = n)
    (hnear : |2 * (v * a - n * b)| ≤ a) : 0 ≤ v ∧ v ≤ b ∧ (n = a → v = b) := by
  rcases hba.eq_or_lt with rfl | hlt
  · rw [hdiag rfl]
    exact ⟨hn, hna, id⟩
  -- `v * a` within half an `a` of a multiple of `a` bounds `v`.
  have hle : ∀ k l : Int, 2 * (k * a) ≤ 2 * (l * a) + a → k ≤ l := fun k l h => by
    by_contra hkl
    have := mul_le_mul_of_nonneg_right (show l + 1 ≤ k by omega) (hb.trans hba)
    rw [add_mul] at this
    omega
  have hnb : 0 ≤ n * b := mul_nonneg hn hb
  have hab : n * b ≤ b * a := mul_comm a b ▸ mul_le_mul_of_nonneg_right hna hb
  rw [abs_le] at hnear
  have hv : v ≤ b := hle v b (by omega)
  refine ⟨hle 0 v (by omega), hv, ?_⟩
  rintro rfl
  exact hv.antisymm (hle b v (by rw [mul_comm b]; omega))

/-- The steps taken on either axis do not go past its end, and `lineSteps` turns go to the end of both. -/
theorem Segment.Tracks.range {g : Segment} {n : Nat} {u v : Int} (h : g.Tracks n u v) (hn : n ≤ g.lineSteps) :
    (0 ≤ u ∧ u ≤ g.dx) ∧ (0 ≤ v ∧ v ≤ -g.dy) ∧ (n = g.lineSteps → u = g.dx ∧ v = -g.dy) := by
  have hsteps := natCast_lineSteps g
  have hdx := dx_nonneg g
  have hdy := dy_nonpos g
  have hnear := h.near
  rcases le_total (-g.dy) g.dx with hle | hle
  case inl =>
    rw [max_eq_left hle] at hsteps hnear
    obtain rfl := h.xMajor hle
    have hmul : v * g.dx - n * -g.dy = n * g.dy + v * g.dx := by ring
    obtain ⟨hv, hv', hend⟩ := minor_steps (neg_nonneg.2 hdy) hle n.cast_nonneg (by omega)
      (fun heq => h.yMajor heq.le) (hmul ▸ hnear)
    exact ⟨⟨n.cast_nonneg, by omega⟩, ⟨hv, hv'⟩, fun heq => ⟨by omega, hend (by omega)⟩⟩
  case inr =>
    rw [max_eq_right hle] at hsteps hnear
    obtain rfl := h.yMajor hle
    have hmul : u * -g.dy - n * g.dx = -(u * g.dy + n * g.dx) := by ring
    rw [← abs_neg, ← mul_neg, ← hmul] at hnear
    obtain ⟨hu, hu', hend⟩ := minor_steps hdx hle n.cast_nonneg (by omega) (fun heq => h.xMajor heq.le) hnear
    exact ⟨⟨hu, hu'⟩, ⟨n.cast_nonneg, by omega⟩, fun heq => ⟨hend (by omega), by omega⟩⟩

/-- A coordinate moved from `a` towards `b` by at most their distance lies between them, and has come to `b` when it was
moved by all of it. -/
theorem moved_between {a b k : Int} (hk : 0 ≤ k) (hle : k ≤ |b - a|) :
    min a b ≤ a + k * (if a < b then 1 else -1) ∧ a + k * (if a < b then 1 else -1) ≤ max a b
    ∧ (a + k * (if a < b then 1 else -1) = b ↔ k = |b - a|) := by
  rcases lt_or_ge a b with h | h
  · rw [abs_of_pos (sub_pos.2 h)] at hle ⊢
    rw [if_pos h]
    omega
  · rw [abs_of_nonpos (sub_nonpos.2 h)] at hle ⊢
    rw [if_neg h.not_gt]
    omega

/-- The points reached lie in the bounding box of the end points (spec/41_rasterizers.md R162). -/
theorem Segment.Reaches.inBox {g : Segment} {n : Nat} {p : LinePos} (h : g.Reaches n p) (hn : n ≤ g.lineSteps) :
    min g.x0 g.x1 ≤ p.x ∧ p.x ≤ max g.x0 g.x1 ∧ min g.y0 g.y1 ≤ p.y ∧ p.y ≤ max g.y0 g.y1 := by
  obtain ⟨u, v, rfl, htracks⟩ := h
  obtain ⟨⟨hu, hu'⟩, ⟨hv, hv'⟩, -⟩ := htracks.range hn
  rw [Segment.dy, neg_neg] at hv'
  obtain ⟨hx, hx', -⟩ := moved_between hu hu'
  obtain ⟨hy, hy', -⟩ := moved_between hv hv'
  exact ⟨hx, hx', hy, hy'⟩

/-- The loop comes to the end point after `lineSteps` turns and not before (spec/41_rasterizers.md R162). -/
theorem Segment.Reaches.end_iff {g : Segment} {n : Nat} {p : LinePos} (h : g.Reaches n p) (hn : n ≤ g.lineSteps) :
    (p.x = g.x1 ∧ p.y = g.y1) ↔ n = g.lineSteps := by
  obtain ⟨u, v, rfl, htracks⟩ := h
  obtain ⟨⟨hu, hu'⟩, ⟨hv, hv'⟩, hend⟩ := htracks.range hn
  have hsteps := natCast_lineSteps g
  have hx : (g.posAt u v).x = g.x1 ↔ u = g.dx := (moved_between hu hu').2.2
  have hy : (g.posAt u v).y = g.y1 ↔ v = -g.dy := by
    rw [Segment.dy, neg_neg] at hv' ⊢
    exact (moved_between hv hv').2.2
  rw [hx, hy]
  refine ⟨fun ⟨hux, hvy⟩ => ?_, hend⟩
  rcases le_total (-g.dy) g.dx with hle | hle
  · have hun := htracks.xMajor hle
    omega
  · have hvn := htracks.yMajor hle
    omega

/-! ### The whole run -/

/-- The bounded loop of the model makes the whole run: `k` turns are left when the end point is `k` turns away. -/
theorem Segment.Reaches.lineRun {g : Segment} {n k : Nat} {p : LinePos} (h : g.Reaches n p)
    (hk : n + k = g.lineSteps) : LineRun g p (g.lineFrom (k + 1) p) := by
  induction k generalizing n p with
  | zero =>
    have hend := (h.end_iff hk.le).2 hk
    rw [Segment.lineFrom, if_pos hend]
    exact .last hend
  | succ k ih =>
    have hmore : ¬ (p.x = g.x1 ∧ p.y = g.y1) := fun hend => by
      have := (h.end_iff (by omega)).1 hend
      omega
    rw [Segment.lineFrom, if_neg hmore]
    exact .more hmore (ih h.lineNext (by omega))

theorem lineRun_linePoints (g : Segment) : LineRun g g.lineStart g.linePoints :=
  (reaches_lineStart g).lineRun (Nat.zero_add _)

/-- A run plots a point before each turn that is left, and the end point (spec/41_rasterizers.md R162). -/
theorem LineRun.length_eq {g : Segment} {p : LinePos} {pts : List (Int × Int)} (run : LineRun g p pts) {n : Nat}
    (h : g.Reaches n p) (hn : n ≤ g.lineSteps) : n + pts.length = g.lineSteps + 1 := by
  induction run generalizing n with
  | last hend => rw [(h.end_iff hn).1 hend, List.length_singleton]
  | more hmore _ ih =>
    have hlt : n < g.lineSteps := lt_of_le_of_ne hn fun heq => hmore ((h.end_iff hn).2 heq)
    have := ih h.lineNext hlt
    rw [List.length_cons]
    omega

/-- Every point of a run is reached in at most `lineSteps` turns. -/
theorem LineRun.reaches_of_mem {g : Segment} {p : LinePos} {pts : List (Int × Int)} (run : LineRun g p pts) {n : Nat}
    (h : g.Reaches n p) (hn : n ≤ g.lineSteps) {q : Int × Int} (hq : q ∈ pts) :
    ∃ m r, m ≤ g.lineSteps ∧ g.Reaches m r ∧ q = (r.x, r.y) := by
  induction run generalizing n with
  | last _ => exact ⟨n, _, hn, h, List.mem_singleton.1 hq⟩
  | more hmore _ ih =>
    rcases List.mem_cons.1 hq with rfl | hq
    · exact ⟨n, _, hn, h, rfl⟩
    · have hlt : n < g.lineSteps := lt_of_le_of_ne hn fun heq => hmore ((h.end_iff hn).2 heq)
      exact ih h.lineNext hlt hq

/-! ### The statements -/

/-- Settles O22: the order of the points and the last one are those of any run; how many there are and where they lie
follows from what the loop reaches after `n` turns. -/
theorem lineReachesItsEndpoint : Obligations.LineReachesItsEndpoint := by
  intro g
  have run := lineRun_linePoints g
  have hstart := reaches_lineStart g
  refine ⟨g.linePoints, run, run.head?_eq, run.getLast?_eq, ?length, run.nodup, run.isChain (lineNext_near g),
    fun q hq => ?box⟩
  case length => exact (Nat.zero_add _).symm.trans (run.length_eq hstart (Nat.zero_le _))
  case box =>
    obtain ⟨m, r, hm, hr, rfl⟩ := run.reaches_of_mem hstart (Nat.zero_le _) hq
    exact hr.inBox hm

/-- What plotting a list of points does to the bit of an in-bounds point (spec/41_rasterizers.md R160). -/
theorem bitRead_plotAll_of_bitAt (m : Memory) {g : Geometry} (c : Color) (pts : List (Int × Int)) {x y : Int} {i : Nat}
    (hi : g.bitAt x y = some i) :
    (m.plotAll g c pts).bitRead i = if (x, y) ∈ pts then some c else m.bitRead i := by
  split
  case isTrue hmem => exact bitRead_plotAll_of_mem hmem hi
  case isFalse hout =>
    refine bitRead_plotAll_of_not fun p hp hpi => hout ?_
    obtain ⟨rfl, rfl⟩ := bitAt_inj hi hpi
    exact hp

/-- Settles O21: the points the command plots are those of the whole run. -/
theorem fbDrawLinePlotsTheLoopsPoints : Obligations.FbDrawLinePlotsTheLoopsPoints :=
  ⟨rfl, rfl, fun c s hready => ⟨_, s.segment.linePoints, lineRun_linePoints s.segment,
    exec_of_ready hready (.fbDrawLine c), complete_ok _,
    fun _ _ _ hi => bitRead_plotAll_of_bitAt s.store c s.segment.linePoints hi,
    fun _ hi => bitRead_plotAll_of_ge (g := s.geom) hi⟩⟩

end Sys2Proof.Machine
end

section
/-! The stream commands on a block that accepts them (spec/42_thresholder.md R189 to R192, R197): what one push writes
and where it leaves the cursor, for both paths, and what an open stream turns away. -/

namespace Sys2Proof.Machine

/-! ### An open stream -/

/-- An open stream turns away the commands that are not its own (spec/60_exceptions.md R274, 3). -/
theorem exec_of_open_of_not_streamCommand {i : Instr} {s : State} (hcmd : s.cmdBusy = false)
    (hopen : s.imgActive = true) (hi : isStreamCommand i = false) : exec i s = .next (s.failed .streamActive) := by
  have hexempt : exemptOf i = isStreamCommand i := by cases i <;> rfl
  rw [exec_eq, hexempt, hi, ← complete_error (by decide)]
  simp [State.issue, hcmd, hopen]

/-- A stream's own commands leave the geometry and the window (spec/42_thresholder.md R197). -/
theorem CommandEffect.keepsWindow {i : Instr} {s t : State} (h : CommandEffect s i t) (hi : isStreamCommand i = true) :
    t.geom = s.geom ∧ t.imgX0 = s.imgX0 ∧ t.imgY0 = s.imgY0 ∧ t.imgW = s.imgW ∧ t.imgH = s.imgH := by
  cases h with
  | resized => exact Bool.noConfusion hi
  | rotated => exact Bool.noConfusion hi
  | opened hbegin => rcases hbegin with rfl | rfl <;> exact Bool.noConfusion hi
  | pushed c => simp [State.geom]
  | _ => exact ⟨rfl, rfl, rfl, rfl, rfl⟩

/-- Settles O10. -/
theorem openStreamFixesItsGeometry : Obligations.OpenStreamFixesItsGeometry := by
  intro i s hcmd hopen
  refine ⟨exec_of_open_of_not_streamCommand hcmd hopen, fun t h => ?_⟩
  cases hi : isStreamCommand i
  case false =>
    cases (exec_of_open_of_not_streamCommand hcmd hopen hi).symm.trans h
    exact ⟨rfl, rfl, rfl, rfl, rfl⟩
  case true =>
    rcases exec_cases h with rfl | heffect
    · exact ⟨rfl, rfl, rfl, rfl, rfl⟩
    · exact heffect.keepsWindow hi

/-! ### One push -/

/-- IMG_PIXEL_565 in an open generic stream (spec/42_thresholder.md R190). -/
theorem imgPixel565_of_open {s : State} (hcmd : s.cmdBusy = false) (hopen : s.imgActive = true)
    (hmode : s.imgMode = .generic) (v : Nat) :
    exec (.imgPixel565 v) s = .next ((s.push (thrGen v)).complete .ok) := by
  simp [exec, execImgPixel565, State.issue, State.pushPixel, hcmd, hopen, hmode]

/-- `t` is `s` but for what a push writes: a pixel, the cursor and the end of the stream, and ERR
(spec/42_thresholder.md R189, R190). -/
def State.SameButPush (s t : State) : Prop :=
  t = { s with store := t.store, imgCol := t.imgCol, imgRow := t.imgRow, imgActive := t.imgActive, err := t.err }

theorem push_sameButPush (c : Color) (s : State) : s.SameButPush ((s.push c).complete .ok) := by
  rw [complete_ok]
  unfold State.SameButPush State.push State.advanceCursor
  split <;> rfl

/-- `t` is the state after the push of a pixel of colour `c` into the open stream of `s`: the pixel is at the cursor's
point of the window, and the cursor at the next one (spec/42_thresholder.md R181, R192). -/
structure State.Pushed (c : Color) (s t : State) : Prop where
  frame : t = { s with store := t.store, imgCol := t.imgCol, imgRow := t.imgRow, imgActive := t.imgActive, err := .ok }
  pixel : ∃ i, s.geom.bitAt (s.imgX0.toNat + s.imgCol.toNat) (s.imgY0.toNat + s.imgRow.toNat) = some i
    ∧ ∀ j, t.store.bitRead j = if j = i then some c else s.store.bitRead j
  midRow : s.imgCol.toNat + 1 < s.imgW.toNat →
    t.imgCol.toNat = s.imgCol.toNat + 1 ∧ t.imgRow = s.imgRow ∧ t.imgActive = true
  rowEnd : s.imgCol.toNat + 1 = s.imgW.toNat →
    t.imgCol = 0 ∧ t.imgRow.toNat = s.imgRow.toNat + 1 ∧ t.imgActive = decide (s.imgRow.toNat + 1 ≠ s.imgH.toNat)

/-- The cursor's point is in bounds while its stream is open (spec/42_thresholder.md R192, R198). -/
theorem pushPoint_inBounds {s : State} (hopen : s.imgActive = true) (hwin : s.streamInWindow) :
    s.geom.inBounds s.pushPoint.1 s.pushPoint.2 = true := by
  obtain ⟨hcol, hrow, hright, hbottom, -⟩ := hwin hopen
  rw [inBounds_iff]
  unfold State.pushPoint
  omega

theorem push_pushed {s : State} (hopen : s.imgActive = true) (hwin : s.streamInWindow) (c : Color) :
    s.Pushed c ((s.push c).complete .ok) := by
  obtain ⟨hcol, hrow, -⟩ := hwin hopen
  refine ⟨push_sameButPush c s, ?pixel, fun hmid => ?midRow, fun hend => ?rowEnd⟩
  case pixel =>
    have hpoint := bitAt_eq_some.2 ⟨pushPoint_inBounds hopen hwin, rfl⟩
    refine ⟨_, hpoint, fun j => ?_⟩
    show (s.push c).store.bitRead j = _
    rw [push_store, bitRead_plot, hpoint]
    exact if_congr (by rw [Option.some_inj, eq_comm]) rfl rfl
  case midRow =>
    have hpush : s.push c = { s with store := _, imgCol := s.imgCol + 1 } := advanceCursor_of_mid_row hmid.ne
    rw [hpush]
    exact ⟨toNat_succ_of_lt hcol, rfl, hopen⟩
  case rowEnd =>
    have hpush : s.push c = { s with store := _, imgCol := 0, imgRow := s.imgRow + 1, imgActive := _ } :=
      advanceCursor_of_row_end hend
    rw [hpush]
    refine ⟨rfl, toNat_succ_of_lt hrow, ?_⟩
    simp [hopen]

/-- Thresholding at `t` is thresholding a pixel of sum 1 or 0 at 0 (spec/42_thresholder.md R183). -/
theorem thrBmpAt_eq_thrBmp (t r g b : Nat) : thrBmpAt t r g b = thrBmp (if r + g + b > t then 1 else 0) 0 0 := by
  unfold thrBmp thrBmpAt
  split <;> rfl

/-- Settles O28. -/
theorem bitmapPushWritesAndAdvances : Obligations.BitmapPushWritesAndAdvances := by
  refine ⟨fun t r g b s => ?anyThreshold, fun r g b s hcmd hopen hmode hwin => ?push⟩
  case anyThreshold =>
    show imgPixelRgbAt t r g b s = _
    rw [imgPixelRgbAt, thrBmpAt_eq_thrBmp]
    rfl
  case push =>
    have h := push_pushed hopen hwin (thrBmp r g b)
    exact ⟨_, imgPixelRgbAt_of_open hcmd hopen hmode Config.bmpT r g b, h.frame, h.pixel, h.midRow, h.rowEnd⟩

/-- Settles O29. -/
theorem genericPushWritesAndAdvances : Obligations.GenericPushWritesAndAdvances := by
  intro v s hcmd hopen hmode hwin
  have h := push_pushed hopen hwin (thrGen v)
  exact ⟨_, imgPixel565_of_open hcmd hopen hmode v, h.frame, h.pixel, h.midRow, h.rowEnd⟩

/-! ### No stream of the path, and the end of a stream -/

/-- A push is rejected unless a stream of its path is open (spec/42_thresholder.md R189, R190). -/
theorem pushPixel_of_not_open {path : ImgPath} {s : State} (h : s.imgActive = false ∨ s.imgMode ≠ path) (c : Color) :
    s.pushPixel path c = s.failed .stream := by
  rw [← complete_error (by decide)]
  unfold State.pushPixel
  rcases h with h | h <;> simp [h]

/-- Settles O30. -/
theorem pixelPushWithoutItsStreamFails : Obligations.PixelPushWithoutItsStreamFails := by
  intro r g b v s hcmd
  refine ⟨fun h => ?bitmap, fun h => ?generic⟩
  case bitmap =>
    rw [exec_of_accepted hcmd (.inr rfl)]
    exact congrArg _ (pushPixel_of_not_open (h.imp_right fun hmode => by simp [hmode]) _)
  case generic =>
    rw [exec_of_accepted hcmd (.inr rfl)]
    exact congrArg _ (pushPixel_of_not_open (h.imp_right fun hmode => by simp [hmode]) _)

/-- Settles O31. -/
theorem imgAbortClosesTheStream : Obligations.ImgAbortClosesTheStream :=
  ⟨rfl, fun _ hcmd => (exec_of_accepted hcmd (.inr rfl)).trans (congrArg _ (complete_ok _))⟩

end Sys2Proof.Machine
end

section
/-! A generic stream pushed to its end (spec/42_thresholder.md R180, R181, R192, R198): after `n` pushes the first `n`
pixels of the window are in place and no other bit has changed. -/

namespace Sys2Proof.Machine

/-! ### The window's pixels -/

/-- The backing-store bit of window pixel `n`, in row order (spec/42_thresholder.md R181). -/
def State.windowBit (s : State) (n : Nat) : Option Nat :=
  s.geom.bitAt (s.imgX0.toNat + (n % s.imgW.toNat : Nat)) (s.imgY0.toNat + (n / s.imgW.toNat : Nat))

/-- Different window pixels have different bits. -/
theorem windowBit_inj {s : State} {m n i : Nat} (hm : s.windowBit m = some i) (hn : s.windowBit n = some i) :
    m = n := by
  obtain ⟨hx, hy⟩ := bitAt_inj hm hn
  have hmod : m % s.imgW.toNat = n % s.imgW.toNat := by omega
  have hdiv : m / s.imgW.toNat = n / s.imgW.toNat := by omega
  rw [← Nat.div_add_mod m s.imgW.toNat, hmod, hdiv, Nat.div_add_mod]

/-- At pixel `n` the cursor's point is window pixel `n`. -/
theorem bitAt_pushPoint_of_atPixel {s : State} {n : Nat} (h : s.AtPixel n) :
    s.geom.bitAt s.pushPoint.1 s.pushPoint.2 = s.windowBit n := by
  unfold State.pushPoint State.windowBit
  rw [h.col, h.row]

theorem State.SameButPush.trans {s t u : State} (hst : s.SameButPush t) (htu : t.SameButPush u) : s.SameButPush u :=
  Eq.trans htu (by rw [hst])

/-- A push keeps the window, so its pixels keep their bits. -/
theorem State.SameButPush.windowBit {s t : State} (h : s.SameButPush t) (n : Nat) : t.windowBit n = s.windowBit n := by
  rw [h]
  rfl

/-! ### The stream under way -/

/-- The values `vs` are being streamed into the window of `s`, and the first `n` of them are there. -/
structure State.Filling (s : State) (vs : List Nat) (n : Nat) (u : State) : Prop where
  frame : s.SameButPush u
  err : 0 < n → u.err = .ok
  cursor : u.AtPixel n
  pixels : ∀ m i, m < n → s.windowBit m = some i → u.store.bitRead i = some (thrGen (vs.getD m 0))
  others : ∀ i, (∀ m < n, s.windowBit m ≠ some i) → u.store.bitRead i = s.store.bitRead i

theorem filling_start {s : State} (vs : List Nat) (hopen : s.imgActive = true) (hwin : s.streamInWindow)
    (hcol : s.imgCol = 0) (hrow : s.imgRow = 0) : s.Filling vs 0 s := by
  obtain ⟨hw, hh, -⟩ := hwin hopen
  have harea : 0 < s.imgW.toNat * s.imgH.toNat := Nat.mul_pos (Nat.zero_lt_of_lt hw) (Nat.zero_lt_of_lt hh)
  exact {
    frame := rfl
    err := fun h => absurd h (Nat.lt_irrefl 0)
    cursor := {
      col := by rw [hcol, Nat.zero_mod]; rfl
      row := by rw [hrow, Nat.zero_div]; rfl
      active := hopen.trans (decide_eq_true harea).symm }
    pixels := fun m _ hm => absurd hm (Nat.not_lt_zero m)
    others := fun _ _ => rfl }

/-- What the push of pixel `n` does to the bits: it writes the bit of window pixel `n`. -/
theorem State.Filling.bitRead_push {s u : State} {vs : List Nat} {n : Nat} (h : s.Filling vs n u) (c : Color)
    (i : Nat) : (u.push c).store.bitRead i = if s.windowBit n = some i then some c else u.store.bitRead i := by
  rw [push_store, bitRead_plot, bitAt_pushPoint_of_atPixel h.cursor, h.frame.windowBit]

/-- The push of value `n` adds it to those in place. -/
theorem State.Filling.push {s u : State} {vs : List Nat} {n : Nat} (h : s.Filling vs n u) (hcmd : s.cmdBusy = false)
    (hmode : s.imgMode = .generic) (hn : n < s.imgW.toNat * s.imgH.toNat) :
    ∃ v, exec (.imgPixel565 (vs.getD n 0)) u = .next v ∧ s.Filling vs (n + 1) v := by
  have hin : n < u.imgW.toNat * u.imgH.toNat := by rw [h.frame]; exact hn
  have hopen : u.imgActive = true := h.cursor.active.trans (decide_eq_true hin)
  have hcursor := push_atPixel h.cursor hin (thrGen (vs.getD n 0))
  refine ⟨_, imgPixel565_of_open (by rw [h.frame]; exact hcmd) hopen (by rw [h.frame]; exact hmode) _, ?_⟩
  refine ⟨h.frame.trans (push_sameButPush _ u), fun _ => rfl, ⟨hcursor.col, hcursor.row, hcursor.active⟩,
    fun m i hm hi => (h.bitRead_push _ i).trans ?pixels, fun i hi => (h.bitRead_push _ i).trans ?others⟩
  case pixels =>
    rcases Nat.lt_succ_iff_lt_or_eq.1 hm with hlt | rfl
    · rw [if_neg fun hsame => hlt.ne (windowBit_inj hi hsame)]
      exact h.pixels m i hlt hi
    · rw [if_pos hi]
  case others =>
    rw [if_neg (hi n (Nat.lt_succ_self n))]
    exact h.others i fun m hm => hi m (Nat.lt_succ_of_lt hm)

/-- A window filled to its end is closed, with the cursor below its last row (spec/42_thresholder.md R192). -/
theorem State.Filling.closed {s u : State} {vs : List Nat} (h : s.Filling vs (s.imgW.toNat * s.imgH.toNat) u)
    (hcol : s.imgCol = 0) (harea : 0 < s.imgW.toNat * s.imgH.toNat) :
    u = { s with store := u.store, imgRow := s.imgH, imgActive := false, err := .ok } := by
  obtain ⟨hwidth, hheight⟩ : u.imgW = s.imgW ∧ u.imgH = s.imgH := by rw [h.frame]; exact ⟨rfl, rfl⟩
  have hcolEnd : u.imgCol = s.imgCol := by
    refine BitVec.eq_of_toNat_eq ?_
    rw [h.cursor.col, hwidth, Nat.mul_mod_right, hcol]
    rfl
  have hrowEnd : u.imgRow = s.imgH := by
    refine BitVec.eq_of_toNat_eq ?_
    rw [h.cursor.row, hwidth, Nat.mul_div_cancel_left _ (Nat.pos_of_mul_pos_right harea)]
  have hactive : u.imgActive = false := by
    rw [h.cursor.active, hwidth, hheight]
    exact decide_eq_false (Nat.lt_irrefl _)
  exact Eq.trans h.frame (by rw [hcolEnd, hrowEnd, hactive, h.err harea])

/-! ### The statement -/

/-- Settles O33: the run of pushes by number, and the invariant at its end. -/
theorem genericStreamFillsItsWindow : Obligations.GenericStreamFillsItsWindow := by
  intro s vs hcmd hopen hmode hwin hcol hrow hlen
  have hvs : vs.map Instr.imgPixel565 = (List.range vs.length).map fun n => .imgPixel565 (vs.getD n 0) := by
    refine List.ext_getElem (by simp) fun n hn _ => ?_
    have hn' : n < vs.length := by simpa using hn
    simp [hn']
  obtain ⟨hw, hh, -⟩ := hwin hopen
  have harea : 0 < s.imgW.toNat * s.imgH.toNat := Nat.mul_pos (Nat.zero_lt_of_lt hw) (Nat.zero_lt_of_lt hh)
  obtain ⟨t, hrun, ht⟩ := runAll_range (run := exec) (N := vs.length) (filling_start vs hopen hwin hcol hrow)
    fun n hn u hu => hu.push hcmd hmode (hlen ▸ hn)
  refine ⟨t, ?run, State.Filling.closed (hlen ▸ ht) hcol harea, ht.pixels, ht.others⟩
  case run =>
    rw [hvs]
    exact hrun

end Sys2Proof.Machine
end

section
/-! Opening a stream (spec/42_thresholder.md R182, R187, R188): the checks of both IMG_BEGIN commands in terms of the
argument registers and the descriptor they leave, and the row offset read while the stream is open (R186). -/

namespace Sys2Proof.Machine

/-! ### The checks -/

/-- IMG_BEGIN_BMP's checks, of a header (spec/42_thresholder.md R187). -/
theorem BmpHeader.rejected_iff (h : BmpHeader) :
    h.rejected = true ↔ h.sig0 ≠ 0x42 ∨ h.sig1 ≠ 0x4D ∨ h.planes ≠ 1 ∨ h.bpp ≠ 24 ∨ h.comp ≠ 0 ∨ h.w ≤ 0 ∨ h.h = 0
      ∨ Config.imgMaxDim < h.w ∨ Config.imgMaxDim < h.h.natAbs := by
  simp only [BmpHeader.rejected, Bool.or_eq_true, bne_iff_ne, beq_iff_eq, decide_eq_true_eq, or_assoc, gt_iff_lt]

/-- IMG_BEGIN_BMP's checks, of the argument registers (spec/42_thresholder.md R187). -/
theorem bmpHeader_rejected_iff (s : State) :
    s.bmpHeader.rejected = true ↔
      (s.arg 4).extractLsb' 0 8 ≠ 0x42#8 ∨ (s.arg 4).extractLsb' 8 8 ≠ 0x4D#8
        ∨ (s.arg 5).extractLsb' 0 16 ≠ 1#16 ∨ (s.arg 5).extractLsb' 16 16 ≠ 24#16 ∨ s.arg 6 ≠ 0
        ∨ (s.arg 2).toInt ≤ 0 ∨ (s.arg 3).toInt = 0 ∨ 65535 < (s.arg 2).toInt ∨ 65535 < (s.arg 3).toInt.natAbs := by
  have hplanes : s.bmpHeader.planes = 1 ↔ (s.arg 5).extractLsb' 0 16 = 1#16 :=
    BitVec.toNat_eq_nat.trans (and_iff_right (by decide))
  have hdepth : s.bmpHeader.bpp = 24 ↔ (s.arg 5).extractLsb' 16 16 = 24#16 :=
    BitVec.toNat_eq_nat.trans (and_iff_right (by decide))
  rw [BmpHeader.rejected_iff, ne_eq, ne_eq, ne_eq, ne_eq, hplanes, hdepth]
  rfl

/-- IMG_BEGIN_GEN's checks, of the argument registers (spec/42_thresholder.md R188). -/
theorem genHeader_rejected_iff (s : State) :
    s.genHeader.rejected = true ↔
      (s.arg 2).toNat = 0 ∨ (s.arg 3).toNat = 0 ∨ 320 < (s.arg 2).toNat ∨ 65535 < (s.arg 3).toNat := by
  simp only [GenHeader.rejected, Bool.or_eq_true, beq_iff_eq, decide_eq_true_eq, or_assoc]
  rfl

/-! ### The descriptor -/

/-- What an accepted IMG_BEGIN leaves (spec/42_thresholder.md R187, R188): the frame in the descriptor registers, the
cursor at (0, 0), and the stream open unless the window is empty. -/
theorem openStream_complete_ok {f : ImgFrame} {x0 y0 : Half} (hx0 : f.x0 = x0.toNat) (hy0 : f.y0 = y0.toNat)
    (s : State) :
    (s.openStream f).complete .ok = { s with
      imgMode := f.mode, imgFlip := f.flip
      imgX0 := x0, imgY0 := y0
      imgSrcW := BitVec.ofNat 16 f.srcW, imgSrcH := BitVec.ofNat 16 f.srcH
      imgW := BitVec.ofNat 16 (f.windowW s.geom), imgH := BitVec.ofNat 16 (f.windowH s.geom), imgCol := 0, imgRow := 0
      imgRowBytes := BitVec.ofNat 32 f.stride, imgPixOff := f.off
      imgActive := decide (0 < f.windowW s.geom ∧ 0 < f.windowH s.geom), err := .ok } := by
  rw [complete_ok, Bool.decide_and, State.openStream, hx0, hy0, BitVec.ofNat_toNat, BitVec.ofNat_toNat,
    BitVec.setWidth_eq, BitVec.setWidth_eq]

/-- Settles O26. -/
theorem imgBeginBmpOpensOrRejects : Obligations.ImgBeginBmpOpensOrRejects := by
  refine ⟨rfl, ?_⟩
  rintro s _ _ _ _ _ _ hready rfl rfl rfl rfl rfl rfl
  rw [exec_of_ready hready .imgBeginBmp]
  refine congrArg _ (if_congr (bmpHeader_rejected_iff s) ?rejected ?opened)
  case rejected => exact complete_error (by decide) s
  case opened => exact openStream_complete_ok (f := s.bmpHeader.frame) rfl rfl s

/-- Settles O27. -/
theorem imgBeginGenOpensOrRejects : Obligations.ImgBeginGenOpensOrRejects := by
  refine ⟨rfl, ?_⟩
  rintro s _ _ _ _ _ _ hready rfl rfl rfl rfl rfl rfl
  rw [exec_of_ready hready .imgBeginGen]
  refine congrArg _ (if_congr (genHeader_rejected_iff s) ?rejected ?opened)
  case rejected => exact complete_error (by decide) s
  case opened => exact openStream_complete_ok (f := s.genHeader.frame) rfl rfl s

/-! ### The row offset -/

/-- IMG_ROW_OFF of an open bitmap stream whose stored row is number `row` (spec/42_thresholder.md R186). -/
theorem toNat_rowOffset {s : State} {row : Nat} (hopen : s.imgActive = true) (hmode : s.imgMode = .bitmap)
    (hrow : sourceRow s = row) :
    (rowOffset s).toNat = (s.imgPixOff.toNat + row * s.imgRowBytes.toNat) % 2 ^ 32 := by
  have hoffset : rowOffset s = BitVec.ofNat 32 (s.imgPixOff.toNat + row * s.imgRowBytes.toNat) := by
    rw [← BitVec.ofInt_natCast, Nat.cast_add, Nat.cast_mul, ← hrow]
    simp [rowOffset, hopen, hmode]
  rw [hoffset, BitVec.toNat_ofNat]

/-- Settles O32. -/
theorem rowOffsetAddressesTheStoredRow : Obligations.RowOffsetAddressesTheStoredRow := by
  refine fun s hwin => ⟨fun hopen hmode hflip => ?bottomUp, fun hopen hmode hflip => ?topDown, fun hclosed => ?closed⟩
  case bottomUp =>
    obtain ⟨-, hrow, -, -, -, hsource⟩ := hwin hopen
    refine toNat_rowOffset hopen hmode ?_
    rw [sourceRow, if_pos hflip]
    omega
  case topDown =>
    refine toNat_rowOffset hopen hmode ?_
    rw [sourceRow, if_neg (by simp [hflip])]
  case closed =>
    show rowOffset s = 0
    unfold rowOffset
    rcases hclosed with h | h <;> simp [h]

end Sys2Proof.Machine
end

section
/-! The checks of a frame operation (spec/43_display_controller.md R222, R223): what the two common checks answer, what
an accepted frame operation runs, and what follows of one that completed OK. Then DC_STATE's transitions (R221), read off
the effects. -/

namespace Sys2Proof.Machine

/-! ### The common checks -/

/-- Every frame operation's body is the common checks around its own. -/
theorem bodyOf_of_isFrameOp {i : Instr} (hi : isFrameOp i = true) : ∃ body, bodyOf i = State.frameOp body := by
  cases i with
  | dcWriteBase | dcSetFrameMemory | dcDisplayFrame | dcDisplayPart | dcSleep | dcClear => exact ⟨_, rfl⟩
  | _ => exact Bool.noConfusion hi

theorem frameOp_of_unavailable (body : State → State) {s : State} (hd : s.dcState = .uninit ∨ s.dcState = .sleep) :
    s.frameOp body = s.failed .state := by
  unfold State.frameOp State.frameError
  rcases hd with h | h <;> simp [h, complete_error]

theorem frameOp_of_not_waited (body : State → State) {s : State} (hd : s.dcState = .init ∨ s.dcState = .active)
    (hw : s.waited = false) : s.frameOp body = s.failed .noWait := by
  unfold State.frameOp State.frameError
  rcases hd with h | h <;> simp [h, hw, complete_error]

/-- The first two checks turn a frame operation away (spec/43_display_controller.md R223). -/
theorem rejectsFrameOp_of_ready {i : Instr} {s : State} (hi : isFrameOp i = true) (hready : s.ready) :
    s.rejectsFrameOp i := by
  obtain ⟨body, hbody⟩ := bodyOf_of_isFrameOp hi
  rw [State.rejectsFrameOp, exec_of_ready hready, hbody]
  exact ⟨fun hd => congrArg _ (frameOp_of_unavailable body hd),
    fun hd hw => congrArg _ (frameOp_of_not_waited body hd hw)⟩

/-- A frame operation whose first two checks pass runs its own body. -/
theorem exec_of_frameReady {i : Instr} {body : State → State} {s : State} (h : s.frameReady)
    (hbody : bodyOf i = State.frameOp body) : exec i s = .next (body s) := by
  obtain ⟨hready, hstate, hwaited⟩ := h
  rw [exec_of_ready hready, hbody, frameOp_of_ready hstate hwaited]

/-- A frame operation that completed OK passed every check before its own (spec/43_display_controller.md R223;
spec/60_exceptions.md R274). -/
theorem frameReady_of_ok {i : Instr} {s t : State} (hi : isFrameOp i = true) (hcmd : s.cmdBusy = false)
    (h : exec i s = .next t) (hok : t.err = .ok) : s.frameReady := by
  obtain ⟨body, hbody⟩ := bodyOf_of_isFrameOp hi
  have himg : s.imgActive = false := by
    by_contra hopen
    have hstream : isStreamCommand i = false := by
      cases i with
      | imgPixelRgb | imgPixel565 | imgAbort => exact Bool.noConfusion hi
      | _ => rfl
    rw [exec_of_open_of_not_streamCommand hcmd (Bool.not_eq_false _ ▸ hopen) hstream] at h
    cases h
    cases hok
  rw [exec_of_ready ⟨hcmd, himg⟩, hbody] at h
  cases h
  rcases frameOp_cases body s with ⟨-, h⟩ | ⟨-, -, h⟩ | ⟨hd, hw, -⟩
  · rw [h] at hok
    cases hok
  · rw [h] at hok
    cases hok
  · exact ⟨⟨hcmd, himg⟩, hd, hw⟩

/-! ### The checks of a region and of the base image -/

/-- Aligned(x, w) (spec/43_display_controller.md R224). -/
theorem Region.aligned_iff (r : Region) : r.aligned = true ↔ r.x % 8 = 0 ∧ r.w % 8 = 0 := by
  unfold Region.aligned
  rw [Bool.and_eq_true, decide_eq_true_iff, decide_eq_true_iff]

theorem dcSetFrameMemoryBody_of_aligned {s : State} (h : s.argRegion.aligned = true) :
    dcSetFrameMemoryBody s = (s.load s.argRegion).complete .ok := if_pos h

theorem dcSetFrameMemoryBody_of_not_aligned {s : State} (h : s.argRegion.aligned = false) :
    dcSetFrameMemoryBody s = s.failed .align :=
  (if_neg (Bool.eq_false_iff.1 h)).trans (complete_error (by decide) s)

theorem dcDisplayPartBody_of_no_base (p : PartRegion) {s : State} (hb : s.base = false) :
    dcDisplayPartBody p s = s.failed .noBase :=
  (if_pos (by rw [hb, Bool.not_false])).trans (complete_error (by decide) s)

theorem dcDisplayPartBody_of_not_aligned {p : PartRegion} {s : State} (hb : s.base = true)
    (h : (s.partRegion p).aligned = false) : dcDisplayPartBody p s = s.failed .align := by
  rw [dcDisplayPartBody, if_neg (by simp [hb]), if_neg (Bool.eq_false_iff.1 h), complete_error (by decide)]

theorem dcDisplayPartBody_of_aligned {p : PartRegion} {s : State} (hb : s.base = true)
    (h : (s.partRegion p).aligned = true) :
    dcDisplayPartBody p s = ((s.load (s.partRegion p)).trigger .part).complete .ok := by
  rw [dcDisplayPartBody, if_neg (by simp [hb]), if_pos h]

/-! ### DC_STATE -/

/-- A command that draws is not of the display family, so DC_STATE's table leaves it alone
(spec/43_display_controller.md R221). -/
theorem dcStateAfter_of_writesStore {i : Instr} (hi : writesStore i = true) (d : DcState) : dcStateAfter i d = d := by
  cases i with
  | dcInit | dcWriteBase | dcDisplayFrame | dcDisplayPart | dcClear | dcSleep => exact Bool.noConfusion hi
  | _ => rfl

/-- Each effect leaves DC_STATE as the table says, and a rejection leaves it (spec/43_display_controller.md R221). -/
theorem CommandEffect.dcState_eq {i : Instr} {s t : State} (h : CommandEffect s i t) :
    t.dcState = if t.err = .ok then dcStateAfter i s.dcState else s.dcState := by
  cases h with
  | rejected hcode => exact (if_neg hcode).symm
  | waitStarted => exact (ite_self _).symm
  | drawn hstore => exact (dcStateAfter_of_writesStore hstore _).symm
  | pushed c hstore => simp [dcStateAfter_of_writesStore hstore]
  | opened hi => rcases hi with rfl | rfl <;> rfl
  | refreshed hi => rcases hi with ⟨rfl, -, -⟩ | ⟨⟨p, rfl⟩, -⟩ | rfl | rfl <;> rfl
  | _ => rfl

/-- With no command in progress a command has one of the effects (spec/60_exceptions.md R274). -/
theorem effect_of_not_busy {i : Instr} {s t : State} (hcmd : s.cmdBusy = false) (h : exec i s = .next t) :
    CommandEffect s i t := by
  rw [exec_eq] at h
  cases h
  rcases issue_cases (exemptOf i) (bodyOf i) s with ⟨hbusy, -⟩ | ⟨-, -, -, h⟩ | ⟨-, -, h⟩
  · exact Bool.noConfusion (hcmd.symm.trans hbusy)
  · rw [h]
    exact .rejected (by decide)
  · rw [h]
    exact bodyOf_effect i s

/-! ### The statements -/

/-- Settles O45: the common checks of any frame operation, then those of its own body. -/
theorem frameOperationChecksInOrder : Obligations.FrameOperationChecksInOrder := by
  refine fun i s hi hready => ⟨rejectsFrameOp_of_ready hi hready, ?noBase, ?partAlign, ?setAlign⟩
  case noBase =>
    rintro hd hw p rfl hb
    exact (exec_of_frameReady ⟨hready, hd, hw⟩ rfl).trans (congrArg _ (dcDisplayPartBody_of_no_base p hb))
  case partAlign =>
    rintro hd hw p rfl hb halign
    exact (exec_of_frameReady ⟨hready, hd, hw⟩ rfl).trans (congrArg _ (dcDisplayPartBody_of_not_aligned hb halign))
  case setAlign =>
    rintro hd hw rfl halign
    exact (exec_of_frameReady ⟨hready, hd, hw⟩ rfl).trans (congrArg _ (dcSetFrameMemoryBody_of_not_aligned halign))

/-- Settles O46. -/
theorem dcStateFollowsItsTransitionTable : Obligations.DcStateFollowsItsTransitionTable :=
  ⟨fun _ _ _ hcmd h => (effect_of_not_busy hcmd h).dcState_eq,
    fun _ _ hi hready hd => (rejectsFrameOp_of_ready hi hready).1 hd⟩

/-- Settles O50: an OK frame operation passed the NO_WAIT check, and WAITED = 1 means an idle panel. -/
theorem frameOperationNeedsAnIdlePanel : Obligations.FrameOperationNeedsAnIdlePanel := by
  intro i s t hi hidle hcmd h hok
  obtain ⟨-, -, hwaited⟩ := frameReady_of_ok hi hcmd h hok
  exact ⟨hwaited, hidle hwaited⟩

end Sys2Proof.Machine
end

section
/-! The display-controller commands on a block that accepts them (spec/43_display_controller.md R224 to R227, R229 to
R234): the whole effect of each, with panel memory after a transfer read cell by cell. -/

namespace Sys2Proof.Machine

/-! ### The transfer -/

/-- The cells a transfer copies into, of those that are on the panel (spec/43_display_controller.md R224). -/
theorem Region.covers_iff (R : Region) (g : Geometry) {r c : Nat} (hr : r < Config.panelH) (hc : c < Config.panelW) :
    R.covers g r c = true ↔
      (R.y ≤ r ∧ r < R.y + R.h ∧ r - R.y < g.h) ∧ (R.x ≤ c ∧ c < R.x + R.w ∧ c - R.x < g.w) := by
  simp [Region.covers, hr, hc, and_assoc]

/-- Panel memory after Load, cell by cell (spec/43_display_controller.md R224). -/
theorem bitRead_load (R : Region) (s : State) {r c : Nat} (hr : r < 200) (hc : c < 200) :
    (s.load R).pram.bitRead (r * 200 + c) =
      if (R.y ≤ r ∧ r < R.y + R.h ∧ r - R.y < s.fbH.toNat) ∧ (R.x ≤ c ∧ c < R.x + R.w ∧ c - R.x < s.fbW.toNat)
      then s.store.bitRead ((r - R.y) * s.fbW.toNat + (c - R.x)) else s.pram.bitRead (r * 200 + c) := by
  have hcell : r * 200 + c < Config.capBits := by
    unfold Config.capBits
    omega
  have hrow : (r * 200 + c) / Config.panelW = r := by
    unfold Config.panelW
    omega
  have hcol : (r * 200 + c) % Config.panelW = c := by
    unfold Config.panelW
    omega
  rw [load_pram, bitRead_build, if_pos hcell, loadedCell, hrow, hcol]
  exact if_congr (R.covers_iff s.geom hr hc) rfl rfl

/-! ### The statements -/

/-- DC_INIT's whole effect (spec/43_display_controller.md R226). -/
theorem dcInitBody_eq (o : Orientation) (s : State) :
    dcInitBody o s = { s with
      displayed := if s.pend = none then s.displayed else .allUnknown, pend := none, pram := .allUnknown
      panelBusy := true, dcState := .init, orient := o, base := false, waited := false, err := .ok } := by
  have hglass : (if s.pend.isSome then Memory.allUnknown else s.displayed) =
      if s.pend = none then s.displayed else .allUnknown := by
    cases s.pend <;> rfl
  rw [dcInitBody, complete_ok, hglass]

/-- Settles O36. -/
theorem dcInitReinitialisesThePanel : Obligations.DcInitReinitialisesThePanel :=
  ⟨rfl, rfl, fun o s hready => (exec_of_ready hready (.dcInit o)).trans (congrArg _ (dcInitBody_eq o s))⟩

/-- Settles O37. -/
theorem dcWaitIdleCompletesOrWaits : Obligations.DcWaitIdleCompletesOrWaits := by
  refine ⟨rfl, fun s hready => ?_⟩
  rw [exec_of_ready hready .dcWaitIdle]
  refine ⟨fun hidle => congrArg _ ?idle, fun hbusy => congrArg _ ?busy⟩
  case idle => exact (if_neg (Bool.eq_false_iff.1 hidle)).trans (complete_ok _)
  case busy => exact if_pos hbusy

/-- Settles O39. -/
theorem dcWriteBaseRefreshesWhiteAndSetsBase : Obligations.DcWriteBaseRefreshesWhiteAndSetsBase :=
  ⟨rfl, fun _ hready => ⟨rejectsFrameOp_of_ready rfl hready, fun hframe =>
    ⟨_, exec_of_frameReady hframe rfl, fun _ hi => bitRead_allWhite hi, complete_ok _⟩⟩⟩

/-- Settles O40. -/
theorem dcSetFrameMemoryLoadsTheRegion : Obligations.DcSetFrameMemoryLoadsTheRegion := by
  refine ⟨rfl, ?_⟩
  rintro s _ _ _ _ hready rfl rfl rfl rfl
  refine ⟨rejectsFrameOp_of_ready rfl hready, fun hframe hgrid => ?align, fun hframe hgrid => ?load⟩
  case align =>
    have halign : s.argRegion.aligned = false := Bool.eq_false_iff.2 fun h => hgrid (s.argRegion.aligned_iff.1 h)
    exact (exec_of_frameReady hframe rfl).trans (congrArg _ (dcSetFrameMemoryBody_of_not_aligned halign))
  case load =>
    have hbody := dcSetFrameMemoryBody_of_aligned (s.argRegion.aligned_iff.2 hgrid)
    exact ⟨_, (exec_of_frameReady hframe rfl).trans (congrArg _ hbody), complete_ok _,
      fun _ _ hr hc => bitRead_load s.argRegion s hr hc⟩

/-- Settles O41. -/
theorem dcDisplayFrameTriggersAFullRefresh : Obligations.DcDisplayFrameTriggersAFullRefresh :=
  ⟨rfl, fun _ hready => ⟨rejectsFrameOp_of_ready rfl hready, fun hframe =>
    (exec_of_frameReady hframe rfl).trans (congrArg _ (complete_ok _))⟩⟩

/-- Settles O42: the two values of REGION differ in the region only. -/
theorem dcDisplayPartLoadsAndTriggers : Obligations.DcDisplayPartLoadsAndTriggers := by
  refine ⟨rfl, rfl, fun p s x y w h hready hwhole hregion => ?_⟩
  have hpart : s.partRegion p = ⟨x, y, w, h⟩ := by
    cases p with
    | whole =>
      obtain ⟨rfl, rfl, rfl, rfl⟩ := hwhole rfl
      rfl
    | region =>
      obtain ⟨rfl, rfl, rfl, rfl⟩ := hregion rfl
      rfl
  have hgrid_iff : (s.partRegion p).aligned = true ↔ x % 8 = 0 ∧ w % 8 = 0 := by
    rw [hpart]
    exact Region.aligned_iff _
  refine ⟨rejectsFrameOp_of_ready rfl hready, fun hframe hb => ?noBase, fun hframe hb hgrid => ?align,
    fun hframe hb hgrid => ?refresh⟩
  case noBase =>
    exact (exec_of_frameReady hframe rfl).trans (congrArg _ (dcDisplayPartBody_of_no_base p hb))
  case align =>
    have halign : (s.partRegion p).aligned = false := Bool.eq_false_iff.2 fun h => hgrid (hgrid_iff.1 h)
    exact (exec_of_frameReady hframe rfl).trans (congrArg _ (dcDisplayPartBody_of_not_aligned hb halign))
  case refresh =>
    have hbody := dcDisplayPartBody_of_aligned hb (hgrid_iff.2 hgrid)
    rw [hpart] at hbody
    exact ⟨_, (exec_of_frameReady hframe rfl).trans (congrArg _ hbody), complete_ok _,
      fun _ _ hr hc => bitRead_load ⟨x, y, w, h⟩ s hr hc⟩

/-- Settles O43. -/
theorem dcSleepLosesPanelMemoryOnly : Obligations.DcSleepLosesPanelMemoryOnly :=
  ⟨rfl, fun _ hready => ⟨rejectsFrameOp_of_ready rfl hready, fun hframe =>
    (exec_of_frameReady hframe rfl).trans (congrArg _ (complete_ok _))⟩⟩

/-- Settles O44. -/
theorem dcClearRefreshesWhiteAndDropsBase : Obligations.DcClearRefreshesWhiteAndDropsBase :=
  ⟨rfl, fun _ hready => ⟨rejectsFrameOp_of_ready rfl hready, fun hframe =>
    ⟨_, exec_of_frameReady hframe rfl, fun _ hi => bitRead_allWhite hi, complete_ok _⟩⟩⟩

end Sys2Proof.Machine
end

section
/-! A wait's poll ticks and the panel's busy fall (spec/43_display_controller.md R228, R240): the outcomes of one tick,
and the count of a wait that always finds the panel busy. -/

namespace Sys2Proof.Machine

/-! ### One tick -/

theorem pollTick_of_idle (limit : Nat) {s : State} (hcmd : s.cmdBusy = true) (hidle : s.panelBusy = false) :
    s.pollTick limit = { s with cmdBusy := false, waited := true, err := .ok } := by
  simp [State.pollTick, hcmd, hidle, complete_ok]

theorem pollTick_of_last {limit : Nat} {s : State} (hcmd : s.cmdBusy = true) (hbusy : s.panelBusy = true)
    (hlast : limit ≤ s.waitCnt.toNat + 1) :
    s.pollTick limit = State.failed .timeout { s with waitCnt := s.waitCnt + 1, cmdBusy := false } := by
  simp [State.pollTick, hcmd, hbusy, hlast, complete_error]

theorem pollTick_of_below {limit : Nat} {s : State} (hcmd : s.cmdBusy = true) (hbusy : s.panelBusy = true)
    (hbelow : s.waitCnt.toNat + 1 < limit) : s.pollTick limit = { s with waitCnt := s.waitCnt + 1 } := by
  simp [State.pollTick, hcmd, hbusy, hbelow]

/-! ### The ticks of a wait on a busy panel -/

section
variable {limit : Nat} {s : State}

/-- A count below 2^32 fits WAIT_CNT (spec/10_state.md R61). -/
theorem toNat_ofNat32 {n : Nat} (h : n < 2 ^ 32) : (BitVec.ofNat 32 n).toNat = n := by
  rw [BitVec.toNat_ofNat, Nat.mod_eq_of_lt h]

/-- Before the bound each tick counts; a bound below 2^32 keeps WAIT_CNT from wrapping. -/
theorem pollTick_iterate (hlimit : limit < 2 ^ 32) (hcmd : s.cmdBusy = true) (hbusy : s.panelBusy = true)
    (hstart : s.waitCnt = 0) {n : Nat} (hn : n < limit) :
    (State.pollTick limit)^[n] s = { s with waitCnt := BitVec.ofNat 32 n } := by
  induction n with
  | zero =>
    show s = { s with waitCnt := 0 }
    rw [← hstart]
  | succ n ih =>
    have hbelow : (BitVec.ofNat 32 n).toNat + 1 < limit := by
      rwa [toNat_ofNat32 (by omega)]
    rw [Function.iterate_succ_apply', ih (Nat.lt_of_succ_lt hn), BitVec.ofNat_add]
    exact pollTick_of_below (s := { s with waitCnt := BitVec.ofNat 32 n }) hcmd hbusy hbelow

/-- The tick that reaches the bound ends the wait. -/
theorem pollTick_iterate_limit (hpos : 1 ≤ limit) (hlimit : limit < 2 ^ 32) (hcmd : s.cmdBusy = true)
    (hbusy : s.panelBusy = true) (hstart : s.waitCnt = 0) :
    (State.pollTick limit)^[limit] s =
      State.failed .timeout { s with waitCnt := BitVec.ofNat 32 limit, cmdBusy := false } := by
  obtain ⟨n, rfl⟩ := Nat.exists_eq_add_of_le' hpos
  have hlast : n + 1 ≤ (BitVec.ofNat 32 n).toNat + 1 := by
    rw [toNat_ofNat32 (Nat.lt_of_succ_lt hlimit)]
  rw [Function.iterate_succ_apply', pollTick_iterate hlimit hcmd hbusy hstart (Nat.lt_succ_self n), BitVec.ofNat_add]
  exact pollTick_of_last (s := { s with waitCnt := BitVec.ofNat 32 n }) hcmd hbusy hlast

end

/-! ### The statements -/

/-- Settles O38. -/
theorem waitTimesOutAfterItsTicks : Obligations.WaitTimesOutAfterItsTicks :=
  fun limit _ hpos hcmd => ⟨pollTick_of_idle limit hcmd, pollTick_of_last hcmd, pollTick_of_below hcmd,
    fun hlimit hbusy hstart => ⟨fun _ hn => pollTick_iterate hlimit hcmd hbusy hstart hn,
      pollTick_iterate_limit hpos hlimit hcmd hbusy hstart⟩⟩

/-- Settles O47. -/
theorem busyFallShowsThePendingImage : Obligations.BusyFallShowsThePendingImage := by
  refine fun s hbusy => ⟨fun hnone => ?nothing, fun p hp => busyFall_of_refreshing ⟨hbusy, hp⟩⟩
  case nothing => simp [State.busyFall, hbusy, hnone]

end Sys2Proof.Machine
end

section
/-! The base image (spec/43_display_controller.md R226, R229, R232, R234, R242): what a command does to LAST_REFRESH,
PEND and BASE, finer than `CommandEffect` in the kind of the refresh and in what it makes of BASE. -/

namespace Sys2Proof.Machine

/-! ### The effects on a refresh and the base image -/

/-- What command `i` does to LAST_REFRESH, PEND and BASE: it keeps all three, and then is no DC_INIT or DC_CLEAR that
completed OK, or it re-initialises the panel, or it triggers a refresh. -/
inductive RefreshEffect (s : State) : Instr → State → Prop where
  | kept {i : Instr} {t : State} (hlast : t.lastRefresh = s.lastRefresh) (hpend : t.pend = s.pend)
      (hbase : t.base = s.base)
      (hother : s.cmdBusy = false → t.err = .ok → (∀ o, i ≠ .dcInit o) ∧ i ≠ .dcClear) : RefreshEffect s i t
  | initialised (o : Orientation) : RefreshEffect s (.dcInit o) (dcInitBody o s)
  | full {i : Instr} {m : Memory} {b : Bool}
      (hi : i = .dcDisplayFrame ∧ b = s.base ∨ i = .dcWriteBase ∨ i = .dcClear ∧ b = false) :
      RefreshEffect s i (State.complete .ok { State.trigger .full { s with pram := m } with base := b })
  | part (p : PartRegion) {m : Memory} (hbase : s.base = true) :
      RefreshEffect s (.dcDisplayPart p) ((State.trigger .part { s with pram := m }).complete .ok)

theorem RefreshEffect.rejected {i : Instr} {code : StatusCode} {s : State} (hcode : code ≠ .ok) :
    RefreshEffect s i (s.complete code) :=
  .kept rfl rfl rfl fun _ hok => absurd hok hcode

/-- A frame operation is rejected by its common checks, or has the effect of its body. -/
theorem RefreshEffect.frameOp {i : Instr} {body : State → State} {s : State} (h : RefreshEffect s i (body s)) :
    RefreshEffect s i (s.frameOp body) := by
  rcases frameOp_cases body s with ⟨-, h'⟩ | ⟨-, -, h'⟩ | ⟨-, -, h'⟩ <;> rw [h']
  · exact .rejected (by decide)
  · exact .rejected (by decide)
  · exact h

/-- DC_DISPLAY_PART is rejected unless BASE is 1 (spec/43_display_controller.md R232). -/
theorem RefreshEffect.displayPart (p : PartRegion) (s : State) :
    RefreshEffect s (.dcDisplayPart p) (dcDisplayPartBody p s) := by
  cases hb : s.base with
  | false =>
    rw [dcDisplayPartBody_of_no_base p hb, ← complete_error (by decide)]
    exact .rejected (by decide)
  | true =>
    cases halign : (s.partRegion p).aligned with
    | false =>
      rw [dcDisplayPartBody_of_not_aligned hb halign, ← complete_error (by decide)]
      exact .rejected (by decide)
    | true =>
      rw [dcDisplayPartBody_of_aligned hb halign]
      exact .part p hb

/-- A command is dropped, rejected by an open stream, or has the effect of its body (spec/60_exceptions.md R274). -/
theorem RefreshEffect.issued {i : Instr} {s t : State} (h : exec i s = .next t)
    (hbody : RefreshEffect s i (bodyOf i s)) : RefreshEffect s i t := by
  rw [exec_eq] at h
  cases h
  rcases issue_cases (exemptOf i) (bodyOf i) s with ⟨hbusy, h⟩ | ⟨-, -, -, h⟩ | ⟨-, -, h⟩ <;> rw [h]
  · exact .kept rfl rfl rfl fun hcmd => Bool.noConfusion (hcmd.symm.trans hbusy)
  · exact .rejected (by decide)
  · exact hbody

/-- The commands outside the display family, DC_WAIT_IDLE, DC_SET_FRAME_MEMORY and DC_SLEEP write none of the three
fields (spec/10_state.md R65). -/
theorem exec_keeps_refresh {i : Instr} {s t : State} (h : exec i s = .next t)
    (hi : isDisplayCommand i = false ∨ i = .dcWaitIdle ∨ i = .dcSetFrameMemory ∨ i = .dcSleep) :
    t.lastRefresh = s.lastRefresh ∧ t.pend = s.pend ∧ t.base = s.base := by
  obtain ⟨-, -, -, -, -, -, -, -, -, -, -, hbase, hlast, hpend, -, -, -, -, -, -, hpanel⟩ :=
    commandsWriteOnlyTheirOwnFields i s t h
  rcases hi with hi | rfl | rfl | rfl
  · obtain ⟨-, hbase, -, hlast, -, hpend, -⟩ := hpanel hi
    exact ⟨hlast, hpend, hbase⟩
  · exact ⟨hlast (by simp), (hpend (by simp)).1, hbase (by simp) (by simp) (by simp)⟩
  · exact ⟨hlast (by simp), (hpend (by simp)).1, hbase (by simp) (by simp) (by simp)⟩
  · exact ⟨hlast (by simp), (hpend (by simp)).1, hbase (by simp) (by simp) (by simp)⟩

theorem exec_refreshEffect {i : Instr} {s t : State} (h : exec i s = .next t) : RefreshEffect s i t := by
  cases i with
  | dcInit o => exact .issued h (.initialised o)
  | dcWriteBase => exact .issued h (.frameOp (.full (.inr (.inl rfl))))
  | dcDisplayFrame => exact .issued h (.frameOp (.full (.inl ⟨rfl, rfl⟩)))
  | dcDisplayPart p => exact .issued h (.frameOp (.displayPart p s))
  | dcClear => exact .issued h (.frameOp (.full (.inr (.inr ⟨rfl, rfl⟩))))
  | _ =>
    obtain ⟨hlast, hpend, hbase⟩ := exec_keeps_refresh h (by simp [isDisplayCommand, isFrameOp])
    exact .kept hlast hpend hbase fun _ _ => ⟨nofun, nofun⟩

/-! ### The statement -/

/-- Settles O49: a refresh is PARTIAL only where DC_DISPLAY_PART passed its BASE check, and BASE is written by the three
commands named only. -/
theorem partialRefreshNeedsABaseImage : Obligations.PartialRefreshNeedsABaseImage := by
  intro i s t h
  cases exec_refreshEffect h with
  | kept hlast hpend hbase hother =>
    refine ⟨fun hpart => .inl (hlast.symm.trans hpart), fun hne => absurd hpend hne,
      fun hset => .inl (hbase.symm.trans hset), fun hcmd hok hi => ?_⟩
    obtain ⟨hinit, hclear⟩ := hother hcmd hok
    rcases hi with ⟨o, hi⟩ | hi
    · exact absurd hi (hinit o)
    · exact absurd hi hclear
  | initialised o => exact ⟨.inl, fun _ => nofun, nofun, fun _ _ _ => rfl⟩
  | full hi =>
    refine ⟨nofun, fun _ => nofun, ?set, ?dropped⟩
    case set =>
      rcases hi with ⟨-, rfl⟩ | rfl | ⟨-, rfl⟩
      · exact .inl
      · exact fun _ => .inr ⟨rfl, rfl⟩
      · exact nofun
    case dropped =>
      rintro - - (⟨o, rfl⟩ | rfl)
      · simp at hi
      · simpa using hi
  | part p hbase =>
    exact ⟨fun _ => .inr ⟨⟨p, rfl⟩, hbase⟩, fun _ _ => ⟨⟨p, rfl⟩, hbase⟩, fun _ => .inl hbase, fun _ _ => by simp⟩

end Sys2Proof.Machine
end

section
/-! Exceptions (spec/60_exceptions.md): a busy block drops a CMD write (R275), an effect that reports an error is the
rejection by a check (R272), and no access and no turn of a powered block stops it (R271, R279). -/

namespace Sys2Proof.Machine

/-! ### Dropped CMD writes -/

/-- A command issued while another is in progress is dropped (spec/60_exceptions.md R275). -/
theorem exec_of_cmdBusy {s : State} (hbusy : s.cmdBusy = true) (i : Instr) : exec i s = .next s.dropCommand := by
  rw [exec_eq, State.issue, if_pos hbusy]

/-- Settles O9: the CMD_BUSY check comes first, for a legal word and for an illegal one. -/
theorem busyBlockDropsCommandWrites : Obligations.BusyBlockDropsCommandWrites := by
  intro w s hbusy
  unfold issueWord
  cases decode w with
  | ok i => exact exec_of_cmdBusy hbusy i
  | error e => exact congrArg Host.Outcome.next (if_pos hbusy)

/-! ### Failed commands -/

/-- Every effect but a rejection completes with OK, or leaves a wait in progress: an error that its own CMD write
completed is a rejection (spec/60_exceptions.md R272). -/
theorem CommandEffect.eq_failed {i : Instr} {s t : State} (h : CommandEffect s i t) (hdone : t.cmdBusy = false)
    (herr : t.err ≠ .ok) : t = s.failed t.err := by
  cases h with
  | rejected hcode => exact complete_error hcode s
  | waitStarted => exact Bool.noConfusion hdone
  | _ => exact absurd rfl herr

/-- Settles O11. -/
theorem failedCommandChangesOnlyErr : Obligations.FailedCommandChangesOnlyErr :=
  fun _ _ _ hcmd h => (effect_of_not_busy hcmd h).eq_failed

/-! ### No stop -/

/-- A command, an illegal word, a register or window write and a refused one all answer a next state
(spec/60_exceptions.md R271, R277). -/
theorem busWrite_answers (off : Offset) (n : Nat) (v : Word) (s : State) : ∃ t, s.busWrite off n v = .next t := by
  rcases busWrite_cases off n v s with ⟨i, h⟩ | h | ⟨i, h⟩ | ⟨k, b, -, h⟩ | h
  · exact ⟨_, h.trans (exec_eq i s)⟩
  all_goals exact ⟨_, h⟩

theorem access_answers (a : BusAccess) (s : State) : ∃ t, State.access a s = .next t := by
  cases a with
  | read off n => exact ⟨s.busRead off n, rfl⟩
  | write off n v => exact busWrite_answers off n v s

/-- The host's turn is refused only without power (spec/70_reset_and_hazards.md R311). -/
theorem hostTurn_answers {s : State} (hpow : s.powered = true) : ∃ t, s.hostTurn = .next t := by
  cases hprog : s.program with
  | nil => exact ⟨s, hostTurn_nil hprog⟩
  | cons op rest =>
    cases op with
    | access a =>
      rw [hostTurn_access hpow hprog]
      exact access_answers a _
    | poll off mask value => exact ⟨_, hostTurn_poll hpow hprog⟩

/-- Settles O8: only the host's turn can be refused, and with power it is not. -/
theorem poweredMachineNeverStops : Obligations.PoweredMachineNeverStops := by
  intro s hpow
  cases hturn : s.nextTurn <;> rw [step_of_nextTurn hturn]
  case host => exact hostTurn_answers (s := s.popTurn) hpow
  all_goals exact ⟨_, rfl⟩

end Sys2Proof.Machine
end

section
/-! The state after reset (spec/70_reset_and_hazards.md R300, R301): what each register reads, with PANEL_BUSY the one
value left open, and the invariants. -/

namespace Sys2Proof.Machine

/-- The model's first state is a power-on reset too: of a block that has taken no draw and a host that has placed nothing
(spec/70_reset_and_hazards.md R300). -/
theorem reset_eq_powerOnReset : State.reset = State.powerOnReset { State.reset with draws := 0 } := rfl

/-! ### Registers after reset -/

/-- PANEL_BUSY, bit 17, is the one field of STATUS that reset leaves to a draw (spec/10_state.md R32, R55). -/
theorem statusWord_powerOnReset (u : State) :
    statusWord u.powerOnReset = if Config.choose u.draws then 0x00020000 else 0x00000000 := by
  show statusWord { State.reset with panelBusy := Config.choose u.draws } = _
  cases Config.choose u.draws <;> decide

/-- No other register holds a drawn value or one of the host's. -/
theorem readReg_powerOnReset {r : Reg} (hr : r ≠ .status) (u : State) : readReg r u.powerOnReset = readReg r .reset := by
  cases r with
  | status => exact absurd rfl hr
  | _ => rfl

/-- FB_DIM holds the panel's 200 by 200 (spec/10_state.md R41). -/
theorem readReg_fbDim_reset : readReg .fbDim .reset = 0x00C800C8 := by decide

theorem readReg_reset {r : Reg} (hstatus : r ≠ .status) (hdim : r ≠ .fbDim) : readReg r .reset = 0 := by
  cases r with
  | status => exact absurd rfl hstatus
  | fbDim => exact absurd rfl hdim
  | arg i => exact Vector.getElem_replicate i.isLt
  | _ => decide

/-! ### The invariant after reset -/

/-- The invariant sees nothing of the host's data and inputs, which a power-on reset leaves
(spec/70_reset_and_hazards.md R301). -/
theorem powerOnReset_inv (u : State) : u.powerOnReset.Inv := { reset_inv u.draws with }

/-! ### The statement -/

/-- Settles O60: both kinds of reset state are power-on resets, and STATUS splits on the draw for PANEL_BUSY. -/
theorem resetGivesTheTabledValues : Obligations.ResetGivesTheTabledValues := by
  intro s hs
  obtain ⟨u, rfl⟩ : ∃ u : State, s = u.powerOnReset := hs.elim (fun h => ⟨_, h.trans reset_eq_powerOnReset⟩) id
  have hstatus : statusWord u.powerOnReset = 0x00000000 ∨ statusWord u.powerOnReset = 0x00020000 := by
    rw [statusWord_powerOnReset]
    exact (ite_eq_or_eq _ _ _).symm
  have hdim : readReg .fbDim u.powerOnReset = 0x00C800C8 :=
    (readReg_powerOnReset (r := .fbDim) nofun u).trans readReg_fbDim_reset
  have hzero {r : Reg} (hr : r ≠ .status) (hr' : r ≠ .fbDim) : readReg r u.powerOnReset = 0 :=
    (readReg_powerOnReset hr u).trans (readReg_reset hr hr')
  obtain ⟨-, hcapacity, hwaited, -, hstream, -, -, -⟩ := powerOnReset_inv u
  exact ⟨hstatus, hzero nofun nofun, hzero nofun nofun, fun _ => hzero nofun nofun, hdim,
    hzero nofun nofun, hzero nofun nofun, hzero nofun nofun, hzero nofun nofun, hzero nofun nofun, hzero nofun nofun,
    hzero nofun nofun, hzero nofun nofun, hzero nofun nofun, rfl, bitRead_allUnknown, bitRead_allUnknown,
    bitRead_allUnknown, rfl, rfl, rfl, rfl, rfl, rfl, hwaited, hcapacity, hstream⟩

end Sys2Proof.Machine
end
